-- ==== Sys2Proof/Word.lean ====
section
/-! DEFINITION. The three sizes of value the block handles: a byte, a 24-bit flash address, and the transport's
error value, which the sequencer carries and never looks into. -/

namespace Sys2Proof

/-- An unsigned 8-bit value (00_scope.md R18; 20_memory.md R63: "an indivisible 8-bit value"). -/
abbrev Byte := BitVec 8

/-- A byte offset into the flash array: exactly 24 bits (00_scope.md R10, R18). -/
abbrev Addr := BitVec 24

/-- The transport's error value `E` (00_scope.md R16): opaque to the sequencer and "propagated verbatim". No
definition of the model inspects one. Log entry 2. -/
abbrev BusErr := Nat

end Sys2Proof
end

