-- ==== Sys2Proof/Syntax.lean ====
section
/-! DEFINITION. The two levels of the block's instruction set: the ten wire commands of 30_encoding.md R96 and the
eight host operations of R104, as one inductive with a constructor for each row of the opcode table; and the shapes
their encodings take (a bus frame, a host port command). -/

namespace Sys2Proof

/-- The eight host operations, in the order of their codes (30_encoding.md R104, R105): what the `OP` latch holds. -/
inductive HostOp where
  | read
  | pageProgram
  | sectorErase
  | chipErase
  | softwareReset
  | writeEnable
  | readManufacturerId
  | readJedecId
  deriving DecidableEq, Repr

/-- The classes of mutating operation, which select the poll parameters (00_scope.md R12, R13, R19): page program,
sector erase, chip erase. -/
inductive PollClass where
  | pp
  | se
  | ce
  deriving DecidableEq, Repr

/-- The instruction set: ten wire commands (30_encoding.md R96; 40_wire_commands.md R125 to R134), then eight host
operations (30_encoding.md R104). A received length `n` is an operand of `read`: no frame encodes it (R99). -/
inductive Instr where
  | writeEnable
  | readStatus
  | read (a : Addr) (n : Nat)
  | pageProgram (a : Addr) (data : List Byte)
  | sectorErase (a : Addr)
  | chipErase
  | enableReset
  | reset
  | readManufacturerId
  | readJedecId
  | opRead (a : Addr) (n : Nat)
  | opPageProgram (a : Addr) (data : List Byte)
  | opSectorErase (a : Addr)
  | opChipErase
  | opSoftwareReset
  | opWriteEnable
  | opReadManufacturerId
  | opReadJedecId
  deriving DecidableEq, Repr

/-- A command on the host port: the tuple `(OP, ADDR, LEN, TXDATA)` of 30_encoding.md R103, R105. -/
structure HostCommand where
  op     : BitVec 3
  addr   : Addr
  len    : Nat
  txData : List Byte
  deriving DecidableEq, Repr

/-- An encoded instruction. A wire command is one bus transaction, the bytes sent and the number received
(30_encoding.md R90); a host operation is one command on the host port. -/
inductive Encoded where
  | frame (tx : List Byte) (n : Nat)
  | command (c : HostCommand)
  deriving DecidableEq, Repr

/-- Why a frame or a port command is no instruction. -/
inductive DecodeError where
  /-- A frame without a byte (30_encoding.md R90: tx begins with the opcode). -/
  | emptyFrame
  /-- A first byte outside the closed table (30_encoding.md R97, R98). -/
  | unknownOpcode (op : Byte)
  /-- A known opcode with the wrong number of bytes sent or received (30_encoding.md R99). -/
  | frameLength (op : Byte)
  /-- A PageProgram frame with more than 256 data bytes (30_encoding.md R91, format WAW). -/
  | payloadTooLong (len : Nat)
  /-- ReadManufacturerID with a dummy byte that is not zero (93_implementation_defined.md U17). -/
  | nonZeroDummy
  /-- A page_program command whose LEN is not the length of its TXDATA (10_state.md R24). -/
  | lengthMismatch
  deriving DecidableEq, Repr

end Sys2Proof
end

