-- ==== Sys2Proof/Machine/State.lean ====
section
/-! DEFINITION. The state of the block and of its environment (10_state.md; 46_device_response.md R221), as plain
data: what the sequencer keeps, its working state, the attached flash device, and the answers the other agents of
00_scope.md R4 are going to give. -/

namespace Sys2Proof.Machine

/-! ### The sequencer -/

/-- PHASE (10_state.md R22): the position in the current operation, "this block's program counter". -/
inductive Phase where
  | idle
  | check
  | wren
  | action
  | poll
  | sleeping
  | xfer
  | rstArm
  | rstExec
  | done
  deriving DecidableEq, Repr

/-- Whether a handle is held by the sequencer or has been given back (10_state.md R41; 70_reset_and_hazards.md R302). -/
inductive Handle where
  | held
  | released
  deriving DecidableEq, Repr

/-- A value for each class of mutating operation (00_scope.md R12, R13). -/
structure PerClass where
  pp : Nat
  se : Nat
  ce : Nat
  deriving DecidableEq, Repr

/-- RESULT (10_state.md R27): the outcome of an operation (60_exceptions.md R260). -/
inductive Result where
  | ok (payload : List Byte)
  | busError (e : BusErr)
  | invalidLength
  | timeout
  deriving DecidableEq, Repr

/-! ### Events -/

/-- The step of a transaction that failed (10_state.md R36): `begin`, `write`, `read`, and `finish` for the spec's
`end`. -/
inductive Stage where
  | begin
  | write
  | read
  | finish
  deriving DecidableEq, Repr

/-- One event of the trace (10_state.md R36). -/
inductive Event where
  | txn (tx rx : List Byte)
  | txnFail (stage : Stage) (e : BusErr)
  | sleep (us : Nat)
  | rsp (r : Result)
  deriving DecidableEq, Repr

/-- One call of the bus collaborator (40_wire_commands.md R120): BusBegin, BusWrite, BusRead, BusEnd. -/
inductive BusCall where
  | begin
  | write (tx : List Byte)
  | read (n : Nat)
  | finish
  deriving DecidableEq, Repr

/-! ### The environment's answers -/

/-- The bus's answer to one call (40_wire_commands.md R120; 10_state.md R37: "any byte, any failure, at any call"). -/
inductive BusAnswer where
  /-- The call succeeds; a BusRead delivers what the attached device answers. -/
  | ok
  /-- The call succeeds; a BusRead delivers these bytes (a scripted bus, 46_device_response.md R246). -/
  | data (bytes : List Byte)
  /-- The call fails with the transport's error value. -/
  | err (e : BusErr)
  /-- The call never returns (93_implementation_defined.md U16). -/
  | hang
  deriving DecidableEq, Repr

/-- The delay collaborator's answer to one Sleep (60_exceptions.md R287; U16). -/
inductive SleepAnswer where
  | returns
  | hang
  deriving DecidableEq, Repr

/-- What the host does next at the host port (30_encoding.md R103; 70_reset_and_hazards.md R302). -/
inductive HostInput where
  | command (c : HostCommand)
  | release
  deriving DecidableEq, Repr

/-! ### The flash device -/

/-- The flash array (10_state.md R33) as a list of (address, byte) pairs, addresses strictly rising; an unlisted
address reads as the device's erased byte (log entry 6). -/
abbrev Memory := List Host.Cell

/-- Consecutive array addresses: `len` of them from `lo` on. -/
structure Range where
  lo  : Nat
  len : Nat
  deriving DecidableEq, Repr

/-- A pending program or erase cycle (10_state.md R34). -/
inductive Cycle where
  | program (a : Addr) (data : List Byte)
  | sectorErase (a : Addr)
  | chipErase
  /-- A cycle the spec leaves unknown but for the addresses it may change (93_implementation_defined.md U2, U4). -/
  | indeterminate (ranges : List Range)
  deriving DecidableEq, Repr

/-- The attached flash device (46_device_response.md R221), its identification constants (10_state.md R40) and its
geometry (00_scope.md R17). -/
@[ext]
structure Device where
  /-- StatusRegister bit 0 (10_state.md R29). -/
  busy       : Bool
  /-- StatusRegister bit 1 (10_state.md R30). -/
  wel        : Bool
  /-- What StatusRegister bits 7:2 read as next; drawn freely again at each read (10_state.md R31; R225). -/
  statusHigh : BitVec 6
  /-- The flash array (10_state.md R33). -/
  mem        : Memory
  /-- The pending cycle (10_state.md R34). -/
  pending    : Option Cycle
  /-- The reset-armed flag (10_state.md R35). -/
  rstArmed   : Bool
  mfrId      : Byte
  devId      : Byte
  memType    : Byte
  capId      : Byte
  /-- CAPACITY: bytes in the array, "≤ 2^24" (R17); read through `Device.capacity`. -/
  extent     : Fin 16777217
  /-- SECTOR_SIZE is `2 ^ sectorBits`: "a power of two" (R17). -/
  sectorBits : Nat
  /-- ERASED_BYTE: what an erased byte reads as. -/
  erasedByte : Byte
  deriving DecidableEq, Repr

/-- CAPACITY (00_scope.md R17) as a natural number. -/
abbrev Device.capacity (d : Device) : Nat := d.extent.val

/-! ### The whole state -/

/-- The state of the machine. -/
@[ext]
structure State where
  /-- The bus handle (10_state.md R20, R41). -/
  busHandle   : Handle
  /-- The delay handle (10_state.md R20). -/
  delayHandle : Handle
  /-- MAX_POLLS[c] (10_state.md R32). -/
  maxPolls    : PerClass
  /-- POLL_DELAY_US[c] (10_state.md R32). -/
  pollDelay   : PerClass
  /-- PHASE (10_state.md R22). -/
  phase       : Phase
  /-- The operand latch OP (10_state.md R23). -/
  op          : HostOp
  /-- The operand latch ADDR (10_state.md R23). -/
  addr        : Addr
  /-- The operand latch LEN (10_state.md R23). -/
  len         : Nat
  /-- TXDATA (10_state.md R24). -/
  txData      : List Byte
  /-- RXDATA, the caller's buffer (10_state.md R24). -/
  rxData      : List Byte
  /-- POLLCNT (10_state.md R25). -/
  pollCnt     : Nat
  /-- STATUS (10_state.md R26). -/
  status      : Byte
  /-- RESULT (10_state.md R27). -/
  result      : Result
  /-- The attached flash device. -/
  dev         : Device
  /-- Chip-select is asserted (60_exceptions.md R286). -/
  chipSelect  : Bool
  /-- The host's inputs, the next one first: an unaccepted command waits here (30_encoding.md R103). -/
  port        : List HostInput
  /-- The bus's answers to its next calls; a call past the end of the list succeeds (log entry 4). -/
  busScript   : List BusAnswer
  /-- The delay's answers to its next calls; a call past the end of the list returns (log entry 4). -/
  sleepScript : List SleepAnswer
  /-- The device's schedule: whether it takes its Complete step at each opportunity while BUSY = 1
  (46_device_response.md R239, R240). -/
  schedule    : List Bool
  /-- What the device does at every opportunity past the end of `schedule`: with `false` "busy never clears" (R240; log
  entry 5). -/
  scheduleEnd : Bool
  /-- The trace, oldest event first (10_state.md R36). -/
  trace       : List Event
  /-- The bus calls made, oldest first: what a transaction-counting bus records (46_device_response.md R246). -/
  calls       : List BusCall
  /-- The phases entered, oldest first (the paths of 10_state.md R22). -/
  path        : List Phase
  /-- The number of free draws taken so far: the argument of the free values of Config. -/
  draws       : Nat
  deriving DecidableEq, Repr

/-! ### How a step can stop -/

/-- Faults: the machine is stuck. -/
inductive Fault where
  /-- A bus call never returns: "a hang" (41_subprotocols.md R162; U16). Raised by every transaction. Safe. -/
  | busHang
  /-- A Sleep never returns (U16). Raised by the busy-wait of the mutating operations. Safe. -/
  | sleepHang
  /-- MAX_POLLS[c] is 0, which 00_scope.md R12 excludes: no poll bound is ever met. Raised by the busy-wait of the
  mutating operations. Safe. -/
  | pollBoundZero
  deriving DecidableEq, Repr

/-- Refusals: the spec gives no meaning. -/
inductive Refusal where
  /-- The instruction has no meaning in the model yet. Safe. -/
  | notModelled (mnemonic : String)
  /-- The sequencer has been released and "ends its existence" (70_reset_and_hazards.md R302). Raised by every
  instruction. Safe. -/
  | handleReleased
  /-- The host presents a page_program whose LEN is not the length of its TXDATA (10_state.md R24). Raised by the
  acceptance of a command. Safe. -/
  | portMalformed (why : DecodeError)
  /-- The device receives a frame that is none of the ten wire commands (46_device_response.md R245). Raised by a wire
  PageProgram of more than 256 bytes, which is not well formed. Safe. -/
  | frameUnknown
  /-- PHASE and OP name no step of any operation's path (10_state.md R22). Raised by step, in states no run reaches.
  Safe. -/
  | phaseOffPath
  deriving DecidableEq, Repr

/-! ### Reset -/

/-- The device at power-on: "latch cleared, no operation in progress" (10_state.md R42). Identification and geometry
are the sample device of 95_test_vectors.md (log entry 7), the array lists nothing (log entry 6). -/
def Device.reset : Device where
  busy := false
  wel := false
  statusHigh := 0#6
  mem := []
  pending := none
  rstArmed := false
  mfrId := 0xEF#8
  devId := 0x17#8
  memType := 0x40#8
  capId := 0x18#8
  extent := ⟨16777216, by decide⟩
  sectorBits := 12
  erasedByte := 0xFF#8

/-- The sequencer just constructed (70_reset_and_hazards.md R300, R301; 10_state.md R42) on a device just powered on,
which is a premise of the model: the sequencer does not know the device's state at construction (R306; log entry 41).
The values the spec leaves unspecified are named in log entries 1, 4, 5 and 8. -/
def State.reset : State where
  busHandle := .held
  delayHandle := .held
  maxPolls := ⟨10, 10, 10⟩
  pollDelay := ⟨1000, 1000, 1000⟩
  phase := .idle
  op := .read
  addr := 0#24
  len := 0
  txData := []
  rxData := []
  pollCnt := 0
  status := 0#8
  result := .ok []
  dev := Device.reset
  chipSelect := false
  port := []
  busScript := []
  sleepScript := []
  schedule := []
  scheduleEnd := true
  trace := []
  calls := []
  path := []
  draws := 0

end Sys2Proof.Machine
end

