-- ==== Sys2Proof/Machine/Flags.lean ====
section
/-! DEFINITION. The StatusRegister byte (10_state.md R28) and the one test the sequencer makes of it. The sequencer
itself has no flags (40_wire_commands.md R124). -/

namespace Sys2Proof.Machine

/-- The byte ReadStatus returns: bit 0 BUSY, bit 1 WEL, bits 7:2 as drawn (46_device_response.md R225). -/
def statusByte (high : BitVec 6) (wel busy : Bool) : Byte :=
  high ++ BitVec.ofBool wel ++ BitVec.ofBool busy

/-- `busy = (rx[0] & 0x01) ≠ 0` (30_encoding.md R95). -/
def isBusy (status : Byte) : Bool := status &&& 0x01#8 != 0#8

/-- `wel = (rx[0] & 0x02) ≠ 0`, "never computed by the sequencer" (30_encoding.md R95). -/
def isLatched (status : Byte) : Bool := status &&& 0x02#8 != 0#8

end Sys2Proof.Machine
end

