-- ==== Sys2Proof/Machine/Memory.lean ====
section
/-! DEFINITION. The flash array: one byte read and written, and the two range operations built from them. Every
operation keeps the canonical form (Laws/Memory.lean). -/

namespace Sys2Proof.Machine

/-- Canonical form: addresses strictly rising and inside the array, and no entry equal to `fill`, which is what an
unlisted address reads as. -/
abbrev Memory.wf (fill : Byte) (cap : Nat) (m : Memory) : Prop :=
  m.Pairwise (fun x y => x.1 < y.1) ∧ ∀ c ∈ m, c.2 ≠ fill ∧ c.1 < cap

/-- The byte at an address. -/
def Memory.read (fill : Byte) : Memory → Nat → Byte
  | [], _ => fill
  | (b, w) :: m, a => if a = b then w else Memory.read fill m a

/-- One byte written; writing `fill` removes the entry. -/
def Memory.write (fill : Byte) : Memory → Nat → Byte → Memory
  | [], a, v => if v = fill then [] else [(a, v)]
  | (b, w) :: m, a, v =>
    if a < b then (if v = fill then (b, w) :: m else (a, v) :: (b, w) :: m)
    else if a = b then (if v = fill then m else (a, v) :: m)
    else (b, w) :: Memory.write fill m a v

/-- `g a` written at each address `a` of `lo ≤ a < lo + len` that lies inside the array. -/
def Memory.update (fill : Byte) (cap : Nat) (g : Nat → Byte) (lo : Nat) : Nat → Memory → Memory
  | 0, m => m
  | len + 1, m =>
    if lo + len < cap then Memory.write fill (Memory.update fill cap g lo len m) (lo + len) (g (lo + len))
    else Memory.update fill cap g lo len m

/-- Each address of `lo ≤ a < lo + len` erased: its entry is removed. -/
def Memory.erase (lo len : Nat) (m : Memory) : Memory :=
  m.filter (fun c => !(decide (lo ≤ c.1) && decide (c.1 < lo + len)))

end Sys2Proof.Machine
end

