-- ==== Sys2Proof/Config.lean ====
section
/-! DEFINITION. What is fixed for every run: the two constants the spec gives, and the free values, opaque constants
without a body for everything the spec treats as "any value" (93_implementation_defined.md, part 1). Each free value
takes the number of the draw, `State.draws`, which grows with every use, so two draws are never tied together. -/

namespace Sys2Proof

/-- `PAGE_SIZE` (00_scope.md R11): the literal 256 of the length check. -/
def Config.pageSize : Nat := 256

/-- `DUMMY` (00_scope.md R14): the value of each dummy byte of ReadManufacturerID. -/
def Config.dummy : Byte := 0x00#8

/-- Free value: array byte at an address whose content the spec leaves open (U1, U2, U3, U4, U5, U9, U11, U13). -/
opaque Config.freeByte (draw address : Nat) : Byte

/-- Free value: byte at a position of a received list the spec leaves open (U2, U3). -/
opaque Config.freeRx (draw position : Nat) : Byte

/-- Free value: byte of the caller's buffer after a failed read (U7; 60_exceptions.md R268). -/
opaque Config.freeBuffer (draw position : Nat) : Byte

/-- Free value: StatusRegister bits 7:2 of one status read (U6; 10_state.md R31). -/
opaque Config.freeStatusBits (draw : Nat) : BitVec 6

/-- Free value: the latch where the spec leaves it unspecified (U2, U4, U5). -/
opaque Config.freeWel (draw : Nat) : Bool

/-- Free value: BUSY where the spec leaves it unspecified (U2, U4, U5). -/
opaque Config.freeBusy (draw : Nat) : Bool

/-- Free value: the reset-armed flag where the spec leaves it open (U12; 10_state.md R35). -/
opaque Config.freeArmed (draw : Nat) : Bool

/-- Free value: whether the device took the Reset frame of a failed transaction (U13; 46_device_response.md R243). -/
opaque Config.freeTaken (draw : Nat) : Bool

/-- Free value: chip-select after a failed BusEnd (U23). -/
opaque Config.freeSelect (draw : Nat) : Bool

/-- Free value: `ProgramCombine(old, new)` over a byte that is not erased (U10; 46_device_response.md R230). -/
opaque Config.programOver (old new : Byte) : Byte

end Sys2Proof
end

