-- ==== Sys2Proof/WellFormed.lean ====
section
/-! DEFINITION. Which instructions have an encoding. -/

namespace Sys2Proof

/-- The one bound on operands: a PageProgram frame carries at most 256 data bytes (30_encoding.md R91, format WAW;
40_wire_commands.md R128). The host operation page_program takes any length, since an over-long one must be
presentable in order to be refused (00_scope.md R15), and a read length is unbounded (log entry 3). -/
def Instr.wellFormed : Instr → Bool
  | .pageProgram _ data => decide (data.length ≤ Config.pageSize)
  | .writeEnable => true
  | .readStatus => true
  | .read _ _ => true
  | .sectorErase _ => true
  | .chipErase => true
  | .enableReset => true
  | .reset => true
  | .readManufacturerId => true
  | .readJedecId => true
  | .opRead _ _ => true
  | .opPageProgram _ _ => true
  | .opSectorErase _ => true
  | .opChipErase => true
  | .opSoftwareReset => true
  | .opWriteEnable => true
  | .opReadManufacturerId => true
  | .opReadJedecId => true

end Sys2Proof
end

