-- ==== Sys2Proof/Decode.lean ====
section
/-! DEFINITION. The decoder and the encoder of both encodings of 30_encoding.md: the wire frames (sections 1 to 5) and
the host port commands (section 7). Decoding is total and rejects by name. -/

namespace Sys2Proof

/-! ### Address framing -/

/-- `addr3(A) = [A[23:16], A[15:8], A[7:0]]`, most significant byte first (30_encoding.md R93; 20_memory.md R60). -/
def addr3 (a : Addr) : List Byte :=
  [a.extractLsb' 16 8, a.extractLsb' 8 8, a.extractLsb' 0 8]

/-- The inverse of `addr3`, used by the device: `A = (b1 << 16) | (b2 << 8) | b3` (R93; 46_device_response.md R222). -/
def addrOf (b1 b2 b3 : Byte) : Addr := b1 ++ b2 ++ b3

/-! ### The wire opcode table -/

/-- The ten opcodes in the order of the table (30_encoding.md R96). -/
def wireOpcodes : List Byte :=
  [0x06#8, 0x05#8, 0x03#8, 0x02#8, 0x20#8, 0xC7#8, 0x66#8, 0x99#8, 0x90#8, 0x9F#8]

/-- A frame of an opcode alone that receives `k` bytes: formats W0 (`k = 0`) and W0R (30_encoding.md R91). -/
def decodeBare (op : Byte) (i : Instr) (k : Nat) (args : List Byte) (n : Nat) : Except DecodeError Instr :=
  if args = [] ∧ n = k then .ok i else .error (.frameLength op)

/-- Format WAR: three address bytes, then `n` bytes received (30_encoding.md R91). -/
def decodeRead (args : List Byte) (n : Nat) : Except DecodeError Instr :=
  match args with
  | [b1, b2, b3] => .ok (.read (addrOf b1 b2 b3) n)
  | _ => .error (.frameLength 0x03#8)

/-- Format WAW: three address bytes, then at most 256 data bytes, nothing received (30_encoding.md R91). -/
def decodePageProgram (args : List Byte) (n : Nat) : Except DecodeError Instr :=
  match args with
  | b1 :: b2 :: b3 :: data =>
    if n ≠ 0 then .error (.frameLength 0x02#8)
    else if data.length ≤ Config.pageSize then .ok (.pageProgram (addrOf b1 b2 b3) data)
    else .error (.payloadTooLong data.length)
  | _ => .error (.frameLength 0x02#8)

/-- Format WA: three address bytes, nothing received (30_encoding.md R91). -/
def decodeSectorErase (args : List Byte) (n : Nat) : Except DecodeError Instr :=
  match args with
  | [b1, b2, b3] => if n = 0 then .ok (.sectorErase (addrOf b1 b2 b3)) else .error (.frameLength 0x20#8)
  | _ => .error (.frameLength 0x20#8)

/-- Format WDR: three dummy bytes, two bytes received (30_encoding.md R91, R94). A dummy that is not zero has no
meaning (46_device_response.md R237). -/
def decodeReadManufacturerId (args : List Byte) (n : Nat) : Except DecodeError Instr :=
  match args with
  | [b1, b2, b3] =>
    if n ≠ 2 then .error (.frameLength 0x90#8)
    else if b1 = Config.dummy ∧ b2 = Config.dummy ∧ b3 = Config.dummy then .ok .readManufacturerId
    else .error .nonZeroDummy
  | _ => .error (.frameLength 0x90#8)

/-- The wire decoder: byte 0 selects the command under mask 0xFF (30_encoding.md R92, R96), the rest must have the
length of R99. -/
def decodeFrame (tx : List Byte) (n : Nat) : Except DecodeError Instr :=
  match tx with
  | [] => .error .emptyFrame
  | op :: args =>
    if op = 0x06#8 then decodeBare op .writeEnable 0 args n
    else if op = 0x05#8 then decodeBare op .readStatus 1 args n
    else if op = 0x03#8 then decodeRead args n
    else if op = 0x02#8 then decodePageProgram args n
    else if op = 0x20#8 then decodeSectorErase args n
    else if op = 0xC7#8 then decodeBare op .chipErase 0 args n
    else if op = 0x66#8 then decodeBare op .enableReset 0 args n
    else if op = 0x99#8 then decodeBare op .reset 0 args n
    else if op = 0x90#8 then decodeReadManufacturerId args n
    else if op = 0x9F#8 then decodeBare op .readJedecId 3 args n
    else .error (.unknownOpcode op)

/-! ### The host port -/

/-- The host command codes (30_encoding.md R105). -/
def HostOp.code : HostOp → BitVec 3
  | .read => 0#3
  | .pageProgram => 1#3
  | .sectorErase => 2#3
  | .chipErase => 3#3
  | .softwareReset => 4#3
  | .writeEnable => 5#3
  | .readManufacturerId => 6#3
  | .readJedecId => 7#3

/-- The operation of a code. "All eight codes are used" (R105), so it is total. -/
def HostOp.ofCode (c : BitVec 3) : HostOp :=
  if c = 0#3 then .read
  else if c = 1#3 then .pageProgram
  else if c = 2#3 then .sectorErase
  else if c = 3#3 then .chipErase
  else if c = 4#3 then .softwareReset
  else if c = 5#3 then .writeEnable
  else if c = 6#3 then .readManufacturerId
  else .readJedecId

/-- The port decoder. An operand marked "-" in 30_encoding.md R104 "is ignored"; page_program needs `LEN` to be the
length of `TXDATA` (10_state.md R24). -/
def decodeCommand (c : HostCommand) : Except DecodeError Instr :=
  match HostOp.ofCode c.op with
  | .read => .ok (.opRead c.addr c.len)
  | .pageProgram =>
    if c.len = c.txData.length then .ok (.opPageProgram c.addr c.txData) else .error .lengthMismatch
  | .sectorErase => .ok (.opSectorErase c.addr)
  | .chipErase => .ok .opChipErase
  | .softwareReset => .ok .opSoftwareReset
  | .writeEnable => .ok .opWriteEnable
  | .readManufacturerId => .ok .opReadManufacturerId
  | .readJedecId => .ok .opReadJedecId

/-- The decoder of either encoding. -/
def decode : Encoded → Except DecodeError Instr
  | .frame tx n => decodeFrame tx n
  | .command c => decodeCommand c

/-! ### The encoder -/

/-- The encoding of each instruction: the frames of 40_wire_commands.md R125 to R134 and the port tuples of
30_encoding.md R105 with the operands that R104 marks "-" at zero. -/
def encode : Instr → Encoded
  | .writeEnable => .frame [0x06#8] 0
  | .readStatus => .frame [0x05#8] 1
  | .read a n => .frame (0x03#8 :: addr3 a) n
  | .pageProgram a data => .frame (0x02#8 :: (addr3 a ++ data)) 0
  | .sectorErase a => .frame (0x20#8 :: addr3 a) 0
  | .chipErase => .frame [0xC7#8] 0
  | .enableReset => .frame [0x66#8] 0
  | .reset => .frame [0x99#8] 0
  | .readManufacturerId => .frame [0x90#8, Config.dummy, Config.dummy, Config.dummy] 2
  | .readJedecId => .frame [0x9F#8] 3
  | .opRead a n => .command ⟨HostOp.code .read, a, n, []⟩
  | .opPageProgram a data => .command ⟨HostOp.code .pageProgram, a, data.length, data⟩
  | .opSectorErase a => .command ⟨HostOp.code .sectorErase, a, 0, []⟩
  | .opChipErase => .command ⟨HostOp.code .chipErase, 0, 0, []⟩
  | .opSoftwareReset => .command ⟨HostOp.code .softwareReset, 0, 0, []⟩
  | .opWriteEnable => .command ⟨HostOp.code .writeEnable, 0, 0, []⟩
  | .opReadManufacturerId => .command ⟨HostOp.code .readManufacturerId, 0, 0, []⟩
  | .opReadJedecId => .command ⟨HostOp.code .readJedecId, 0, 0, []⟩

/-! ### The opcode table's own numbering -/

/-- How many bytes follow an opcode in its shortest frame: the "Address bytes" column of 30_encoding.md R96. -/
def operandBytes (op : Byte) : Nat :=
  if op = 0x03#8 ∨ op = 0x02#8 ∨ op = 0x20#8 ∨ op = 0x90#8 then 3 else 0

/-- The number of bytes received in the shortest transaction of an opcode (the "Payload" column of R96, `N = 0`). -/
def receivedBytes (op : Byte) : Nat :=
  if op = 0x05#8 then 1 else if op = 0x90#8 then 2 else if op = 0x9F#8 then 3 else 0

/-- The `count` bytes of `w` from byte `at` on, byte 0 the least significant (the opcode table's numbering). -/
def tableBytes (w : Nat) : (at_ count : Nat) → List Byte
  | _, 0 => []
  | at_, count + 1 => BitVec.ofNat 8 (w / 256 ^ at_) :: tableBytes w (at_ + 1) count

/-- The wire command whose frame begins with the bytes of `w`. -/
def decodeTableFrame (w : Nat) : Option Instr :=
  let op : Byte := BitVec.ofNat 8 w
  (decodeFrame (op :: tableBytes w 1 (operandBytes op)) (receivedBytes op)).toOption

/-- The host operation whose code is `w`, all operands zero. -/
def decodeTableCode (w : Nat) : Option Instr :=
  if w < 8 then (decodeCommand ⟨BitVec.ofNat 3 w, 0, 0, []⟩).toOption else none

/-- The decoder on a row of the opcode table. A word of fewer than 8 bits is a host code; a word of 8 bits or more is
a wire frame where its first byte is an opcode, else a host code. The table's two encodings overlap on the bytes 2, 3,
5 and 6 when a 3-bit code is widened to a byte, and there the wire opcode is taken (log entry 24). -/
def decodeTableWord (nbits w : Nat) : Option Instr :=
  if nbits < 8 then decodeTableCode w
  else match decodeTableFrame w with
    | some i => some i
    | none => decodeTableCode w

end Sys2Proof
end

