-- ==== Sys2Proof/Machine/Operands.lean ====
section
/-! DEFINITION. Operands and results: the poll parameters of a class, the class of an operation, the response codes,
and the assembly of received bytes. -/

namespace Sys2Proof.Machine

/-- The value for a class (00_scope.md R12, R13). -/
def PerClass.get (p : PerClass) : PollClass → Nat
  | .pp => p.pp
  | .se => p.se
  | .ce => p.ce

/-- The class of a mutating operation; the other five never poll (43_program_erase.md R180, R185, R190). -/
def pollClass : HostOp → Option PollClass
  | .pageProgram => some .pp
  | .sectorErase => some .se
  | .chipErase => some .ce
  | .read => none
  | .softwareReset => none
  | .writeEnable => none
  | .readManufacturerId => none
  | .readJedecId => none

/-- The 2-bit response code (30_encoding.md R106). -/
def responseCode : Result → BitVec 2
  | .ok _ => 0#2
  | .busError _ => 1#2
  | .invalidLength => 2#2
  | .timeout => 3#2

/-- What an operation returns with `Ok`: the received bytes for read and the two identification reads, nothing for the
rest (30_encoding.md R104, column "returns"). -/
def okPayload : HostOp → List Byte → List Byte
  | .read, rx => rx
  | .readManufacturerId, rx => rx
  | .readJedecId, rx => rx
  | .pageProgram, _ => []
  | .sectorErase, _ => []
  | .chipErase, _ => []
  | .softwareReset, _ => []
  | .writeEnable, _ => []

/-- A list of `n` bytes with the byte `f i` at position `i`. -/
def bytesFrom (f : Nat → Byte) (n : Nat) : List Byte := (List.range n).map f

/-- The `n` bytes a BusRead delivers (40_wire_commands.md R121: `len(rx) = n`): the device's, or the bus's own, where
positions it names no byte for are free. -/
def deliver (answer : BusAnswer) (fromDevice : List Byte) (n draw : Nat) : List Byte :=
  match answer with
  | .data bytes => bytesFrom (fun i => bytes.getD i (Config.freeRx draw i)) n
  | .ok => fromDevice
  | .err _ => fromDevice
  | .hang => fromDevice

end Sys2Proof.Machine
end

