-- ==== Sys2Proof/Machine/Device.lean ====
section
/-! DEFINITION. The attached flash device (46_device_response.md). Where the spec has "any value" the device takes free
values, so nothing marked [G] there is relied on but what log entries 9 to 12 name. The argument `k` is the number of
the draw. -/

namespace Sys2Proof.Machine

/-! ### Addresses a command concerns -/

/-- All of the array. -/
def Device.whole (d : Device) : Range := ⟨0, d.capacity⟩

/-- `SECTOR_SIZE` (00_scope.md R17). -/
def Device.sectorSize (d : Device) : Nat := 2 ^ d.sectorBits

/-- `base = A - (A mod SECTOR_SIZE)` (46_device_response.md R232; 20_memory.md R65). -/
def Device.sectorBase (d : Device) (a : Addr) : Nat := a.toNat - a.toNat % d.sectorSize

/-- The effect of a program of `len` bytes at `a` is settled: inside the array and inside one page (20_memory.md R66,
R67). -/
def Device.programSettled (d : Device) (a : Addr) (len : Nat) : Bool :=
  decide (a.toNat + len ≤ d.capacity) && decide (a.toNat % Config.pageSize + len ≤ Config.pageSize)

/-- The effect of an erase of the sector of `a` is settled: inside the array (20_memory.md R67). -/
def Device.eraseSettled (d : Device) (a : Addr) : Bool :=
  decide (d.sectorBase a + d.sectorSize ≤ d.capacity)

/-- The array addresses a cycle concerns: the target range; the two pages of a program across a page boundary (U9);
the whole array for an access past its end (U3). -/
def Device.footprint (d : Device) : Cycle → List Range
  | .program a data =>
    if data = [] then []
    else if d.capacity < a.toNat + data.length then [d.whole]
    else if Config.pageSize < a.toNat % Config.pageSize + data.length then
      [⟨a.toNat - a.toNat % Config.pageSize, 2 * Config.pageSize⟩]
    else [⟨a.toNat, data.length⟩]
  | .sectorErase a => if d.eraseSettled a then [⟨d.sectorBase a, d.sectorSize⟩] else [d.whole]
  | .chipErase => [d.whole]
  | .indeterminate ranges => ranges

/-- The footprint of the pending cycle, if there is one. -/
def Device.pendingFootprint (d : Device) : List Range :=
  match d.pending with
  | some c => d.footprint c
  | none => []

/-- The array with every byte of the ranges at a free value. -/
def Device.scramble (d : Device) (k : Nat) (ranges : List Range) : Memory :=
  ranges.foldl (fun m r => Memory.update d.erasedByte d.capacity (Config.freeByte k) r.lo r.len m) d.mem

/-! ### Unknown states -/

/-- Any device state within what a device can hold: array, BUSY, WEL, pending cycle and reset-armed flag are free
(46_device_response.md R229; D18). -/
def Device.anything (d : Device) (k : Nat) : Device :=
  { d with
    mem := d.scramble k [d.whole]
    busy := Config.freeBusy k
    pending := if Config.freeBusy k then some (.indeterminate [d.whole]) else none
    wel := Config.freeWel k
    rstArmed := Config.freeArmed k }

/-- A frame other than EnableReset and Reset: it may disarm an armed reset (46_device_response.md R236; log entry
11). -/
def Device.disarm (d : Device) (k : Nat) : Device :=
  { d with rstArmed := d.rstArmed && Config.freeArmed k }

/-- After a failed transaction of a mutating sequence: BUSY and WEL are free and the array is free on `ranges` and on
the range of the cycle that was pending (10_state.md R38; U4). -/
def Device.unsettle (d : Device) (k : Nat) (ranges : List Range) : Device :=
  { d with
    mem := d.scramble k (d.pendingFootprint ++ ranges)
    busy := Config.freeBusy k
    pending := if Config.freeBusy k then some (.indeterminate (d.pendingFootprint ++ ranges)) else none
    wel := Config.freeWel k }

/-- After a Timeout: BUSY and WEL are free (10_state.md R38; U5). BUSY = 1 goes with the pending cycle, or, on a device
that has none, with one of which only the target range is known; with BUSY = 0 the array is free on the target range
and on the pending cycle's (log entry 15). -/
def Device.unresolve (d : Device) (k : Nat) (target : List Range) : Device :=
  if Config.freeBusy k then
    { d with
      busy := true
      pending := some (d.pending.getD (.indeterminate target))
      wel := Config.freeWel k }
  else
    { d with
      mem := d.scramble k (d.pendingFootprint ++ target)
      busy := false
      pending := none
      wel := Config.freeWel k }

/-! ### The Complete step -/

/-- `ProgramCombine(old, new)` (46_device_response.md R230): the new byte over an erased one, which is what the round
trip fixes, and a free value over any other. -/
def Device.programCombine (d : Device) (old new : Byte) : Byte :=
  if old = d.erasedByte then new else Config.programOver old new

/-- The array after a cycle (46_device_response.md R230, R232, R234). -/
def Device.cycleResult (d : Device) (k : Nat) : Cycle → Memory
  | .program a data =>
    if d.programSettled a data.length then
      Memory.update d.erasedByte d.capacity
        (fun x => d.programCombine (Memory.read d.erasedByte d.mem x) (data.getD (x - a.toNat) 0#8))
        a.toNat data.length d.mem
    else d.scramble k (d.footprint (.program a data))
  | .sectorErase a =>
    if d.eraseSettled a then Memory.erase (d.sectorBase a) d.sectorSize d.mem
    else d.scramble k (d.footprint (.sectorErase a))
  | .chipErase => Memory.erase 0 d.capacity d.mem
  | .indeterminate ranges => d.scramble k ranges

/-- The Complete step (46_device_response.md R239): the pending cycle's update, "then `BUSY <- 0` and `WEL <- 0`
together". -/
def Device.complete (d : Device) (k : Nat) : Device :=
  { d with
    mem := match d.pending with
      | some c => d.cycleResult k c
      | none => d.mem
    busy := false
    wel := false
    pending := none }

/-! ### The Receive step -/

/-- The bytes of a Read of `n` at `a` (46_device_response.md R226): `mem[A + i]` inside the array, free past its end. -/
def Device.readBytes (d : Device) (k : Nat) (a : Addr) (n : Nat) : List Byte :=
  bytesFrom (fun i =>
    if a.toNat + i < d.capacity then Memory.read d.erasedByte d.mem (a.toNat + i) else Config.freeRx k i) n

/-- A reset taken by the device: the power-on default state; the array is kept but for the bytes the interrupted cycle
was changing, which are free (46_device_response.md R236; U11). -/
def Device.powerOn (d : Device) (k : Nat) : Device :=
  { d with
    mem := d.scramble k d.pendingFootprint
    busy := false
    wel := false
    pending := none
    rstArmed := false }

/-- A Reset frame: the pair's second half, or a lone Reset, after which the device is in any state (46_device_response.md
R236; U12; log entry 11). -/
def Device.takeReset (d : Device) (k : Nat) : Device :=
  if d.rstArmed then d.powerOn k else d.anything k

/-- A program or erase frame: accepted only with WEL = 1 (46_device_response.md R223); without it the target range is
free (R224; U1); on a busy device everything is free (R229; U2). -/
def Device.takeAction (d : Device) (k : Nat) (c : Cycle) : Device :=
  if d.busy then d.anything k
  else if d.wel then { d.disarm k with busy := true, pending := some c }
  else { d.disarm k with mem := d.scramble k (d.footprint c) }

/-- A WriteEnable frame (46_device_response.md R227): where WEL is 1 already "nothing changes at all", so a second one
in a row leaves the device as the first did (44_reset_write_enable.md R207). -/
def Device.takeWriteEnable (d : Device) (k : Nat) : Device :=
  if d.busy then d.anything k else if d.wel then d else { d.disarm k with wel := true }

/-- A ReadStatus frame: no change but the fresh draw of bits 7:2 (46_device_response.md R225). -/
def Device.takeReadStatus (d : Device) (k : Nat) : Device :=
  { d.disarm k with statusHigh := Config.freeStatusBits k }

/-- A Read or identification frame changes nothing on an idle device (20_memory.md R71). -/
def Device.takeRead (d : Device) (k : Nat) : Device :=
  if d.busy then d.anything k else d.disarm k

/-- What an idle device answers; on a busy one the bytes are free (46_device_response.md R229). -/
def Device.answer (d : Device) (k : Nat) (idleAnswer : List Byte) : List Byte :=
  if d.busy then bytesFrom (Config.freeRx k) idleAnswer.length else idleAnswer

/-- The response to a wire command: the bytes returned and the device afterwards (46_device_response.md, section 3).
A host operation is no frame. -/
def Device.respond (d : Device) (k : Nat) : Instr → Option (List Byte × Device)
  | .readStatus => some ([statusByte d.statusHigh d.wel d.busy], d.takeReadStatus k)
  | .read a n => some (d.answer k (d.readBytes k a n), d.takeRead k)
  | .writeEnable => some ([], d.takeWriteEnable k)
  | .pageProgram a data => some ([], d.takeAction k (.program a data))
  | .sectorErase a => some ([], d.takeAction k (.sectorErase a))
  | .chipErase => some ([], d.takeAction k .chipErase)
  | .enableReset => some ([], { d with rstArmed := true })
  | .reset => some ([], d.takeReset k)
  | .readManufacturerId => some (d.answer k [d.mfrId, d.devId], d.takeRead k)
  | .readJedecId => some (d.answer k [d.mfrId, d.memType, d.capId], d.takeRead k)
  | .opRead _ _ => none
  | .opPageProgram _ _ => none
  | .opSectorErase _ => none
  | .opChipErase => none
  | .opSoftwareReset => none
  | .opWriteEnable => none
  | .opReadManufacturerId => none
  | .opReadJedecId => none

/-- The Receive step (46_device_response.md R220): the device decodes the frame by its first byte (R222) and responds;
`none` where it refuses the frame (R245). -/
def Device.receive (d : Device) (k : Nat) (tx : List Byte) (n : Nat) : Option (List Byte × Device) :=
  match decodeFrame tx n with
  | .ok i => d.respond k i
  | .error _ => none

/-! ### After a failed transaction -/

/-- The device after a program or erase frame, or a WriteEnable, of which it may have taken any part. -/
def Device.maybeMutated (d : Device) (k : Nat) (ranges : List Range) : Device :=
  if d.busy then d.anything k else (d.disarm k).unsettle k ranges

/-- The device after a transaction with command `i` that failed once it had begun: it may have taken none, part or all
of the frame (40_wire_commands.md R123; 46_device_response.md R243; 10_state.md R38). `target` is the target range of the
operation under way. DESIGN CHOICE (log entry 16): after an EnableReset, and after a Reset that was not taken, the
reset-armed flag is free, whether or not it was set before. -/
def Device.afterPartial (d : Device) (k : Nat) (target : List Range) : Instr → Device
  | .readStatus => (d.disarm k).unsettle k target
  | .writeEnable => d.maybeMutated k target
  | .pageProgram a data => d.maybeMutated k (d.footprint (.program a data))
  | .sectorErase a => d.maybeMutated k (d.footprint (.sectorErase a))
  | .chipErase => d.maybeMutated k (d.footprint .chipErase)
  | .read _ _ => d.takeRead k
  | .readManufacturerId => d.takeRead k
  | .readJedecId => d.takeRead k
  | .enableReset => { d with rstArmed := Config.freeArmed k }
  | .reset => if Config.freeTaken k then d.takeReset k else { d with rstArmed := Config.freeArmed k }
  | .opRead _ _ => d.anything k
  | .opPageProgram _ _ => d.anything k
  | .opSectorErase _ => d.anything k
  | .opChipErase => d.anything k
  | .opSoftwareReset => d.anything k
  | .opWriteEnable => d.anything k
  | .opReadManufacturerId => d.anything k
  | .opReadJedecId => d.anything k

/-- The device after a transaction with command `i` whose BusBegin failed: "nothing was sent" (40_wire_commands.md
R122), yet after a failed WriteEnable, action or ReadStatus transaction BUSY, WEL and the target range are any value,
whatever the stage (10_state.md R30, R38; 41_subprotocols.md R152; U4; log entry 16). -/
def Device.afterNoBegin (d : Device) (k : Nat) (target : List Range) : Instr → Device
  | .readStatus => d.unsettle k target
  | .writeEnable => d.unsettle k target
  | .pageProgram a data => d.unsettle k (d.footprint (.program a data))
  | .sectorErase a => d.unsettle k (d.footprint (.sectorErase a))
  | .chipErase => d.unsettle k (d.footprint .chipErase)
  | .read _ _ => d
  | .readManufacturerId => d
  | .readJedecId => d
  | .enableReset => d
  | .reset => d
  | .opRead _ _ => d
  | .opPageProgram _ _ => d
  | .opSectorErase _ => d
  | .opChipErase => d
  | .opSoftwareReset => d
  | .opWriteEnable => d
  | .opReadManufacturerId => d
  | .opReadJedecId => d

/-- The device after a transaction that failed at a stage, in an operation with this target range. -/
def Device.afterFailure (d : Device) (k : Nat) (target : List Range) (stage : Stage) (tx : List Byte) (n : Nat) :
    Device :=
  match decodeFrame tx n with
  | .error _ => d.anything k
  | .ok i =>
    match stage with
    | .begin => d.afterNoBegin k target i
    | .write => d.afterPartial k target i
    | .read => d.afterPartial k target i
    | .finish => d.afterPartial k target i

end Sys2Proof.Machine
end

