-- ==== Sys2Proof/Machine/Ops.lean ====
section
/-! DEFINITION. The shared operations of the sequencer: the trace, the phases, raising an error and the response that
follows it (60_exceptions.md R264), the device's turn, the bus transaction (40_wire_commands.md R121), Sleep, and the
acceptance of a host operation (30_encoding.md R103). -/

namespace Sys2Proof.Machine

/-! ### Computations that can raise or stop -/

/-- The outcome of part of an operation: it goes on with a value; it has raised an error, PHASE is DONE and RESULT
holds the error; the machine is stuck; the model refuses. -/
inductive Run (α : Type) where
  | ret (a : α) (s : State)
  | raised (s : State)
  | stuck (f : Fault)
  | refused (r : Refusal)

/-- One part, then the next where the first goes on ("no later step of its rule runs" after a raise, R264). -/
def Run.andThen {α β : Type} (m : Run α) (f : α → State → Run β) : Run β :=
  match m with
  | .ret a s => f a s
  | .raised s => .raised s
  | .stuck e => .stuck e
  | .refused e => .refused e

/-- A change of the state a raise leaves. -/
def Run.onRaise {α : Type} (m : Run α) (f : State → State) : Run α :=
  match m with
  | .ret a s => .ret a s
  | .raised s => .raised (f s)
  | .stuck e => .stuck e
  | .refused e => .refused e

/-- A part of an operation as one step of the machine: a raise is a next state. -/
def Run.outcome {α : Type} (m : Run α) : Host.Outcome State Fault Refusal :=
  match m with
  | .ret _ s => .next s
  | .raised s => .next s
  | .stuck e => .fault e
  | .refused e => .refused e

/-! ### Updates of the state -/

/-- An event appended to the trace (10_state.md R36). -/
def State.record (s : State) (e : Event) : State := { s with trace := s.trace ++ [e] }

/-- The device in a new state, one free draw having been taken. -/
def State.deviceMoves (s : State) (d : Device) : State := { s with dev := d, draws := s.draws + 1 }

/-- Chip-select as the bus drives it. -/
def State.select (s : State) (asserted : Bool) : State := { s with chipSelect := asserted }

/-- A bus call made, and its answer taken. -/
def State.logCall (s : State) (c : BusCall) : State :=
  { s with calls := s.calls ++ [c], busScript := s.busScript.tail }

/-- `PHASE <- p` (00_scope.md R18). -/
def State.enter (s : State) (p : Phase) : State := { s with phase := p, path := s.path ++ [p] }

/-! ### Raising an error, and the response -/

/-- `raise K`: "`PHASE <- DONE`; `RESULT <- K`" (60_exceptions.md R264). The response follows from DONE. -/
def State.raiseError (s : State) (k : Result) : State := { s with result := k }.enter .done

/-- The end of an operation's rule: `return Ok(payload)` (10_state.md R27). -/
def State.succeed (s : State) : State := { s with result := .ok (okPayload s.op s.rxData) }.enter .done

/-- The return to the host: one `RSP(result)`, the last event of the operation, and back to IDLE (60_exceptions.md
R264, R266). -/
def State.respond (s : State) : State := (s.record (.rsp s.result)).enter .idle

/-- The cycle the mutating operation under way is to start, from its latches (10_state.md R23, R24). -/
def State.action (s : State) : Option Cycle :=
  match s.op with
  | .pageProgram => some (.program s.addr s.txData)
  | .sectorErase => some (.sectorErase s.addr)
  | .chipErase => some .chipErase
  | .read => none
  | .softwareReset => none
  | .writeEnable => none
  | .readManufacturerId => none
  | .readJedecId => none

/-- The target range of the operation under way (10_state.md R38; U4, U5); no other operation than the mutating three
has one. -/
def State.target (s : State) : List Range :=
  match s.action with
  | some c => s.dev.footprint c
  | none => []

/-- `raise Timeout`: the device's BUSY and WEL are left unresolved, whatever status bytes the bus delivered
(60_exceptions.md R263; 41_subprotocols.md R161; 10_state.md R38). -/
def State.raiseTimeout (s : State) : State :=
  (s.deviceMoves (s.dev.unresolve s.draws s.target)).raiseError .timeout

/-! ### The device's turn -/

/-- An opportunity for the device's Complete step, before each transaction: while BUSY = 1 the schedule says whether it
is taken (46_device_response.md R220, R239, R240). -/
def State.deviceTurn (s : State) : State :=
  if s.dev.busy then
    if s.schedule.headD s.scheduleEnd then
      { s.deviceMoves (s.dev.complete s.draws) with schedule := s.schedule.tail }
    else { s with schedule := s.schedule.tail }
  else s

/-! ### The bus transaction -/

/-- One bus call: it is logged, takes the bus's next answer, and goes on, fails or never returns (40_wire_commands.md
R120). -/
def busCall {α : Type} (c : BusCall) (s : State) (failed : BusErr → State → Run α)
    (done : BusAnswer → State → Run α) : Run α :=
  match s.busScript.headD .ok with
  | .hang => .stuck .busHang
  | .err e => failed e (s.logCall c)
  | .ok => done .ok (s.logCall c)
  | .data bytes => done (.data bytes) (s.logCall c)

/-- The end of a failed transaction: `record TXNFAIL(stage, e); raise BusError(e)` (40_wire_commands.md R121). -/
def txnFail {α : Type} (tx : List Byte) (n : Nat) (stage : Stage) (e : BusErr) (s : State) : Run α :=
  .raised (((s.deviceMoves (s.dev.afterFailure s.draws s.target stage tx n)).record (.txnFail stage e)).raiseError
    (.busError e))

/-- The clean-up after a failed BusWrite or BusRead: BusEnd is called once, its result is ignored, the first error is
reported (40_wire_commands.md R122; D6). -/
def cleanUp {α : Type} (tx : List Byte) (n : Nat) (stage : Stage) (e : BusErr) (s : State) : Run α :=
  busCall .finish s
    (fun _ s => txnFail tx n stage e (s.select (Config.freeSelect s.draws)))
    (fun _ s => txnFail tx n stage e (s.select false))

/-- The BusEnd of a transaction that went well so far: on success the device's response takes effect and `TXN(tx, rx)`
is recorded; on failure chip-select is "the transport's matter" (40_wire_commands.md R121, R122). -/
def txnEnd (tx : List Byte) (n : Nat) (rx : List Byte) (after : Device) (s : State) : Run (List Byte) :=
  busCall .finish s
    (fun e s => txnFail tx n .finish e (s.select (Config.freeSelect s.draws)))
    (fun _ s => .ret rx
      (((s.select false).deviceMoves after).record (.txn tx rx)))

/-- The BusRead of a transaction: it happens only where `n > 0` (40_wire_commands.md R121). -/
def txnRead (tx : List Byte) (n : Nat) (rx : List Byte) (after : Device) (s : State) : Run (List Byte) :=
  if n = 0 then txnEnd tx n [] after s
  else
    busCall (.read n) s
      (fun e s => cleanUp tx n .read e s)
      (fun a s => txnEnd tx n (deliver a rx n s.draws) after s)

/-- `Txn(tx, n)`: one transaction (40_wire_commands.md R121), the device having had its turn. A BusBegin that fails
asserts no chip-select (R122); one left asserted by an earlier failed BusEnd is "the transport's matter" (U23). -/
def txn (tx : List Byte) (n : Nat) (s : State) : Run (List Byte) :=
  if s.busHandle = .released then .refused .handleReleased
  else
    let s := s.deviceTurn
    match s.dev.receive s.draws tx n with
    | none => .refused .frameUnknown
    | some (rx, after) =>
      busCall .begin s
        (fun e s => txnFail tx n .begin e (s.select (s.chipSelect && Config.freeSelect s.draws)))
        (fun _ s =>
          busCall (.write tx) (s.select true)
            (fun e s => cleanUp tx n .write e s)
            (fun _ s => txnRead tx n rx after s))

/-- The transaction of an instruction's own frame; a host operation has none. -/
def txnOf (i : Instr) (s : State) : Run (List Byte) :=
  match encode i with
  | .frame tx n => txn tx n s
  | .command _ => .refused .frameUnknown

/-- A transaction whose received bytes go to RXDATA; where it raises, the `n` bytes of the buffer are free
(60_exceptions.md R268). -/
def txnToBuffer (i : Instr) (n : Nat) (s : State) : Run Unit :=
  ((txnOf i s).onRaise (fun s => { s with rxData := bytesFrom (Config.freeBuffer s.draws) n })).andThen
    (fun rx s => .ret () { s with rxData := rx })

/-- A transaction that receives nothing. -/
def txnSend (i : Instr) (s : State) : Run Unit := (txnOf i s).andThen (fun _ s => .ret () s)

/-! ### Sleep -/

/-- `Sleep(POLL_DELAY_US[c])` (41_subprotocols.md R157). -/
def sleepOnce (c : PollClass) (s : State) : Run Unit :=
  if s.delayHandle = .released then .refused .handleReleased
  else
    match s.sleepScript.headD .returns with
    | .hang => .stuck .sleepHang
    | .returns => .ret () ({ s with sleepScript := s.sleepScript.tail }.record (.sleep (s.pollDelay.get c)))

/-! ### Host operations -/

/-- What follows an operation's rule: `Ok` where it went through, and in any case the response. -/
def Run.finishOperation (m : Run Unit) : Host.Outcome State Fault Refusal :=
  match m with
  | .ret _ s => .next s.succeed.respond
  | .raised s => .next s.respond
  | .stuck e => .fault e
  | .refused e => .refused e

/-- A host operation, from its acceptance to its response (30_encoding.md R103): accepted only in IDLE, its latches
loaded by `latch`, its rule `body` run to the end. In another phase the command is held off and nothing happens. -/
def operate (s : State) (latch : State → State) (body : State → Run Unit) : Host.Outcome State Fault Refusal :=
  if s.busHandle = .released then .refused .handleReleased
  else if s.phase = .idle then (body (latch s)).finishOperation
  else .next s

end Sys2Proof.Machine
end

