-- ==== Sys2Proof/Machine/Wire.lean ====
section
/-! DEFINITION. The ten wire commands (40_wire_commands.md R125 to R134), each as part of an operation (`wire…`) and as
an instruction of its own (`exec…`). -/

namespace Sys2Proof.Machine

/-- `WireWriteEnable()` (R125). -/
def wireWriteEnable (s : State) : Run Unit := txnSend .writeEnable s

/-- `WireReadStatus()`: `STATUS <- rx[0]` (R126). -/
def wireReadStatus (s : State) : Run Unit :=
  (txnOf .readStatus s).andThen (fun rx s => .ret () { s with status := rx.headD 0#8 })

/-- `WireRead(A, n)` (R127). -/
def wireRead (a : Addr) (n : Nat) (s : State) : Run Unit := txnToBuffer (.read a n) n s

/-- `WirePageProgram(A, data)` (R128). -/
def wirePageProgram (a : Addr) (data : List Byte) (s : State) : Run Unit := txnSend (.pageProgram a data) s

/-- `WireSectorErase(A)` (R129). -/
def wireSectorErase (a : Addr) (s : State) : Run Unit := txnSend (.sectorErase a) s

/-- `WireChipErase()` (R130). -/
def wireChipErase (s : State) : Run Unit := txnSend .chipErase s

/-- `WireEnableReset()` (R131). -/
def wireEnableReset (s : State) : Run Unit := txnSend .enableReset s

/-- `WireReset()` (R132). -/
def wireReset (s : State) : Run Unit := txnSend .reset s

/-- `WireReadManufacturerID()` (R133). -/
def wireReadManufacturerId (s : State) : Run Unit := txnToBuffer .readManufacturerId 2 s

/-- `WireReadJEDECID()` (R134). -/
def wireReadJedecId (s : State) : Run Unit := txnToBuffer .readJedecId 3 s

/-! ### As instructions -/

/-- WriteEnable (R125). -/
def execWriteEnable (s : State) : Host.Outcome State Fault Refusal := (wireWriteEnable s).outcome

/-- ReadStatus (R126). -/
def execReadStatus (s : State) : Host.Outcome State Fault Refusal := (wireReadStatus s).outcome

/-- Read (R127). -/
def execRead (a : Addr) (n : Nat) (s : State) : Host.Outcome State Fault Refusal := (wireRead a n s).outcome

/-- PageProgram (R128). -/
def execPageProgram (a : Addr) (data : List Byte) (s : State) : Host.Outcome State Fault Refusal :=
  (wirePageProgram a data s).outcome

/-- SectorErase (R129). -/
def execSectorErase (a : Addr) (s : State) : Host.Outcome State Fault Refusal := (wireSectorErase a s).outcome

/-- ChipErase (R130). -/
def execChipErase (s : State) : Host.Outcome State Fault Refusal := (wireChipErase s).outcome

/-- EnableReset (R131). -/
def execEnableReset (s : State) : Host.Outcome State Fault Refusal := (wireEnableReset s).outcome

/-- Reset (R132). -/
def execReset (s : State) : Host.Outcome State Fault Refusal := (wireReset s).outcome

/-- ReadManufacturerID (R133). -/
def execReadManufacturerId (s : State) : Host.Outcome State Fault Refusal := (wireReadManufacturerId s).outcome

/-- ReadJEDECID (R134). -/
def execReadJedecId (s : State) : Host.Outcome State Fault Refusal := (wireReadJedecId s).outcome

end Sys2Proof.Machine
end

