-- ==== Sys2Proof/Machine/Identification.lean ====
section
/-! DEFINITION. The identification reads (45_identification.md). -/

namespace Sys2Proof.Machine

/-- The latch and the first phase of read_manufacturer_id (45_identification.md R210). -/
def latchReadManufacturerId (s : State) : State := { s with op := .readManufacturerId }.enter .xfer

/-- read_manufacturer_id (45_identification.md R210). -/
def execOpReadManufacturerId (s : State) : Host.Outcome State Fault Refusal :=
  operate s latchReadManufacturerId wireReadManufacturerId

/-- The latch and the first phase of read_jedec_id (45_identification.md R215). -/
def latchReadJedecId (s : State) : State := { s with op := .readJedecId }.enter .xfer

/-- read_jedec_id (45_identification.md R215). -/
def execOpReadJedecId (s : State) : Host.Outcome State Fault Refusal :=
  operate s latchReadJedecId wireReadJedecId

end Sys2Proof.Machine
end

