-- ==== Sys2Proof/Machine/ProgramErase.lean ====
section
/-! DEFINITION. The write-enable sub-protocol, the busy-wait engine and the template of a mutating operation
(41_subprotocols.md), and the three operations made of them (43_program_erase.md). -/

namespace Sys2Proof.Machine

/-! ### The busy-wait engine -/

/-- Entry to the busy-wait: `POLLCNT <- 0` (41_subprotocols.md R154). -/
def State.enterPoll (s : State) : State := { s with pollCnt := 0 }.enter .poll

/-- `POLLCNT <- POLLCNT + 1` (41_subprotocols.md R154). -/
def State.countPoll (s : State) : State := { s with pollCnt := s.pollCnt + 1 }

/-- The loop of `BusyWait(c)` (41_subprotocols.md R154), with `fuel` ReadStatus transactions left at most: the loop
leaves on `POLLCNT = MAX_POLLS[c]`, so with `MAX_POLLS[c]` for `fuel` it runs dry only where that is 0 (R155; log entry
14). -/
def pollLoop (c : PollClass) : (fuel : Nat) → State → Run Unit
  | 0, _ => .stuck .pollBoundZero
  | fuel + 1, s =>
    (wireReadStatus s).andThen fun _ s =>
      let s := s.countPoll
      if isBusy s.status = false then .ret () s
      else if s.pollCnt = s.maxPolls.get c then .raised s.raiseTimeout
      else (sleepOnce c (s.enter .sleeping)).andThen fun _ s => pollLoop c fuel (s.enter .poll)

/-- `BusyWait(c)` (41_subprotocols.md R154). -/
def busyWait (c : PollClass) (s : State) : Run Unit := pollLoop c (s.maxPolls.get c) s.enterPoll

/-! ### The template -/

/-- `Mutate(c, action)`: WriteEnableStep, the action transaction, the busy-wait (41_subprotocols.md R150, R163). -/
def mutate (c : PollClass) (action : State → Run Unit) (s : State) : Run Unit :=
  (wireWriteEnable s).andThen fun _ s =>
    (action (s.enter .action)).andThen fun _ s => busyWait c s

/-! ### page_program -/

/-- The latches and the first phase of page_program (43_program_erase.md R180). -/
def latchPageProgram (a : Addr) (data : List Byte) (s : State) : State :=
  { s with op := .pageProgram, addr := a, len := data.length, txData := data }.enter .check

/-- page_program (43_program_erase.md R180): the length check first, "without touching the bus" (R181). -/
def execOpPageProgram (a : Addr) (data : List Byte) (s : State) : Host.Outcome State Fault Refusal :=
  operate s (latchPageProgram a data) fun s =>
    if Config.pageSize < data.length then .raised (s.raiseError .invalidLength)
    else mutate .pp (wirePageProgram a data) (s.enter .wren)

/-! ### sector_erase -/

/-- The latches and the first phase of sector_erase (43_program_erase.md R185). -/
def latchSectorErase (a : Addr) (s : State) : State :=
  { s with op := .sectorErase, addr := a }.enter .wren

/-- sector_erase (43_program_erase.md R185). -/
def execOpSectorErase (a : Addr) (s : State) : Host.Outcome State Fault Refusal :=
  operate s (latchSectorErase a) (mutate .se (wireSectorErase a))

/-! ### chip_erase -/

/-- The latches and the first phase of chip_erase (43_program_erase.md R190). -/
def latchChipErase (s : State) : State := { s with op := .chipErase }.enter .wren

/-- chip_erase (43_program_erase.md R190). -/
def execOpChipErase (s : State) : Host.Outcome State Fault Refusal :=
  operate s latchChipErase (mutate .ce wireChipErase)

end Sys2Proof.Machine
end

