-- ==== Sys2Proof/Machine/ReadOp.lean ====
section
/-! DEFINITION. The host operation read (42_read.md). -/

namespace Sys2Proof.Machine

/-- The latches and the first phase of read (42_read.md R170). -/
def latchRead (a : Addr) (n : Nat) (s : State) : State :=
  { s with op := .read, addr := a, len := n }.enter .xfer

/-- read: one Read transaction, its bytes in RXDATA (42_read.md R170, R171). -/
def execOpRead (a : Addr) (n : Nat) (s : State) : Host.Outcome State Fault Refusal :=
  operate s (latchRead a n) (wireRead a n)

end Sys2Proof.Machine
end

