-- ==== Sys2Proof/Machine/ResetWriteEnable.lean ====
section
/-! DEFINITION. The control operations software_reset and write_enable (44_reset_write_enable.md). -/

namespace Sys2Proof.Machine

/-- The latch and the first phase of software_reset (44_reset_write_enable.md R200). -/
def latchSoftwareReset (s : State) : State := { s with op := .softwareReset }.enter .rstArm

/-- software_reset: EnableReset, then Reset, "each as its own transaction" (44_reset_write_enable.md R200, R201). -/
def execOpSoftwareReset (s : State) : Host.Outcome State Fault Refusal :=
  operate s latchSoftwareReset fun s =>
    (wireEnableReset s).andThen fun _ s => wireReset (s.enter .rstExec)

/-- The latch and the first phase of write_enable (44_reset_write_enable.md R205). -/
def latchWriteEnable (s : State) : State := { s with op := .writeEnable }.enter .xfer

/-- write_enable: one WriteEnable transaction (44_reset_write_enable.md R205, R206). -/
def execOpWriteEnable (s : State) : Host.Outcome State Fault Refusal :=
  operate s latchWriteEnable wireWriteEnable

end Sys2Proof.Machine
end

