-- ==== Sys2Proof/Machine/Dispatch.lean ====
section
/-! DEFINITION. One arm for each constructor of Instr, each one call of its meaning. -/

namespace Sys2Proof.Machine

def exec (i : Instr) (s : State) : Host.Outcome State Fault Refusal :=
  match i with
  | .writeEnable => Sys2Proof.Machine.execWriteEnable s
  | .readStatus => Sys2Proof.Machine.execReadStatus s
  | .read a n => Sys2Proof.Machine.execRead a n s
  | .pageProgram a data => Sys2Proof.Machine.execPageProgram a data s
  | .sectorErase a => Sys2Proof.Machine.execSectorErase a s
  | .chipErase => Sys2Proof.Machine.execChipErase s
  | .enableReset => Sys2Proof.Machine.execEnableReset s
  | .reset => Sys2Proof.Machine.execReset s
  | .readManufacturerId => Sys2Proof.Machine.execReadManufacturerId s
  | .readJedecId => Sys2Proof.Machine.execReadJedecId s
  | .opRead a n => Sys2Proof.Machine.execOpRead a n s
  | .opPageProgram a data => Sys2Proof.Machine.execOpPageProgram a data s
  | .opSectorErase a => Sys2Proof.Machine.execOpSectorErase a s
  | .opChipErase => Sys2Proof.Machine.execOpChipErase s
  | .opSoftwareReset => Sys2Proof.Machine.execOpSoftwareReset s
  | .opWriteEnable => Sys2Proof.Machine.execOpWriteEnable s
  | .opReadManufacturerId => Sys2Proof.Machine.execOpReadManufacturerId s
  | .opReadJedecId => Sys2Proof.Machine.execOpReadJedecId s

end Sys2Proof.Machine
end

