-- ==== Sys2Proof/Machine/Sequencer.lean ====
section
/-! DEFINITION. The phase machine of 10_state.md R22: which wire command the sequencer issues at each PHASE, and where
PHASE goes after it. `step` runs it from every phase but IDLE; from IDLE it runs a whole operation, and that the two
agree is an obligation. -/

namespace Sys2Proof.Machine

/-- The wire command of the current phase: what "fetching an instruction" is to this block, which fetches none
(10_state.md R22; 20_memory.md R68). `none` where the phase issues no wire command, or PHASE and OP do not belong
together. -/
def wireAt (s : State) : Option Instr :=
  match s.phase, s.op with
  | .wren, .pageProgram => some .writeEnable
  | .wren, .sectorErase => some .writeEnable
  | .wren, .chipErase => some .writeEnable
  | .action, .pageProgram => some (.pageProgram s.addr s.txData)
  | .action, .sectorErase => some (.sectorErase s.addr)
  | .action, .chipErase => some .chipErase
  | .poll, .pageProgram => some .readStatus
  | .poll, .sectorErase => some .readStatus
  | .poll, .chipErase => some .readStatus
  | .xfer, .read => some (.read s.addr s.len)
  | .xfer, .writeEnable => some .writeEnable
  | .xfer, .readManufacturerId => some .readManufacturerId
  | .xfer, .readJedecId => some .readJedecId
  | .rstArm, .softwareReset => some .enableReset
  | .rstExec, .softwareReset => some .reset
  | _, _ => none

/-- After a completed poll (41_subprotocols.md R154): done, timed out, or to sleep. -/
def afterPoll (c : PollClass) (s : State) : State :=
  let s := s.countPoll
  if isBusy s.status = false then s.succeed
  else if s.pollCnt = s.maxPolls.get c then s.raiseTimeout
  else s.enter .sleeping

/-- Where PHASE goes after the wire command of a phase (10_state.md R22). A command that raised has left PHASE at DONE
and stays there. -/
def afterWire (s : State) : State :=
  match s.phase with
  | .wren => s.enter .action
  | .action => s.enterPoll
  | .poll =>
    match pollClass s.op with
    | some c => afterPoll c s
    | none => s
  | .xfer => s.succeed
  | .rstArm => s.enter .rstExec
  | .rstExec => s.succeed
  | .idle => s
  | .check => s
  | .sleeping => s
  | .done => s

/-- Phase CHECK (43_program_erase.md R181): the length latched, compared with 256. -/
def checkLength (s : State) : State :=
  if Config.pageSize < s.len then s.raiseError .invalidLength else s.enter .wren

/-- Phase SLEEPING: one Sleep, then the next poll. -/
def sleepPhase (s : State) : Host.Outcome State Fault Refusal :=
  match pollClass s.op with
  | some c => ((sleepOnce c s).andThen (fun _ s => .ret () (s.enter .poll))).outcome
  | none => .refused .phaseOffPath

/-- The acceptance of a host operation: its latches and its first phase (30_encoding.md R103). A wire command is none
of the host's. -/
def accept (i : Instr) (s : State) : State :=
  match i with
  | .opRead a n => latchRead a n s
  | .opPageProgram a data => latchPageProgram a data s
  | .opSectorErase a => latchSectorErase a s
  | .opChipErase => latchChipErase s
  | .opSoftwareReset => latchSoftwareReset s
  | .opWriteEnable => latchWriteEnable s
  | .opReadManufacturerId => latchReadManufacturerId s
  | .opReadJedecId => latchReadJedecId s
  | .writeEnable => s
  | .readStatus => s
  | .read _ _ => s
  | .pageProgram _ _ => s
  | .sectorErase _ => s
  | .chipErase => s
  | .enableReset => s
  | .reset => s
  | .readManufacturerId => s
  | .readJedecId => s

/-- The release of the controller: both handles go back, no bus transaction, the device keeps its state
(70_reset_and_hazards.md R302). -/
def releaseHandles (s : State) : State := { s with busHandle := .released, delayHandle := .released }

/-- The state in which the next step runs one given instruction: a host operation stands at the head of the host port
with PHASE at IDLE; a wire command is the one of the current phase, with OP and the operand latches that make it so
(log entry 23). -/
def placeInstr (i : Instr) (s : State) : State :=
  match i with
  | .writeEnable => { s with phase := .xfer, op := .writeEnable }
  | .readStatus => { s with phase := .poll, op := .sectorErase }
  | .read a n => { s with phase := .xfer, op := .read, addr := a, len := n }
  | .pageProgram a data => { s with phase := .action, op := .pageProgram, addr := a, len := data.length, txData := data }
  | .sectorErase a => { s with phase := .action, op := .sectorErase, addr := a }
  | .chipErase => { s with phase := .action, op := .chipErase }
  | .enableReset => { s with phase := .rstArm, op := .softwareReset }
  | .reset => { s with phase := .rstExec, op := .softwareReset }
  | .readManufacturerId => { s with phase := .xfer, op := .readManufacturerId }
  | .readJedecId => { s with phase := .xfer, op := .readJedecId }
  | .opRead a n => placeCommand (.opRead a n) s
  | .opPageProgram a data => placeCommand (.opPageProgram a data) s
  | .opSectorErase a => placeCommand (.opSectorErase a) s
  | .opChipErase => placeCommand .opChipErase s
  | .opSoftwareReset => placeCommand .opSoftwareReset s
  | .opWriteEnable => placeCommand .opWriteEnable s
  | .opReadManufacturerId => placeCommand .opReadManufacturerId s
  | .opReadJedecId => placeCommand .opReadJedecId s
where
  /-- A host operation presented at the head of the port of an idle sequencer. -/
  placeCommand (i : Instr) (s : State) : State :=
    match encode i with
    | .command c => { s with phase := .idle, port := .command c :: s.port }
    | .frame _ _ => s

end Sys2Proof.Machine
end

