-- ==== Sys2Proof/Machine/Step.lean ====
section
/-! DEFINITION. One step of the machine: what PHASE, "this block's program counter" (10_state.md R22), says is next. -/

namespace Sys2Proof.Machine

/-- An idle sequencer (30_encoding.md R103): the host's next command runs as one operation, blocking until its response
(20_memory.md R74); a release is granted (70_reset_and_hazards.md R302); with nothing at the port only the device may
move. -/
def idleStep (s : State) : Host.Outcome State Fault Refusal :=
  match s.port with
  | [] => .next s.deviceTurn
  | .release :: rest => .next (releaseHandles { s with port := rest })
  | .command c :: rest =>
    match decodeCommand c with
    | .ok i => exec i { s with port := rest }
    | .error e => .refused (.portMalformed e)

/-- A phase that issues a wire command: the command, then the phase after it. -/
def wireStep (s : State) : Host.Outcome State Fault Refusal :=
  match wireAt s with
  | some i =>
    match exec i s with
    | .next t => .next (afterWire t)
    | .fault e => .fault e
    | .refused e => .refused e
  | none => .refused .phaseOffPath

/-- One step. A command presented in any phase but IDLE is held off: it stays in `port` (30_encoding.md R103). -/
def step (s : State) : Host.Outcome State Fault Refusal :=
  match s.phase with
  | .idle => idleStep s
  | .check => .next (checkLength s)
  | .sleeping => sleepPhase s
  | .done => .next s.respond
  | .wren => wireStep s
  | .action => wireStep s
  | .poll => wireStep s
  | .xfer => wireStep s
  | .rstArm => wireStep s
  | .rstExec => wireStep s

/-- `s` with the instruction of a table word as the one the next step runs; a word that is no instruction places
nothing. -/
def State.withFetchWord (s : State) (nbits w : Nat) : State :=
  match decodeTableWord nbits w with
  | some i => placeInstr i s
  | none => s

end Sys2Proof.Machine
end

