-- ==== Sys2Proof/Safety.lean ====
section
/-! DEFINITION. The terms the claims are stated in: what the environment is assumed to do, the closed form of a
completed transaction, the shapes a trace may have, and the invariants of the machine. -/

namespace Sys2Proof.Machine

/-! ### Premises on the environment -/

/-- The bus call goes well. -/
def BusAnswer.succeeds : BusAnswer → Bool
  | .ok => true
  | .data _ => true
  | .err _ => false
  | .hang => false

/-- The first error among the answers to bus calls, in the order of the calls. -/
def firstError : List BusAnswer → Option BusErr
  | [] => none
  | .err e :: _ => some e
  | .ok :: rest => firstError rest
  | .data _ :: rest => firstError rest
  | .hang :: rest => firstError rest

/-- No bus call fails or hangs; the bytes read may be any ("any byte", 10_state.md R37). -/
abbrev State.busSucceeds (s : State) : Prop := ∀ a ∈ s.busScript, a.succeeds = true

/-- No bus call fails or hangs, and every byte read is the attached device's. -/
abbrev State.deviceAnswers (s : State) : Prop := ∀ a ∈ s.busScript, a = .ok

/-- Every Sleep returns (70_reset_and_hazards.md R322). -/
abbrev State.sleepsReturn (s : State) : Prop := ∀ a ∈ s.sleepScript, a = .returns

/-- Every bus call and every Sleep returns (70_reset_and_hazards.md R322). -/
abbrev State.nothingHangs (s : State) : Prop := (∀ a ∈ s.busScript, a ≠ .hang) ∧ s.sleepsReturn

/-- Both handles are held (10_state.md R41). -/
abbrev State.holds (s : State) : Prop := s.busHandle = .held ∧ s.delayHandle = .held

/-- The sequencer is constructed and idle: the host port accepts (30_encoding.md R103). -/
abbrev State.ready (s : State) : Prop := s.holds ∧ s.phase = .idle

/-- "device idle (`BUSY = 0`, no pending cycle)" (46_device_response.md R242). -/
abbrev Device.idle (d : Device) : Prop := d.busy = false ∧ d.pending = none

/-- Identification and geometry, which nothing writes (10_state.md R40; 00_scope.md R17). -/
def Device.constants (d : Device) : Byte × Byte × Byte × Byte × Nat × Nat × Byte :=
  (d.mfrId, d.devId, d.memType, d.capId, d.capacity, d.sectorBits, d.erasedByte)

/-- How many opportunities the device lets pass before its Complete step, the `K` of 41_subprotocols.md R159, on a
schedule that goes on with `last` for ever; `none` where "busy never clears" (46_device_response.md R240). -/
def busyReads (last : Bool) : List Bool → Option Nat
  | [] => if last then some 0 else none
  | true :: _ => some 0
  | false :: rest => (busyReads last rest).map (· + 1)

/-- The device takes its Complete step after exactly `k` opportunities (46_device_response.md R239, R240). -/
abbrev State.completesAfter (s : State) (k : Nat) : Prop := busyReads s.scheduleEnd s.schedule = some k

/-- "BUSY reads 0 within" `m` "status reads" (46_device_response.md R240), the premise of every claim that a mutating
operation returns `Ok`. -/
def State.completesWithin (s : State) (m : Nat) : Prop := ∃ k, s.completesAfter k ∧ k < m

/-! ### One completed transaction -/

/-- The bus calls of a transaction that completes (40_wire_commands.md R121). -/
def txnCalls (tx : List Byte) (n : Nat) : List BusCall :=
  if n = 0 then [.begin, .write tx, .finish] else [.begin, .write tx, .read n, .finish]

/-- The state after `TXN(tx, rx)`: its bus calls made, the event recorded, chip-select released, the device in state
`d`; nothing else changes. -/
def State.completed (s : State) (tx rx : List Byte) (d : Device) : State :=
  { s with
    dev := d
    draws := s.draws + 1
    chipSelect := false
    calls := s.calls ++ txnCalls tx rx.length
    busScript := s.busScript.drop (txnCalls tx rx.length).length
    trace := s.trace ++ [.txn tx rx] }

/-- The state in which a transaction has failed after the calls `calls`, chip-select at `sel`. -/
def State.failed (s : State) (tx : List Byte) (n : Nat) (stage : Stage) (e : BusErr) (calls : List BusCall)
    (sel : Bool) : State :=
  { s with
    dev := s.dev.afterFailure s.draws s.target stage tx n
    draws := s.draws + 1
    calls := s.calls ++ calls
    busScript := s.busScript.drop calls.length
    chipSelect := sel
    trace := s.trace ++ [.txnFail stage e]
    result := .busError e
    phase := .done
    path := s.path ++ [.done] }

/-- BUSY and WEL are free values, those of draw `k` (10_state.md R38). -/
def BusyAndLatchOpen (k : Nat) (s : State) : Prop := s.dev.busy = Config.freeBusy k ∧ s.dev.wel = Config.freeWel k

/-- The commands whose received bytes go to RXDATA (10_state.md R24). -/
def fillsBuffer : Instr → Bool
  | .read _ _ => true
  | .readManufacturerId => true
  | .readJedecId => true
  | .writeEnable => false
  | .readStatus => false
  | .pageProgram _ _ => false
  | .sectorErase _ => false
  | .chipErase => false
  | .enableReset => false
  | .reset => false
  | .opRead _ _ => false
  | .opPageProgram _ _ => false
  | .opSectorErase _ => false
  | .opChipErase => false
  | .opSoftwareReset => false
  | .opWriteEnable => false
  | .opReadManufacturerId => false
  | .opReadJedecId => false

/-- The commands after whose failed transaction BUSY and WEL are any value: WriteEnable, ReadStatus and the three action
frames (10_state.md R38). -/
def unsettles : Instr → Bool
  | .writeEnable => true
  | .readStatus => true
  | .pageProgram _ _ => true
  | .sectorErase _ => true
  | .chipErase => true
  | .read _ _ => false
  | .enableReset => false
  | .reset => false
  | .readManufacturerId => false
  | .readJedecId => false
  | .opRead _ _ => false
  | .opPageProgram _ _ => false
  | .opSectorErase _ => false
  | .opChipErase => false
  | .opSoftwareReset => false
  | .opWriteEnable => false
  | .opReadManufacturerId => false
  | .opReadJedecId => false

/-- The class and the cycle of a mutating host operation that passes its length check (41_subprotocols.md R163;
43_program_erase.md R180, R185, R190). -/
def mutation : Instr → Option (PollClass × Cycle)
  | .opPageProgram a data => if data.length ≤ Config.pageSize then some (.pp, .program a data) else none
  | .opSectorErase a => some (.se, .sectorErase a)
  | .opChipErase => some (.ce, .chipErase)
  | .opRead _ _ => none
  | .opSoftwareReset => none
  | .opWriteEnable => none
  | .opReadManufacturerId => none
  | .opReadJedecId => none
  | .writeEnable => none
  | .readStatus => none
  | .read _ _ => none
  | .pageProgram _ _ => none
  | .sectorErase _ => none
  | .chipErase => none
  | .enableReset => none
  | .reset => none
  | .readManufacturerId => none
  | .readJedecId => none

/-- The instruction is one of the eight host operations, and not a wire command. -/
def isHostOp (i : Instr) : Bool :=
  match encode i with
  | .command _ => true
  | .frame _ _ => false

/-! ### Legal frames -/

/-- `tx` has an opcode of the table and the length of 30_encoding.md R99. -/
def legalTx : List Byte → Bool
  | [] => false
  | op :: args =>
    decide (op ∈ wireOpcodes) &&
    (if op = 0x02#8 then decide (3 ≤ args.length ∧ args.length ≤ 259) else decide (args.length = operandBytes op))

/-- `rx` has the length of 30_encoding.md R99 for the opcode of `tx`; a Read receives any number of bytes. -/
def legalRx : List Byte → List Byte → Bool
  | [], _ => false
  | op :: _, rx => decide (op = 0x03#8 ∨ rx.length = receivedBytes op)

/-- The part of 40_wire_commands.md R135 about one event. -/
def legalEvent : Event → Bool
  | .txn tx rx => legalTx tx && legalRx tx rx
  | .txnFail _ _ => true
  | .sleep _ => true
  | .rsp _ => true

/-- The part of 40_wire_commands.md R135 about the bytes handed to the bus, in a transaction that failed too. -/
def legalCall : BusCall → Bool
  | .write tx => legalTx tx
  | .begin => true
  | .read _ => true
  | .finish => true

/-- Every frame in the history is legal (40_wire_commands.md R135). -/
def FramesLegal (s : State) : Prop :=
  (∀ e ∈ s.trace, legalEvent e = true) ∧ ∀ c ∈ s.calls, legalCall c = true

/-! ### The traces of an operation -/

/-- The traces of an operation of one transaction, with its result (42_read.md R171; 44_reset_write_enable.md R206). -/
def OneTxnTrace (tx : List Byte) (n : Nat) (payload : List Byte → List Byte) (trace : List Event) (r : Result) : Prop :=
  (∃ rx, rx.length = n ∧ trace = [.txn tx rx] ∧ r = .ok (payload rx)) ∨
  (∃ stage e, trace = [.txnFail stage e] ∧ r = .busError e)

/-- The busy polls of a wait: each with its Sleep (41_subprotocols.md R165: `(P(b) Z)^k`). -/
def busyPolls (us : Nat) (statuses : List Byte) : List Event :=
  statuses.flatMap (fun b => [.txn [0x05#8] [b], .sleep us])

/-- The five rows of the table of 41_subprotocols.md R165, for the action frame `tx`, the bound `m` and the delay `us`. -/
def MutateTrace (tx : List Byte) (m us : Nat) (trace : List Event) (r : Result) : Prop :=
  (∃ stage e, trace = [.txnFail stage e] ∧ r = .busError e) ∨
  (∃ stage e, trace = [.txn [0x06#8] [], .txnFail stage e] ∧ r = .busError e) ∨
  (∃ bs i, (∀ b ∈ bs, isBusy b = true) ∧ isBusy i = false ∧ bs.length + 1 ≤ m ∧
    trace = [.txn [0x06#8] [], .txn tx []] ++ busyPolls us bs ++ [.txn [0x05#8] [i]] ∧ r = .ok []) ∨
  (∃ bs stage e, (∀ b ∈ bs, isBusy b = true) ∧ bs.length + 1 ≤ m ∧
    trace = [.txn [0x06#8] [], .txn tx []] ++ busyPolls us bs ++ [.txnFail stage e] ∧ r = .busError e) ∨
  (∃ bs b, (∀ x ∈ bs, isBusy x = true) ∧ isBusy b = true ∧ bs.length + 1 = m ∧
    trace = [.txn [0x06#8] [], .txn tx []] ++ busyPolls us bs ++ [.txn [0x05#8] [b]] ∧ r = .timeout)

/-- The result kinds an operation may end with (60_exceptions.md R260). -/
def resultAllowed : Instr → Result → Bool
  | _, .ok _ => true
  | _, .busError _ => true
  | .opPageProgram _ _, .invalidLength => true
  | _, .invalidLength => false
  | .opPageProgram _ _, .timeout => true
  | .opSectorErase _, .timeout => true
  | .opChipErase, .timeout => true
  | _, .timeout => false

/-- An event is a response. -/
def isResponse : Event → Bool
  | .rsp _ => true
  | .txn _ _ => false
  | .txnFail _ _ => false
  | .sleep _ => false

/-- An event is a transaction, completed or failed. -/
def isTransaction : Event → Bool
  | .txn _ _ => true
  | .txnFail _ _ => true
  | .sleep _ => false
  | .rsp _ => false

/-- An event is a Sleep. -/
def isSleep : Event → Bool
  | .sleep _ => true
  | .txn _ _ => false
  | .txnFail _ _ => false
  | .rsp _ => false

/-! ### What an operation depends on -/

/-- The two states agree on all that 10_state.md R21 lets an operation depend on: the configuration, the phase, and
the answers of the bus, the delay and the device. Nothing is said of latches, buffers, POLLCNT, STATUS, RESULT, the
host's inputs or the history. -/
def SameEnvironment (s t : State) : Prop :=
  s.busHandle = t.busHandle ∧ s.delayHandle = t.delayHandle ∧ s.maxPolls = t.maxPolls ∧ s.pollDelay = t.pollDelay ∧
  s.phase = t.phase ∧ s.dev = t.dev ∧ s.busScript = t.busScript ∧ s.sleepScript = t.sleepScript ∧
  s.schedule = t.schedule ∧ s.scheduleEnd = t.scheduleEnd ∧ s.draws = t.draws

/-! ### Invariants -/

/-- PHASE and OP belong to one path of 10_state.md R22. -/
def onPath : Phase → HostOp → Bool
  | .idle, _ => true
  | .done, _ => true
  | .check, op => decide (op = .pageProgram)
  | .wren, op => (pollClass op).isSome
  | .action, op => (pollClass op).isSome
  | .poll, op => (pollClass op).isSome
  | .sleeping, op => (pollClass op).isSome
  | .xfer, op => decide (op = .read ∨ op = .writeEnable ∨ op = .readManufacturerId ∨ op = .readJedecId)
  | .rstArm, op => decide (op = .softwareReset)
  | .rstExec, op => decide (op = .softwareReset)

/-- The edges of the paths of 10_state.md R22, with the early exit to DONE on a raise. -/
def phaseEdge : Phase → HostOp → Phase → Bool
  | .idle, _, p => decide (p = .idle)
  | .check, _, p => decide (p = .wren ∨ p = .done)
  | .wren, _, p => decide (p = .action ∨ p = .done)
  | .action, _, p => decide (p = .poll ∨ p = .done)
  | .poll, _, p => decide (p = .sleeping ∨ p = .done)
  | .sleeping, _, p => decide (p = .poll)
  | .xfer, _, p => decide (p = .done)
  | .rstArm, _, p => decide (p = .rstExec ∨ p = .done)
  | .rstExec, _, p => decide (p = .done)
  | .done, _, p => decide (p = .idle)

/-- The device: the array in its canonical form, and BUSY = 1 exactly while a cycle is pending (10_state.md R34). That
CAPACITY is at most 2^24 (00_scope.md R17) holds of every device by the type of its `extent`. -/
def Device.inv (d : Device) : Prop :=
  Memory.wf d.erasedByte d.capacity d.mem ∧ d.busy = d.pending.isSome

/-- The invariant every step keeps: the device's, PHASE on its operation's path (10_state.md R22), POLLCNT below
MAX_POLLS[c] while the wait goes on (R25), a data frame no longer than a page once past the check
(43_program_erase.md R181), LEN the length of TXDATA (10_state.md R24), and the poll bounds positive (00_scope.md R12). -/
def Inv (s : State) : Prop :=
  s.dev.inv ∧
  onPath s.phase s.op = true ∧
  (s.phase = .poll ∨ s.phase = .sleeping → ∀ c, pollClass s.op = some c → s.pollCnt < s.maxPolls.get c) ∧
  (s.op = .pageProgram → s.len = s.txData.length) ∧
  (s.op = .pageProgram → s.phase = .wren ∨ s.phase = .action → s.txData.length ≤ Config.pageSize) ∧
  (∀ c, 1 ≤ s.maxPolls.get c)

end Sys2Proof.Machine
end

