-- ==== Sys2Proof/Certificates/Slice0/Obligations.lean ====
section
/-! DEFINITION. The statements for the provers. Each docstring names the rule of the spec it formalises, and says where
a clause is the model's own choice. `s.deviceTurn` is `s` after the device's opportunity for a Complete step, which
precedes every transaction. -/

open Sys2Proof Sys2Proof.Machine

/-! ### Encoding -/

/-- The frames of 30_encoding.md R91, R96 written out (95_test_vectors.md V10 to V19) read as the commands they
stand for. -/
def Obligations.TableFramesDecode : Prop :=
  decodeFrame [0x06#8] 0 = .ok .writeEnable ∧
  decodeFrame [0x05#8] 1 = .ok .readStatus ∧
  decodeFrame [0x03#8, 0x12#8, 0x34#8, 0x56#8] 3 = .ok (.read 0x123456#24 3) ∧
  decodeFrame [0x02#8, 0x00#8, 0x01#8, 0x00#8, 0xAA#8, 0x55#8] 0 = .ok (.pageProgram 0x000100#24 [0xAA#8, 0x55#8]) ∧
  decodeFrame [0x20#8, 0x00#8, 0x12#8, 0x34#8] 0 = .ok (.sectorErase 0x001234#24) ∧
  decodeFrame [0xC7#8] 0 = .ok .chipErase ∧
  decodeFrame [0x66#8] 0 = .ok .enableReset ∧
  decodeFrame [0x99#8] 0 = .ok .reset ∧
  decodeFrame [0x90#8, 0x00#8, 0x00#8, 0x00#8] 2 = .ok .readManufacturerId ∧
  decodeFrame [0x9F#8] 3 = .ok .readJedecId

/-- Decoding the encoding of a well-formed instruction gives it back, every operand at every value. -/
def Obligations.DecodeEncode : Prop :=
  ∀ i : Instr, i.wellFormed = true → decode (encode i) = .ok i

/-- A frame has one reading: what it decodes to is well formed and encodes to that very frame. -/
def Obligations.FrameHasOneReading : Prop :=
  ∀ (tx : List Byte) (n : Nat) (i : Instr), decodeFrame tx n = .ok i → i.wellFormed = true ∧ encode i = .frame tx n

/-- The opcode map is injective and closed (30_encoding.md R97): a wire command's first byte is one of the ten, and two
wire commands with the same first byte are the same command. -/
def Obligations.OpcodesInjective : Prop :=
  wireOpcodes.Nodup ∧
  ∀ (i j : Instr) (x y : List Byte) (n m : Nat), encode i = .frame x n → encode j = .frame y m →
    ∃ a xs b ys, x = a :: xs ∧ y = b :: ys ∧ a ∈ wireOpcodes ∧ b ∈ wireOpcodes ∧ (a = b → i.ctorIdx = j.ctorIdx)

/-- Address framing (30_encoding.md R93): `addr3` by fields and by shifts, most significant byte first; the worked
example; the device's inverse. -/
def Obligations.AddressFraming : Prop :=
  (∀ a : Addr, addr3 a = [a.extractLsb 23 16, a.extractLsb 15 8, a.extractLsb 7 0] ∧
    addr3 a = [((a >>> 16) &&& 0xFF#24).setWidth 8, ((a >>> 8) &&& 0xFF#24).setWidth 8, (a &&& 0xFF#24).setWidth 8]) ∧
  (∀ n, encode (.read 0x001000#24 n) = .frame [0x03#8, 0x00#8, 0x10#8, 0x00#8] n) ∧
  (∀ b1 b2 b3 : Byte, addrOf b1 b2 b3 = (b1.setWidth 24 <<< 16) ||| (b2.setWidth 24 <<< 8) ||| b3.setWidth 24) ∧
  (∀ a : Addr, ∃ b1 b2 b3, addr3 a = [b1, b2, b3] ∧ addrOf b1 b2 b3 = a)

/-- A first byte outside the table has no meaning, and the device refuses the frame (30_encoding.md R98;
46_device_response.md R245). -/
def Obligations.UnknownOpcodeRefused : Prop :=
  ∀ (d : Device) (k n : Nat) (op : Byte) (args : List Byte), op ∉ wireOpcodes →
    decodeFrame (op :: args) n = .error (.unknownOpcode op) ∧ d.receive k (op :: args) n = none

/-- Every host code is an operation and each operation has its own (30_encoding.md R105, the spec's own codes), and the
operands marked "-" in R104 are ignored. -/
def Obligations.HostCodesTotal : Prop :=
  (∀ c : BitVec 3, HostOp.code (HostOp.ofCode c) = c) ∧ (∀ o : HostOp, HostOp.ofCode (HostOp.code o) = o) ∧
  (∀ (c : BitVec 3) (a a' : Addr) (n n' : Nat) (d d' : List Byte), 3#3 ≤ c →
    decodeCommand ⟨c, a, n, d⟩ = decodeCommand ⟨c, a', n', d'⟩) ∧
  (∀ (a : Addr) (n n' : Nat) (d d' : List Byte), decodeCommand ⟨2#3, a, n, d⟩ = decodeCommand ⟨2#3, a, n', d'⟩) ∧
  (∀ (a : Addr) (n : Nat) (d d' : List Byte), decodeCommand ⟨0#3, a, n, d⟩ = decodeCommand ⟨0#3, a, n, d'⟩)

/-- The busy test looks at bit 0 of the status byte and nothing else (41_subprotocols.md R156). -/
def Obligations.BusyTestIsBitZero : Prop :=
  (∀ b : Byte, isBusy b = b.getLsbD 0) ∧ isBusy 0xFF#8 = true ∧ isBusy 0x00#8 = false ∧ isBusy 0x02#8 = false

/-! ### Reset, steps and phases -/

/-- The state right after reset meets the invariants; the sequencer is idle, the device at its power-on default (10_state.md
R42), and nothing has happened yet. Not the spec's but the model's are: that no reset is armed (log entry 29, presumed),
the positive poll bounds (log entry 8) and the canonical array (log entry 6) inside `Inv`, and a device just powered on
(log entry 41). -/
def Obligations.ResetMeetsInvariant : Prop :=
  Inv State.reset ∧ FramesLegal State.reset ∧ State.reset.phase = .idle ∧ State.reset.trace = [] ∧
  State.reset.calls = [] ∧ State.reset.dev.busy = false ∧ State.reset.dev.wel = false ∧
  State.reset.dev.pending = none ∧ State.reset.dev.rstArmed = false

/-- An idle sequencer runs the command at the head of the host port (30_encoding.md R103). -/
def Obligations.StepRunsPortCommand : Prop :=
  ∀ (s : State) (c : HostCommand) (rest : List HostInput) (i : Instr), s.phase = .idle →
    s.port = .command c :: rest → decodeCommand c = .ok i → step s = exec i { s with port := rest }

/-- In a phase that issues a wire command the step is that command, then PHASE moves on (10_state.md R22). -/
def Obligations.StepRunsPhaseCommand : Prop :=
  ∀ (s : State) (i : Instr), wireAt s = some i →
    (∀ t, exec i s = .next t → step s = .next (afterWire t)) ∧
    (∀ e, exec i s = .fault e → step s = .fault e) ∧ (∀ e, exec i s = .refused e → step s = .refused e)

/-- A command presented while PHASE is not IDLE is held off: it stays at the port and has no effect on the step; and a
host operation in such a state does nothing (30_encoding.md R103). -/
def Obligations.CommandsHeldOff : Prop :=
  (∀ s t : State, s.phase ≠ .idle → step s = .next t →
    t.port = s.port ∧ ∀ p, step { s with port := p } = .next { t with port := p }) ∧
  (∀ (s : State) (i : Instr), isHostOp i = true → s.busHandle = .held → s.phase ≠ .idle → exec i s = .next s)

/-- With nothing at the port an idle step makes no transaction and no Sleep; it is the device's turn only
(70_reset_and_hazards.md R301; 46_device_response.md R220). -/
def Obligations.IdleStepIsSilent : Prop :=
  ∀ s : State, s.phase = .idle → s.port = [] →
    ∃ t, step s = .next t ∧
      t = { s with dev := t.dev, schedule := t.schedule, draws := t.draws } ∧ (s.dev.busy = false → t = s)

/-- Every step keeps the invariant: canonical array, BUSY exactly while a cycle is pending, PHASE on its path, POLLCNT
below its bound during a wait, the data of a program within a page once checked. -/
def Obligations.StepKeepsInvariant : Prop :=
  ∀ s t : State, Inv s → step s = .next t → Inv t

/-- Every step keeps every frame legal (40_wire_commands.md R135), in transactions that fail too. -/
def Obligations.StepKeepsFramesLegal : Prop :=
  ∀ s t : State, FramesLegal s → step s = .next t → FramesLegal t

/-- PHASE moves only along the paths of 10_state.md R22: a step from IDLE ends in IDLE, and from any other phase goes to
the next phase of the path or exits to DONE. -/
def Obligations.PhasesFollowPaths : Prop :=
  ∀ s t : State, step s = .next t → phaseEdge s.phase s.op t.phase = true ∧ (s.phase ≠ .idle → t.op = s.op)

/-- A host operation is its phases: accepting it and then stepping, phase by phase, reaches exactly what `exec`
answers. -/
def Obligations.OperationIsItsPhases : Prop :=
  ∀ (i : Instr) (s : State), isHostOp i = true → s.ready → (∀ c, 1 ≤ s.maxPolls.get c) →
    ∃ m, core.run m (accept i s) = exec i s

/-- The configuration and the device's constants are never written (10_state.md R20, R32, R40), and the handles are
given up only by a release at the idle port (R41; 70_reset_and_hazards.md R302). -/
def Obligations.ConfigurationNeverWritten : Prop :=
  ∀ s t : State, step s = .next t →
    t.maxPolls = s.maxPolls ∧ t.pollDelay = s.pollDelay ∧ t.dev.constants = s.dev.constants ∧
    (t.busHandle ≠ s.busHandle ∨ t.delayHandle ≠ s.delayHandle → s.phase = .idle ∧ s.port.head? = some .release)

/-- A release is granted in IDLE, makes no bus transaction and leaves the device as it is (70_reset_and_hazards.md R302);
afterwards no host operation runs. -/
def Obligations.ReleaseEndsTheSequencer : Prop :=
  (∀ (s : State) (rest : List HostInput), s.phase = .idle → s.port = .release :: rest →
    step s = .next { s with port := rest, busHandle := .released, delayHandle := .released }) ∧
  (∀ (s : State) (i : Instr), isHostOp i = true → s.busHandle = .released → exec i s = .refused .handleReleased)

/-! ### The wire commands -/

/-- WriteEnable on a device that is not busy: one frame `[06]`, WEL <- 1, nothing else (40_wire_commands.md R125;
46_device_response.md R227), but that an armed reset may be disarmed where WEL was 0, which is the model's (log entry
11). -/
def Obligations.WriteEnableSetsLatch : Prop :=
  ∀ s : State, s.busHandle = .held → s.busSucceeds → s.deviceTurn.dev.busy = false →
    exec .writeEnable s = .next (s.deviceTurn.completed [0x06#8] []
      { s.deviceTurn.dev with
        wel := true
        rstArmed := s.deviceTurn.dev.rstArmed && (s.deviceTurn.dev.wel || Config.freeArmed s.deviceTurn.draws) })

/-- ReadStatus, on any device: one byte with bit 0 BUSY and bit 1 WEL goes to STATUS (40_wire_commands.md R126;
46_device_response.md R225); bits 7:2 are free, drawn anew at each read. The bit numbers are presumed (log entry 27), and
that an armed reset may be disarmed is the model's (log entry 11). -/
def Obligations.ReadStatusReturnsStatus : Prop :=
  ∀ s : State, s.busHandle = .held → s.deviceAnswers →
    ∃ b : Byte, isBusy b = s.deviceTurn.dev.busy ∧ isLatched b = s.deviceTurn.dev.wel ∧
      exec .readStatus s = .next { s.deviceTurn.completed [0x05#8] [b]
        { s.deviceTurn.dev with
          statusHigh := Config.freeStatusBits s.deviceTurn.draws
          rstArmed := s.deviceTurn.dev.rstArmed && Config.freeArmed s.deviceTurn.draws } with
        status := b }

/-- Read of `n` bytes at `a` on a device that is not busy: the frame is `[03] ++ addr3(a)`, byte `i` is the array byte at
`a + i` inside the array, and it goes to `RXDATA[i]` (40_wire_commands.md R127; 46_device_response.md R226, whose byte
order is general knowledge, log entry 9). That an armed reset may be disarmed is the model's (log entry 11). -/
def Obligations.ReadReturnsArrayBytes : Prop :=
  ∀ (s : State) (a : Addr) (n : Nat), s.busHandle = .held → s.deviceAnswers → s.deviceTurn.dev.busy = false →
    ∃ rx : List Byte, rx.length = n ∧
      (∀ i, i < n → a.toNat + i < s.dev.capacity →
        rx[i]? = some (Memory.read s.dev.erasedByte s.deviceTurn.dev.mem (a.toNat + i))) ∧
      exec (.read a n) s = .next { s.deviceTurn.completed (0x03#8 :: addr3 a) rx
        { s.deviceTurn.dev with
          rstArmed := s.deviceTurn.dev.rstArmed && Config.freeArmed s.deviceTurn.draws } with
        rxData := rx }

/-- The identification commands on a device that is not busy return its constants, in order (40_wire_commands.md R133,
R134; 46_device_response.md R237, R238). That an armed reset may be disarmed is the model's (log entry 11). -/
def Obligations.IdentificationReturnsConstants : Prop :=
  ∀ s : State, s.busHandle = .held → s.deviceAnswers → s.deviceTurn.dev.busy = false →
    exec .readManufacturerId s = .next { s.deviceTurn.completed [0x90#8, 0x00#8, 0x00#8, 0x00#8] [s.dev.mfrId, s.dev.devId]
        { s.deviceTurn.dev with
          rstArmed := s.deviceTurn.dev.rstArmed && Config.freeArmed s.deviceTurn.draws } with
        rxData := [s.dev.mfrId, s.dev.devId] } ∧
    exec .readJedecId s = .next { s.deviceTurn.completed [0x9F#8] [s.dev.mfrId, s.dev.memType, s.dev.capId]
        { s.deviceTurn.dev with
          rstArmed := s.deviceTurn.dev.rstArmed && Config.freeArmed s.deviceTurn.draws } with
        rxData := [s.dev.mfrId, s.dev.memType, s.dev.capId] }

/-- A program or erase frame that arrives with WEL = 1 and BUSY = 0 is accepted: BUSY <- 1 and its cycle is pending; the
array is not changed yet (40_wire_commands.md R128 to R130; 46_device_response.md R223, R230, R232, R234). That a program
of no data starts a cycle too (log entry 12), and that an armed reset may be disarmed (log entry 11), is the model's. -/
def Obligations.LatchedActionIsAccepted : Prop :=
  ∀ s : State, s.busHandle = .held → s.busSucceeds → s.deviceTurn.dev.busy = false → s.deviceTurn.dev.wel = true →
    (∀ (a : Addr) (data : List Byte), data.length ≤ 256 →
      exec (.pageProgram a data) s = .next (s.deviceTurn.completed (0x02#8 :: (addr3 a ++ data)) []
        { s.deviceTurn.dev with
          busy := true
          pending := some (.program a data)
          rstArmed := s.deviceTurn.dev.rstArmed && Config.freeArmed s.deviceTurn.draws })) ∧
    (∀ a : Addr,
      exec (.sectorErase a) s = .next (s.deviceTurn.completed (0x20#8 :: addr3 a) []
        { s.deviceTurn.dev with
          busy := true
          pending := some (.sectorErase a)
          rstArmed := s.deviceTurn.dev.rstArmed && Config.freeArmed s.deviceTurn.draws })) ∧
    exec .chipErase s = .next (s.deviceTurn.completed [0xC7#8] []
      { s.deviceTurn.dev with
        busy := true
        pending := some .chipErase
        rstArmed := s.deviceTurn.dev.rstArmed && Config.freeArmed s.deviceTurn.draws })

/-- A program or erase frame that arrives with WEL = 0 is not accepted (46_device_response.md R223): BUSY, WEL and the
pending cycle stay as they are, and the array stays outside the frame's target, where it is free (R224; U1). -/
def Obligations.UnlatchedActionIsNotAccepted : Prop :=
  ∀ (s : State) (i : Instr) (c : Cycle) (tx : List Byte), s.busHandle = .held → s.busSucceeds →
    s.deviceTurn.dev.inv → s.deviceTurn.dev.busy = false → s.deviceTurn.dev.wel = false →
    ((∃ a data, data.length ≤ 256 ∧ i = .pageProgram a data ∧ c = .program a data) ∨
      (∃ a, i = .sectorErase a ∧ c = .sectorErase a) ∨ (i = .chipErase ∧ c = .chipErase)) →
    encode i = .frame tx 0 →
    ∃ t, exec i s = .next t ∧ t = s.deviceTurn.completed tx [] t.dev ∧ t.dev.busy = false ∧ t.dev.wel = false ∧
      t.dev.pending = s.deviceTurn.dev.pending ∧ t.dev.constants = s.dev.constants ∧
      ∀ x, (∀ r ∈ s.deviceTurn.dev.footprint c, ¬ (r.lo ≤ x ∧ x < r.lo + r.len)) →
        Memory.read s.dev.erasedByte t.dev.mem x = Memory.read s.dev.erasedByte s.deviceTurn.dev.mem x

/-- EnableReset arms the reset, whatever BUSY and WEL are (46_device_response.md R235); a Reset that finds it armed puts
the device at its power-on default (R236): WEL = 0, BUSY = 0, no pending cycle, not armed, the array kept outside the
range of an interrupted cycle. That the array is kept and that EnableReset is taken by a busy device is log entry 10,
presumed. -/
def Obligations.ResetPairResetsTheDevice : Prop :=
  ∀ s : State, s.busHandle = .held → s.busSucceeds →
    exec .enableReset s = .next (s.deviceTurn.completed [0x66#8] [] { s.deviceTurn.dev with rstArmed := true }) ∧
    (s.deviceTurn.dev.rstArmed = true → s.deviceTurn.dev.inv →
      ∃ t, exec .reset s = .next t ∧ t = s.deviceTurn.completed [0x99#8] [] t.dev ∧
        t.dev = { s.deviceTurn.dev with mem := t.dev.mem, busy := false, wel := false, pending := none, rstArmed := false } ∧
        ∀ x, (∀ r ∈ s.deviceTurn.dev.pendingFootprint, ¬ (r.lo ≤ x ∧ x < r.lo + r.len)) →
          Memory.read s.dev.erasedByte t.dev.mem x = Memory.read s.dev.erasedByte s.deviceTurn.dev.mem x)

/-- A well-formed wire command on a bus that succeeds completes whatever the state of the device: one legal frame, the
bytes it receives, and of the device at most what a device can hold changes (40_wire_commands.md R121;
46_device_response.md R229 leaves the rest open). -/
def Obligations.WireCommandsComplete : Prop :=
  ∀ (s : State) (i : Instr) (tx : List Byte) (n : Nat), i.wellFormed = true → encode i = .frame tx n →
    s.busHandle = .held → s.busSucceeds →
    ∃ (t : State) (rx : List Byte), exec i s = .next t ∧ rx.length = n ∧
      t = { s.deviceTurn.completed tx rx t.dev with status := t.status, rxData := t.rxData } ∧
      t.dev.constants = s.dev.constants ∧
      (i = .readStatus → t.status = rx.headD 0#8) ∧ (i ≠ .readStatus → t.status = s.status) ∧
      t.rxData = if fillsBuffer i then rx else s.rxData

/-- The bytes a wire command receives are those the bus delivers, whatever they are and whatever the device is
(30_encoding.md R95: "No received byte is transformed"; 46_device_response.md R246, a scripted bus). -/
def Obligations.AnyBytesAreTakenAsDelivered : Prop :=
  ∀ (s : State) (i : Instr) (tx bs : List Byte) (a b c : BusAnswer) (rest : List BusAnswer),
    encode i = .frame tx bs.length → bs ≠ [] → s.busHandle = .held →
    a.succeeds = true → b.succeeds = true → c.succeeds = true → s.busScript = a :: b :: .data bs :: c :: rest →
    ∃ t, exec i s = .next t ∧ t.trace = s.trace ++ [.txn tx bs] ∧ t.busScript = rest ∧
      (i = .readStatus → [t.status] = bs) ∧ (fillsBuffer i = true → t.rxData = bs)

/-- How a transaction fails, stage by stage (40_wire_commands.md R121, R122): the bus calls made, the first error
reported, the event recorded and the operation stopped; a clean-up BusEnd that succeeds releases chip-select. RXDATA of a
read is free (60_exceptions.md R268). After a WriteEnable, a ReadStatus or an action frame BUSY and WEL are free at every
stage (10_state.md R38); that the device is untouched where BusBegin failed for another command, and the rest of
`Device.afterFailure`, is the model's (log entry 16), as is chip-select after a failed BusBegin or BusEnd (log entry
13). -/
def Obligations.FailedTransactions : Prop :=
  ∀ (s : State) (i : Instr) (tx : List Byte) (n : Nat) (e : BusErr) (rest : List BusAnswer), i.wellFormed = true →
    encode i = .frame tx n → s.busHandle = .held →
    (s.busScript = .err e :: rest →
      ∃ t, exec i s = .next t ∧
        t = { s.deviceTurn.failed tx n .begin e [.begin] t.chipSelect with rxData := t.rxData } ∧
        (s.chipSelect = false → t.chipSelect = false) ∧
        (unsettles i = false → t.dev = s.deviceTurn.dev) ∧ t.dev.rstArmed = s.dev.rstArmed ∧
        (unsettles i = true → BusyAndLatchOpen s.deviceTurn.draws t) ∧ (fillsBuffer i = false → t.rxData = s.rxData)) ∧
    (∀ a, a.succeeds = true → rest.headD .ok ≠ .hang → s.busScript = a :: .err e :: rest →
      ∃ t, exec i s = .next t ∧
        t = { s.deviceTurn.failed tx n .write e [.begin, .write tx, .finish] t.chipSelect with rxData := t.rxData } ∧
        ((rest.headD .ok).succeeds = true → t.chipSelect = false) ∧
        (unsettles i = true → BusyAndLatchOpen s.deviceTurn.draws t) ∧ (fillsBuffer i = false → t.rxData = s.rxData)) ∧
    (∀ a b, n ≠ 0 → a.succeeds = true → b.succeeds = true → rest.headD .ok ≠ .hang →
      s.busScript = a :: b :: .err e :: rest →
      ∃ t, exec i s = .next t ∧
        t = { s.deviceTurn.failed tx n .read e [.begin, .write tx, .read n, .finish] t.chipSelect with
          rxData := t.rxData } ∧
        ((rest.headD .ok).succeeds = true → t.chipSelect = false) ∧
        (unsettles i = true → BusyAndLatchOpen s.deviceTurn.draws t) ∧ (fillsBuffer i = false → t.rxData = s.rxData)) ∧
    (∀ a b c, a.succeeds = true → b.succeeds = true → c.succeeds = true →
      s.busScript = (if n = 0 then [a, b, .err e] else [a, b, c, .err e]) ++ rest →
      ∃ t, exec i s = .next t ∧
        t = { s.deviceTurn.failed tx n .finish e (txnCalls tx n) t.chipSelect with rxData := t.rxData } ∧
        (unsettles i = true → BusyAndLatchOpen s.deviceTurn.draws t) ∧ (fillsBuffer i = false → t.rxData = s.rxData))

/-- A bus call that never returns, whichever of the transaction's calls it is, leaves the machine stuck; so does a Sleep
that never returns (41_subprotocols.md R162; 93_implementation_defined.md U16). -/
def Obligations.HungCollaboratorIsStuck : Prop :=
  (∀ (s : State) (i : Instr) (tx : List Byte) (n : Nat) (before rest : List BusAnswer), i.wellFormed = true →
    encode i = .frame tx n → s.busHandle = .held → (∀ a ∈ before, a.succeeds = true) →
    before.length < (txnCalls tx n).length → s.busScript = before ++ .hang :: rest → exec i s = .fault .busHang) ∧
  (∀ (c : PollClass) (s : State) (rest : List SleepAnswer), s.delayHandle = .held → s.sleepScript = .hang :: rest →
    s.phase = .sleeping → pollClass s.op = some c → step s = .fault .sleepHang)

/-- Where the model stops by name: every instruction once the sequencer is released (70_reset_and_hazards.md R302); a wire
PageProgram of more than 256 bytes, which is no frame of the table (30_encoding.md R91, R99); a page_program whose LEN is
not the length of TXDATA (10_state.md R24); page_program of at most 256 bytes, sector_erase or chip_erase with a poll
bound of 0 (00_scope.md R12 excludes it; log entry 14). -/
def Obligations.StopsAreNamed : Prop :=
  (∀ (s : State) (i : Instr), s.busHandle = .released → exec i s = .refused .handleReleased) ∧
  (∀ (s : State) (a : Addr) (data : List Byte), s.busHandle = .held → 256 < data.length →
    exec (.pageProgram a data) s = .refused .frameUnknown) ∧
  (∀ (s : State) (a : Addr) (n : Nat) (data : List Byte) (rest : List HostInput), s.phase = .idle →
    s.port = .command ⟨1#3, a, n, data⟩ :: rest → n ≠ data.length →
    step s = .refused (.portMalformed .lengthMismatch)) ∧
  (∀ (s : State) (i : Instr) (c : PollClass) (cycle : Cycle), mutation i = some (c, cycle) → s.ready → s.busSucceeds →
    s.maxPolls.get c = 0 → exec i s = .fault .pollBoundZero)

/-! ### The Complete step -/

/-- The device's Complete step (46_device_response.md R239), taken while an idle sequencer waits: BUSY and WEL are
cleared together and the pending cycle's update is made (R230, R232, R234; the programmed value over a byte that is not
erased is free; that data byte `j` belongs to address `a + j` is log entry 9). An opportunity that is not taken changes
nothing but the schedule (R240). -/
def Obligations.CompleteAppliesThePendingCycle : Prop :=
  ∀ s : State, s.phase = .idle → s.port = [] → s.dev.inv → s.dev.busy = true →
    (s.schedule.headD s.scheduleEnd = false → step s = .next { s with schedule := s.schedule.tail }) ∧
    (s.schedule.headD s.scheduleEnd = true →
      ∃ t, step s = .next t ∧
        t.dev = { s.dev with mem := t.dev.mem, busy := false, wel := false, pending := none } ∧
        (∀ a, s.dev.pending = some (.sectorErase a) → s.dev.sectorBase a + s.dev.sectorSize ≤ s.dev.capacity →
          ∀ x, Memory.read s.dev.erasedByte t.dev.mem x =
            if s.dev.sectorBase a ≤ x ∧ x < s.dev.sectorBase a + s.dev.sectorSize then s.dev.erasedByte
            else Memory.read s.dev.erasedByte s.dev.mem x) ∧
        (s.dev.pending = some .chipErase → ∀ x, x < s.dev.capacity →
          Memory.read s.dev.erasedByte t.dev.mem x = s.dev.erasedByte) ∧
        (∀ a data, s.dev.pending = some (.program a data) → a.toNat + data.length ≤ s.dev.capacity →
          a.toNat % 256 + data.length ≤ 256 →
          (∀ j, j < data.length → Memory.read s.dev.erasedByte s.dev.mem (a.toNat + j) = s.dev.erasedByte →
            some (Memory.read s.dev.erasedByte t.dev.mem (a.toNat + j)) = data[j]?) ∧
          (∀ x, ¬ (a.toNat ≤ x ∧ x < a.toNat + data.length) →
            Memory.read s.dev.erasedByte t.dev.mem x = Memory.read s.dev.erasedByte s.dev.mem x)))

/-! ### read, write_enable, software_reset, the identification reads -/

/-- read(a, n) with no bus error on a device that is not busy (42_read.md R170, R172): one Read transaction, its bytes
returned and in RXDATA, byte `i` from address `a + i` (log entry 9); the whole next state. That an armed reset may be
disarmed is the model's (log entry 11). -/
def Obligations.ReadOperation : Prop :=
  ∀ (s : State) (a : Addr) (n : Nat), s.ready → s.deviceAnswers → s.deviceTurn.dev.busy = false →
    ∃ rx : List Byte, rx.length = n ∧
      (∀ i, i < n → a.toNat + i < s.dev.capacity →
        rx[i]? = some (Memory.read s.dev.erasedByte s.deviceTurn.dev.mem (a.toNat + i))) ∧
      exec (.opRead a n) s = .next { s.deviceTurn.completed (0x03#8 :: addr3 a) rx
        { s.deviceTurn.dev with
          rstArmed := s.deviceTurn.dev.rstArmed && Config.freeArmed s.deviceTurn.draws } with
        op := .read
        addr := a
        len := n
        rxData := rx
        result := .ok rx
        phase := .idle
        path := s.path ++ [.xfer, .done, .idle]
        trace := s.trace ++ [.txn (0x03#8 :: addr3 a) rx, .rsp (.ok rx)] }

/-- The complete traces of read (42_read.md R171), in every environment in which nothing hangs: one transaction, no
WriteEnable, no ReadStatus, no Sleep. -/
def Obligations.ReadTraces : Prop :=
  ∀ (s : State) (a : Addr) (n : Nat), s.ready → s.nothingHangs →
    ∃ t ev, exec (.opRead a n) s = .next t ∧ t.trace = s.trace ++ ev ++ [.rsp t.result] ∧ t.phase = .idle ∧
      OneTxnTrace (0x03#8 :: addr3 a) n id ev t.result ∧ (∀ rx, t.result = .ok rx → t.rxData = rx)

/-- write_enable() with no bus error on a device that is not busy (44_reset_write_enable.md R205): one WriteEnable
transaction, WEL <- 1; the whole next state. That an armed reset may be disarmed where WEL was 0 is the model's (log
entry 11). -/
def Obligations.WriteEnableOperation : Prop :=
  ∀ s : State, s.ready → s.busSucceeds → s.deviceTurn.dev.busy = false →
    exec .opWriteEnable s = .next { s.deviceTurn.completed [0x06#8] []
      { s.deviceTurn.dev with
        wel := true
        rstArmed := s.deviceTurn.dev.rstArmed && (s.deviceTurn.dev.wel || Config.freeArmed s.deviceTurn.draws) } with
      op := .writeEnable
      result := .ok []
      phase := .idle
      path := s.path ++ [.xfer, .done, .idle]
      trace := s.trace ++ [.txn [0x06#8] [], .rsp (.ok [])] }

/-- write_enable twice in a row: the device after the second is as after the first (44_reset_write_enable.md R207;
46_device_response.md R227, "idempotent"), and where WEL was 1 already nothing changes at all. That the first may disarm
an armed reset where WEL was 0 is the model's (log entry 11). -/
def Obligations.WriteEnableIsIdempotent : Prop :=
  ∀ s : State, s.ready → s.busSucceeds → s.dev.busy = false →
    ∃ t u, exec .opWriteEnable s = .next t ∧ exec .opWriteEnable t = .next u ∧ u.dev = t.dev ∧
      t.dev = { s.dev with wel := true, rstArmed := t.dev.rstArmed } ∧
      (s.dev.rstArmed = false → t.dev.rstArmed = false) ∧ (s.dev.wel = true → t.dev = s.dev)

/-- read_manufacturer_id() and read_jedec_id() with no bus error on a device that is not busy
(45_identification.md R210, R215): one transaction each, the constants returned in order; the whole next states. That an
armed reset may be disarmed is the model's (log entry 11). -/
def Obligations.IdentificationOperations : Prop :=
  ∀ s : State, s.ready → s.deviceAnswers → s.deviceTurn.dev.busy = false →
    exec .opReadManufacturerId s = .next { s.deviceTurn.completed [0x90#8, 0x00#8, 0x00#8, 0x00#8] [s.dev.mfrId, s.dev.devId]
      { s.deviceTurn.dev with
        rstArmed := s.deviceTurn.dev.rstArmed && Config.freeArmed s.deviceTurn.draws } with
      op := .readManufacturerId
      rxData := [s.dev.mfrId, s.dev.devId]
      result := .ok [s.dev.mfrId, s.dev.devId]
      phase := .idle
      path := s.path ++ [.xfer, .done, .idle]
      trace := s.trace ++ [.txn [0x90#8, 0x00#8, 0x00#8, 0x00#8] [s.dev.mfrId, s.dev.devId],
        .rsp (.ok [s.dev.mfrId, s.dev.devId])] } ∧
    exec .opReadJedecId s = .next { s.deviceTurn.completed [0x9F#8] [s.dev.mfrId, s.dev.memType, s.dev.capId]
      { s.deviceTurn.dev with
        rstArmed := s.deviceTurn.dev.rstArmed && Config.freeArmed s.deviceTurn.draws } with
      op := .readJedecId
      rxData := [s.dev.mfrId, s.dev.memType, s.dev.capId]
      result := .ok [s.dev.mfrId, s.dev.memType, s.dev.capId]
      phase := .idle
      path := s.path ++ [.xfer, .done, .idle]
      trace := s.trace ++ [.txn [0x9F#8] [s.dev.mfrId, s.dev.memType, s.dev.capId],
        .rsp (.ok [s.dev.mfrId, s.dev.memType, s.dev.capId])] }

/-- The complete traces of write_enable and of read_manufacturer_id (44_reset_write_enable.md R206;
45_identification.md R211): one transaction, its bytes returned raw, whatever they are. -/
def Obligations.SingleTransactionTraces : Prop :=
  ∀ s : State, s.ready → s.nothingHangs →
    (∃ t ev, exec .opWriteEnable s = .next t ∧ t.trace = s.trace ++ ev ++ [.rsp t.result] ∧
      t.path = s.path ++ [.xfer, .done, .idle] ∧ OneTxnTrace [0x06#8] 0 (fun _ => []) ev t.result) ∧
    (∃ t ev, exec .opReadManufacturerId s = .next t ∧ t.trace = s.trace ++ ev ++ [.rsp t.result] ∧
      t.path = s.path ++ [.xfer, .done, .idle] ∧ OneTxnTrace [0x90#8, 0x00#8, 0x00#8, 0x00#8] 2 id ev t.result)

/-- read_jedec_id (45_identification.md R215): the opcode alone is sent, three bytes are received and returned in order,
or the operation ends in `BusError`; its phase path. -/
def Obligations.ReadJedecIdTraces : Prop :=
  ∀ s : State, s.ready → s.nothingHangs →
    ∃ t ev, exec .opReadJedecId s = .next t ∧ t.trace = s.trace ++ ev ++ [.rsp t.result] ∧
      t.path = s.path ++ [.xfer, .done, .idle] ∧
      ((∃ manufacturer memoryType capacity, ev = [.txn [0x9F#8] [manufacturer, memoryType, capacity]] ∧
          t.result = .ok [manufacturer, memoryType, capacity]) ∨
        (∃ stage e, ev = [.txnFail stage e] ∧ t.result = .busError e))

/-- software_reset() with no bus error, on a device in any state (44_reset_write_enable.md R200): two transactions; the
device at its power-on default, the array kept outside the range of a pending cycle; nothing else of the machine
changes. That the array is kept and that the pair takes effect on a busy device is log entry 10, presumed. -/
def Obligations.SoftwareResetOperation : Prop :=
  ∀ s : State, s.ready → s.busSucceeds → s.dev.inv →
    ∃ t, exec .opSoftwareReset s = .next t ∧
      t = { s with
        op := .softwareReset
        result := .ok []
        dev := t.dev
        draws := t.draws
        schedule := t.schedule
        chipSelect := false
        busScript := s.busScript.drop 6
        calls := s.calls ++ [.begin, .write [0x66#8], .finish, .begin, .write [0x99#8], .finish]
        trace := s.trace ++ [.txn [0x66#8] [], .txn [0x99#8] [], .rsp (.ok [])]
        path := s.path ++ [.rstArm, .rstExec, .done, .idle] } ∧
      t.dev = { s.dev with mem := t.dev.mem, busy := false, wel := false, pending := none, rstArmed := false } ∧
      (s.dev.pending = none → t.dev.mem = s.dev.mem) ∧
      ∀ x, (∀ r ∈ s.dev.pendingFootprint, ¬ (r.lo ≤ x ∧ x < r.lo + r.len)) →
        Memory.read s.dev.erasedByte t.dev.mem x = Memory.read s.dev.erasedByte s.dev.mem x

/-- The complete traces of software_reset (44_reset_write_enable.md R201): EnableReset then Reset, no status poll and no
Sleep, and Reset only after EnableReset went through. -/
def Obligations.SoftwareResetTraces : Prop :=
  ∀ s : State, s.ready → s.nothingHangs →
    ∃ t ev, exec .opSoftwareReset s = .next t ∧ t.trace = s.trace ++ ev ++ [.rsp t.result] ∧ t.phase = .idle ∧
      ((ev = [.txn [0x66#8] [], .txn [0x99#8] []] ∧ t.result = .ok []) ∨
       (∃ stage e, ev = [.txnFail stage e] ∧ t.result = .busError e) ∨
       (∃ stage e, ev = [.txn [0x66#8] [], .txnFail stage e] ∧ t.result = .busError e))

/-! ### The mutating operations -/

/-- The length check of page_program (43_program_erase.md R181; 60_exceptions.md R262): more than 256 bytes end in
`InvalidLength`, on any bus and any device, without a bus call, a Sleep or a move of the device (the whole next state);
256 bytes or fewer never do, wherever they go. -/
def Obligations.OverlongProgramTouchesNothing : Prop :=
  (∀ (s : State) (a : Addr) (data : List Byte), s.ready → 256 < data.length →
    exec (.opPageProgram a data) s = .next { s with
      op := .pageProgram
      addr := a
      len := data.length
      txData := data
      result := .invalidLength
      path := s.path ++ [.check, .done, .idle]
      trace := s.trace ++ [.rsp .invalidLength] }) ∧
  (∀ (s t : State) (a : Addr) (data : List Byte), s.ready → data.length ≤ 256 →
    exec (.opPageProgram a data) s = .next t → t.result ≠ .invalidLength)

/-- Every trace a mutating operation can give, with its result (41_subprotocols.md R163, R165), in every environment in
which nothing hangs: WriteEnable first, the action frame next to it, then status reads with one Sleep between two of
them, at most MAX_POLLS[c] reads, `Timeout` exactly after that many busy ones. -/
def Obligations.MutatingTraces : Prop :=
  ∀ s : State, s.ready → s.nothingHangs → (∀ c, 1 ≤ s.maxPolls.get c) →
    (∀ (a : Addr) (data : List Byte), data.length ≤ 256 →
      ∃ t ev, exec (.opPageProgram a data) s = .next t ∧ t.trace = s.trace ++ ev ++ [.rsp t.result] ∧ t.phase = .idle ∧
        MutateTrace (0x02#8 :: (addr3 a ++ data)) s.maxPolls.pp s.pollDelay.pp ev t.result) ∧
    (∀ a : Addr,
      ∃ t ev, exec (.opSectorErase a) s = .next t ∧ t.trace = s.trace ++ ev ++ [.rsp t.result] ∧ t.phase = .idle ∧
        MutateTrace (0x20#8 :: addr3 a) s.maxPolls.se s.pollDelay.se ev t.result) ∧
    (∃ t ev, exec .opChipErase s = .next t ∧ t.trace = s.trace ++ ev ++ [.rsp t.result] ∧ t.phase = .idle ∧
      MutateTrace [0xC7#8] s.maxPolls.ce s.pollDelay.ce ev t.result)

/-- The count of polls (41_subprotocols.md R159) for page_program of at most 256 bytes, sector_erase and chip_erase, each
with its class, on an idle device: where the device lets `K < MAX_POLLS[c]` opportunities pass before it completes, `Ok`
after exactly `K + 1` status reads and `K` Sleeps; where it lets more pass, or never completes, `Timeout` after exactly
`MAX_POLLS[c]` reads and one Sleep fewer. That an opportunity comes before each transaction, and the schedule, are the
model's (log entry 5). -/
def Obligations.BusyWaitCountsPolls : Prop :=
  ∀ (s : State) (i : Instr) (c : PollClass) (cycle : Cycle), mutation i = some (c, cycle) → s.ready → s.deviceAnswers →
    s.sleepsReturn → 1 ≤ s.maxPolls.get c → s.dev.idle →
    ∃ t ev, exec i s = .next t ∧ t.trace = s.trace ++ ev ++ [.rsp t.result] ∧
      (∀ K, s.completesAfter K → K < s.maxPolls.get c →
        t.result = .ok [] ∧ ev.countP isTransaction = 2 + (K + 1) ∧ ev.countP isSleep = K ∧ t.pollCnt = K + 1) ∧
      (¬ s.completesWithin (s.maxPolls.get c) →
        t.result = .timeout ∧ ev.countP isTransaction = 2 + s.maxPolls.get c ∧
        ev.countP isSleep = s.maxPolls.get c - 1 ∧ t.pollCnt = s.maxPolls.get c)

/-- page_program that completes in time (43_program_erase.md R180; 46_device_response.md R230): `Ok`, BUSY = 0, WEL = 0;
inside the array and one page each byte of the range is the new one combined with the old, and every other byte of
memory is unchanged; otherwise every byte outside the frame's target is (U3, U9). RXDATA, the configuration and the
host's inputs are unchanged. That byte `x` takes `data[x - a]` is log entry 9, and that a program of no data runs a cycle
and so clears WEL is log entry 12. -/
def Obligations.PageProgramOperation : Prop :=
  ∀ (s : State) (a : Addr) (data : List Byte), s.ready → s.deviceAnswers → s.sleepsReturn → s.dev.inv → s.dev.idle →
    data.length ≤ 256 → s.completesWithin s.maxPolls.pp →
    ∃ t, exec (.opPageProgram a data) s = .next t ∧
      t = { s with
        op := .pageProgram, addr := a, len := data.length, txData := data, result := .ok [], pollCnt := t.pollCnt
        status := t.status, dev := t.dev, draws := t.draws, schedule := t.schedule, chipSelect := false
        busScript := t.busScript, sleepScript := t.sleepScript, calls := t.calls, trace := t.trace, path := t.path } ∧
      isBusy t.status = false ∧ t.dev.busy = false ∧ t.dev.wel = false ∧ t.dev.pending = none ∧
      t.dev.constants = s.dev.constants ∧
      (a.toNat + data.length ≤ s.dev.capacity → a.toNat % 256 + data.length ≤ 256 →
        ∀ x, Memory.read s.dev.erasedByte t.dev.mem x =
          if a.toNat ≤ x ∧ x < a.toNat + data.length then
            s.dev.programCombine (Memory.read s.dev.erasedByte s.dev.mem x) (data.getD (x - a.toNat) 0#8)
          else Memory.read s.dev.erasedByte s.dev.mem x) ∧
      (∀ x, (∀ r ∈ s.dev.footprint (.program a data), ¬ (r.lo ≤ x ∧ x < r.lo + r.len)) →
        Memory.read s.dev.erasedByte t.dev.mem x = Memory.read s.dev.erasedByte s.dev.mem x)

/-- sector_erase that completes in time (43_program_erase.md R185; 46_device_response.md R232): `Ok`, BUSY = 0, WEL = 0;
the sector containing `a`, wherever in it `a` lies, reads as erased, and every other byte of memory is unchanged. -/
def Obligations.SectorEraseOperation : Prop :=
  ∀ (s : State) (a : Addr), s.ready → s.deviceAnswers → s.sleepsReturn → s.dev.inv → s.dev.idle →
    s.completesWithin s.maxPolls.se →
    ∃ t, exec (.opSectorErase a) s = .next t ∧
      t = { s with
        op := .sectorErase, addr := a, result := .ok [], pollCnt := t.pollCnt
        status := t.status, dev := t.dev, draws := t.draws, schedule := t.schedule, chipSelect := false
        busScript := t.busScript, sleepScript := t.sleepScript, calls := t.calls, trace := t.trace, path := t.path } ∧
      isBusy t.status = false ∧ t.dev.busy = false ∧ t.dev.wel = false ∧ t.dev.pending = none ∧
      t.dev.constants = s.dev.constants ∧
      (s.dev.sectorBase a + s.dev.sectorSize ≤ s.dev.capacity →
        ∀ x, Memory.read s.dev.erasedByte t.dev.mem x =
          if s.dev.sectorBase a ≤ x ∧ x < s.dev.sectorBase a + s.dev.sectorSize then s.dev.erasedByte
          else Memory.read s.dev.erasedByte s.dev.mem x)

/-- chip_erase that completes in time (43_program_erase.md R190; 46_device_response.md R234): `Ok`, BUSY = 0, WEL = 0,
and every byte of the array reads as erased. -/
def Obligations.ChipEraseOperation : Prop :=
  ∀ s : State, s.ready → s.deviceAnswers → s.sleepsReturn → s.dev.inv → s.dev.idle →
    s.completesWithin s.maxPolls.ce →
    ∃ t, exec .opChipErase s = .next t ∧
      t = { s with
        op := .chipErase, result := .ok [], pollCnt := t.pollCnt
        status := t.status, dev := t.dev, draws := t.draws, schedule := t.schedule, chipSelect := false
        busScript := t.busScript, sleepScript := t.sleepScript, calls := t.calls, trace := t.trace, path := t.path } ∧
      isBusy t.status = false ∧ t.dev.busy = false ∧ t.dev.wel = false ∧ t.dev.pending = none ∧
      t.dev.constants = s.dev.constants ∧
      ∀ x, x < s.dev.capacity → Memory.read s.dev.erasedByte t.dev.mem x = s.dev.erasedByte

/-- The round trip (46_device_response.md R242): page_program, then read of the same range, returns the data. -/
def Obligations.ProgramThenReadRoundTrip : Prop :=
  ∀ (s : State) (a : Addr) (data : List Byte), s.ready → s.deviceAnswers → s.sleepsReturn → s.dev.inv → s.dev.idle →
    data.length ≤ 256 → a.toNat + data.length ≤ s.dev.capacity → a.toNat % 256 + data.length ≤ 256 →
    (∀ j, j < data.length → Memory.read s.dev.erasedByte s.dev.mem (a.toNat + j) = s.dev.erasedByte) →
    s.completesWithin s.maxPolls.pp →
    ∃ t u, exec (.opPageProgram a data) s = .next t ∧ t.result = .ok [] ∧
      exec (.opRead a data.length) t = .next u ∧ u.result = .ok data ∧ u.rxData = data

/-- A Timeout leaves BUSY and WEL unresolved and the array as it was outside the target (10_state.md R38; 60_exceptions.md
R263): what is known after a page_program of at most 256 bytes, a sector_erase or a chip_erase that times out, the device
answering for itself (log entry 15). -/
def Obligations.TimeoutLeavesTheTargetOpen : Prop :=
  ∀ (s : State) (i : Instr) (c : PollClass) (cycle : Cycle), mutation i = some (c, cycle) → s.ready → s.deviceAnswers →
    s.sleepsReturn → s.dev.inv → s.dev.idle → 1 ≤ s.maxPolls.get c → ¬ s.completesWithin (s.maxPolls.get c) →
    ∃ t, exec i s = .next t ∧ t.result = .timeout ∧ t.phase = .idle ∧
      (t.dev.pending = none ∨ t.dev.pending = some cycle) ∧ t.dev.busy = t.dev.pending.isSome ∧
      ∀ x, (∀ r ∈ s.dev.footprint cycle, ¬ (r.lo ≤ x ∧ x < r.lo + r.len)) →
        Memory.read s.dev.erasedByte t.dev.mem x = Memory.read s.dev.erasedByte s.dev.mem x

/-- The poll that raises Timeout, whatever the device holds and whatever status bytes the bus delivered: BUSY and WEL are
free values (10_state.md R38; 41_subprotocols.md R161; 60_exceptions.md R263; 93_implementation_defined.md U5), and the
array reads as before outside the target range and the range of a cycle that was pending (log entry 15). -/
def Obligations.TimeoutLeavesBusyAndLatchOpen : Prop :=
  ∀ s t : State, s.phase = .poll → s.dev.inv → step s = .next t → t.phase = .done → t.result = .timeout →
    BusyAndLatchOpen (t.draws - 1) t ∧ t.dev.inv ∧
    ∀ x, (∀ r ∈ s.dev.pendingFootprint ++ s.target, ¬ (r.lo ≤ x ∧ x < r.lo + r.len)) →
      Memory.read s.dev.erasedByte t.dev.mem x = Memory.read s.dev.erasedByte s.dev.mem x

/-! ### Whole-machine rules -/

/-- Every host operation gives its response, in every environment in which nothing hangs (41_subprotocols.md R162;
70_reset_and_hazards.md R322). -/
def Obligations.EveryOperationResponds : Prop :=
  ∀ (i : Instr) (s : State), isHostOp i = true → s.ready → s.nothingHangs → (∀ c, 1 ≤ s.maxPolls.get c) →
    ∃ t, exec i s = .next t ∧ t.phase = .idle

/-- An operation gives one response, as its last event, and is idle again (60_exceptions.md R264, R266); the response is
RESULT, of a kind the operation may end with (R260); at most `2 + MAX_POLLS[c]` transactions are made, 2 where the
operation does not poll (41_subprotocols.md R162). -/
def Obligations.OneResponsePerOperation : Prop :=
  ∀ (i : Instr) (s t : State), isHostOp i = true → s.phase = .idle → exec i s = .next t →
    t.phase = .idle ∧
    ∃ ev, t.trace = s.trace ++ ev ++ [.rsp t.result] ∧ (∀ e ∈ ev, isResponse e = false) ∧
      resultAllowed i t.result = true ∧
      ev.countP isTransaction ≤ 2 + (match pollClass t.op with | some c => s.maxPolls.get c | none => 0)

/-- A bus error ends the operation, with the transport's own error value and nothing after it (60_exceptions.md R261): in
any host operation `BusError e` is the result exactly where a bus call it made failed, `e` being the first such error; a
failed transaction is the last event before the response, which carries that very error. -/
def Obligations.BusErrorsEndTheOperation : Prop :=
  ∀ (i : Instr) (s t : State), isHostOp i = true → s.phase = .idle → exec i s = .next t →
    ∃ ev cs, t.trace = s.trace ++ ev ++ [.rsp t.result] ∧ t.calls = s.calls ++ cs ∧
      (∀ e, t.result = .busError e ↔ firstError (s.busScript.take cs.length) = some e) ∧
      (∀ before stage e after, ev = before ++ .txnFail stage e :: after → after = [] ∧ t.result = .busError e) ∧
      (∀ e, t.result = .busError e → ∃ before stage, ev = before ++ [.txnFail stage e])

/-- The result and the events of an operation depend on the configuration and on the answers of the bus, the delay and
the device alone (10_state.md R21): two states that agree on those, and on the count of free draws (log entry 37), give
the same, whatever ran before. -/
def Obligations.HistoryDoesNotMatter : Prop :=
  ∀ (i : Instr) (s s' t : State), isHostOp i = true → SameEnvironment s s' → s.phase = .idle → exec i s = .next t →
    ∃ t' ev cs, exec i s' = .next t' ∧ SameEnvironment t t' ∧ t'.result = t.result ∧
      t.trace = s.trace ++ ev ∧ t'.trace = s'.trace ++ ev ∧ t.calls = s.calls ++ cs ∧ t'.calls = s'.calls ++ cs

/-- The read commands change nothing on a device that is not busy and has no reset armed, but for the fresh draw of
StatusRegister bits 7:2 (20_memory.md R71). -/
def Obligations.ReadsLeaveTheDeviceAlone : Prop :=
  ∀ (s t : State) (i : Instr), (i = .readStatus ∨ fillsBuffer i = true) → s.busHandle = .held → s.busSucceeds →
    s.dev.busy = false → s.dev.rstArmed = false → exec i s = .next t →
    t.dev = { s.dev with statusHigh := t.dev.statusHigh } ∧ (i ≠ .readStatus → t.dev = s.dev)
end

