-- ==== Sys2Proof/Laws/Decode.lean ====
section
/-! SUPPORT. The decoder on the encoder's words: address framing, and one lemma for each of the eighteen encodings. -/

namespace Sys2Proof

theorem addr3_eq (a : Addr) : addr3 a = [a.extractLsb' 16 8, a.extractLsb' 8 8, a.extractLsb' 0 8] := rfl

@[simp] theorem addr3_length (a : Addr) : (addr3 a).length = 3 := rfl

/-- The device reads back the address the sequencer framed. -/
@[simp] theorem addrOf_addr3 (a : Addr) :
    addrOf (a.extractLsb' 16 8) (a.extractLsb' 8 8) (a.extractLsb' 0 8) = a := by
  apply BitVec.eq_of_getLsbD_eq
  intro i hi
  simp only [addrOf, BitVec.getLsbD_append, BitVec.getLsbD_extractLsb']
  by_cases h1 : i < 8
  · simp [h1]
  · by_cases h2 : i - 8 < 8
    · have h4 : 8 + (i - 8) = i := by omega
      simp [h1, h2, h4]
    · have h3 : i - 8 - 8 < 8 := by omega
      have h4 : 16 + (i - 8 - 8) = i := by omega
      simp [h1, h2, h3, h4]

/-- The bytes of an address the device assembled are the ones it received. -/
theorem addr3_addrOf (b1 b2 b3 : Byte) : addr3 (addrOf b1 b2 b3) = [b1, b2, b3] := by
  simp only [addr3, List.cons.injEq, and_true]
  refine ⟨?_, ?_, ?_⟩ <;>
  · apply BitVec.eq_of_getLsbD_eq
    intro i hi
    simp only [addrOf, BitVec.getLsbD_extractLsb', BitVec.getLsbD_append, hi, decide_true, Bool.true_and]
    have h1 : ¬ (16 + i < 8) := by omega
    have h2 : ¬ (16 + i - 8 < 8) := by omega
    have h3 : ¬ (8 + i < 8) := by omega
    have h4 : 8 + i - 8 < 8 := by omega
    have h6 : 16 + i - 8 - 8 = i := by omega
    have h7 : 8 + i - 8 = i := by omega
    simp [h1, h2, h3, h6, h7, hi]

theorem decode_writeEnable : decode (encode .writeEnable) = .ok .writeEnable := rfl
theorem decode_readStatus : decode (encode .readStatus) = .ok .readStatus := rfl
theorem decode_read (a : Addr) (n : Nat) : decode (encode (.read a n)) = .ok (.read a n) := by
  simp [decode, encode, decodeFrame, decodeRead, addr3_eq]
theorem decode_pageProgram (a : Addr) (data : List Byte) (h : data.length ≤ Config.pageSize) :
    decode (encode (.pageProgram a data)) = .ok (.pageProgram a data) := by
  simp [decode, encode, decodeFrame, decodePageProgram, addr3_eq, h]
theorem decode_sectorErase (a : Addr) : decode (encode (.sectorErase a)) = .ok (.sectorErase a) := by
  simp [decode, encode, decodeFrame, decodeSectorErase, addr3_eq]
theorem decode_chipErase : decode (encode .chipErase) = .ok .chipErase := rfl
theorem decode_enableReset : decode (encode .enableReset) = .ok .enableReset := rfl
theorem decode_reset : decode (encode .reset) = .ok .reset := rfl
theorem decode_readManufacturerId : decode (encode .readManufacturerId) = .ok .readManufacturerId := rfl
theorem decode_readJedecId : decode (encode .readJedecId) = .ok .readJedecId := rfl
theorem decode_opRead (a : Addr) (n : Nat) : decode (encode (.opRead a n)) = .ok (.opRead a n) := rfl
theorem decode_opPageProgram (a : Addr) (data : List Byte) :
    decode (encode (.opPageProgram a data)) = .ok (.opPageProgram a data) := by
  simp [decode, encode, decodeCommand, HostOp.code, HostOp.ofCode]
theorem decode_opSectorErase (a : Addr) : decode (encode (.opSectorErase a)) = .ok (.opSectorErase a) := rfl
theorem decode_opChipErase : decode (encode .opChipErase) = .ok .opChipErase := rfl
theorem decode_opSoftwareReset : decode (encode .opSoftwareReset) = .ok .opSoftwareReset := rfl
theorem decode_opWriteEnable : decode (encode .opWriteEnable) = .ok .opWriteEnable := rfl
theorem decode_opReadManufacturerId : decode (encode .opReadManufacturerId) = .ok .opReadManufacturerId := rfl
theorem decode_opReadJedecId : decode (encode .opReadJedecId) = .ok .opReadJedecId := rfl

/-! ### What each part of the wire decoder answers -/

theorem decodeBare_ok {op : Byte} {i j : Instr} {k n : Nat} {args : List Byte}
    (h : decodeBare op i k args n = .ok j) : j = i ∧ args = [] ∧ n = k := by
  unfold decodeBare at h
  split at h
  · cases h; exact ⟨rfl, by assumption⟩
  · cases h

theorem decodeRead_ok {n : Nat} {args : List Byte} {j : Instr} (h : decodeRead args n = .ok j) :
    ∃ b1 b2 b3, args = [b1, b2, b3] ∧ j = .read (addrOf b1 b2 b3) n := by
  unfold decodeRead at h
  split at h
  · cases h; exact ⟨_, _, _, rfl, rfl⟩
  · cases h

theorem decodePageProgram_ok {n : Nat} {args : List Byte} {j : Instr} (h : decodePageProgram args n = .ok j) :
    ∃ b1 b2 b3 data, args = b1 :: b2 :: b3 :: data ∧ n = 0 ∧ data.length ≤ Config.pageSize ∧
      j = .pageProgram (addrOf b1 b2 b3) data := by
  unfold decodePageProgram at h
  split at h
  · split at h
    · cases h
    · split at h
      · cases h
        exact ⟨_, _, _, _, rfl, by omega, by assumption, rfl⟩
      · cases h
  · cases h

theorem decodeSectorErase_ok {n : Nat} {args : List Byte} {j : Instr} (h : decodeSectorErase args n = .ok j) :
    ∃ b1 b2 b3, args = [b1, b2, b3] ∧ n = 0 ∧ j = .sectorErase (addrOf b1 b2 b3) := by
  unfold decodeSectorErase at h
  split at h
  · split at h
    · cases h; exact ⟨_, _, _, rfl, by assumption, rfl⟩
    · cases h
  · cases h

theorem decodeReadManufacturerId_ok {n : Nat} {args : List Byte} {j : Instr}
    (h : decodeReadManufacturerId args n = .ok j) :
    args = [Config.dummy, Config.dummy, Config.dummy] ∧ n = 2 ∧ j = .readManufacturerId := by
  unfold decodeReadManufacturerId at h
  split at h
  · split at h
    · cases h
    · split at h
      · rename_i hd
        cases h
        obtain ⟨rfl, rfl, rfl⟩ := hd
        exact ⟨rfl, by omega, rfl⟩
      · cases h
  · cases h

end Sys2Proof
end

