-- ==== Sys2Proof/Laws/Memory.lean ====
section
/-! SUPPORT. The laws of the flash array: reading after a write, an update or an erase, and the canonical form, which
each of them keeps. -/

namespace Sys2Proof.Machine

variable {fill : Byte} {cap : Nat}

theorem Memory.wf_nil : Memory.wf fill cap [] := by simp [Memory.wf]

theorem Memory.wf_tail {c : Host.Cell} {m : Memory} (h : Memory.wf fill cap (c :: m)) : Memory.wf fill cap m :=
  ⟨(List.pairwise_cons.mp h.1).2, fun x hx => h.2 x (List.mem_cons_of_mem _ hx)⟩

/-- An address below every entry reads as `fill`. -/
theorem Memory.read_below {m : Memory} {a : Nat} (h : ∀ c ∈ m, a < c.1) : Memory.read fill m a = fill := by
  induction m with
  | nil => rfl
  | cons c m ih =>
    have hc := h c (by simp)
    simp only [Memory.read]
    rw [if_neg (by omega)]
    exact ih (fun x hx => h x (by simp [hx]))

/-- The entries after a write: those there before, and the one written. -/
theorem Memory.mem_write {m : Memory} {a : Nat} {v : Byte} {c : Host.Cell} (h : c ∈ Memory.write fill m a v) :
    c ∈ m ∨ (c = (a, v) ∧ v ≠ fill) := by
  induction m with
  | nil =>
    simp only [Memory.write] at h
    split at h
    · simp at h
    · simp_all
  | cons d m ih =>
    obtain ⟨b, w⟩ := d
    simp only [Memory.write] at h
    split at h
    · split at h
      · exact .inl h
      · rcases List.mem_cons.mp h with rfl | h
        · exact .inr ⟨rfl, by assumption⟩
        · exact .inl h
    · split at h
      · split at h
        · exact .inl (List.mem_cons_of_mem _ h)
        · rcases List.mem_cons.mp h with rfl | h
          · exact .inr ⟨rfl, by assumption⟩
          · exact .inl (List.mem_cons_of_mem _ h)
      · rcases List.mem_cons.mp h with rfl | h
        · exact .inl (by simp)
        · rcases ih h with h | h
          · exact .inl (List.mem_cons_of_mem _ h)
          · exact .inr h

/-- A write keeps the canonical form. -/
theorem Memory.wf_write {m : Memory} {a : Nat} {v : Byte} (h : Memory.wf fill cap m) (ha : a < cap) :
    Memory.wf fill cap (Memory.write fill m a v) := by
  refine ⟨?_, fun c hc => ?_⟩
  · induction m with
    | nil => simp only [Memory.write]; split <;> simp
    | cons d m ih =>
      obtain ⟨b, w⟩ := d
      have hp := List.pairwise_cons.mp h.1
      simp only [Memory.write]
      split
      · split
        · exact h.1
        · refine List.pairwise_cons.mpr ⟨fun x hx => ?_, h.1⟩
          rcases List.mem_cons.mp hx with rfl | hx
          · assumption
          · exact Nat.lt_trans (by assumption) (hp.1 x hx)
      · split
        · subst_vars
          split
          · exact hp.2
          · exact List.pairwise_cons.mpr ⟨fun x hx => hp.1 x hx, hp.2⟩
        · refine List.pairwise_cons.mpr ⟨fun x hx => ?_, ih (Memory.wf_tail h)⟩
          rcases Memory.mem_write hx with hx | ⟨rfl, -⟩
          · exact hp.1 x hx
          · show b < a; omega
  · rcases Memory.mem_write hc with hc | ⟨rfl, hv⟩
    · exact h.2 c hc
    · exact ⟨hv, ha⟩

/-- A read after a write: the byte written, or what was there. -/
theorem Memory.read_write {m : Memory} {a x : Nat} {v : Byte} (h : Memory.wf fill cap m) :
    Memory.read fill (Memory.write fill m a v) x = if x = a then v else Memory.read fill m x := by
  induction m with
  | nil =>
    simp only [Memory.write]
    split
    · subst_vars; simp [Memory.read]
    · rfl
  | cons d m ih =>
    obtain ⟨b, w⟩ := d
    have hp := List.pairwise_cons.mp h.1
    have hlow : ∀ y, y ≤ b → Memory.read fill m y = fill := fun y hy =>
      Memory.read_below (fun c hc => Nat.lt_of_le_of_lt hy (hp.1 c hc))
    have := ih (Memory.wf_tail h)
    simp only [Memory.write]
    split
    · split
      · subst_vars
        by_cases hx : x = a
        · subst hx
          simp only [Memory.read, if_true]
          rw [if_neg (by omega), hlow x (by omega)]
        · simp [hx]
      · simp [Memory.read]
    · split
      · subst_vars
        split
        · subst_vars
          by_cases hx : x = b
          · subst hx; simp [hlow x (Nat.le_refl x)]
          · simp [Memory.read, hx]
        · simp only [Memory.read]; split <;> rfl
      · simp only [Memory.read, this]
        by_cases hx : x = b
        · subst hx; simp only [if_true]; rw [if_neg (by omega)]
        · simp [hx]

/-- An update keeps the canonical form. -/
theorem Memory.wf_update {g : Nat → Byte} {lo len : Nat} {m : Memory} (h : Memory.wf fill cap m) :
    Memory.wf fill cap (Memory.update fill cap g lo len m) := by
  induction len with
  | zero => exact h
  | succ len ih =>
    simp only [Memory.update]
    split
    · exact Memory.wf_write ih (by assumption)
    · exact ih

/-- A read after an update: the new byte inside its range and the array, what was there elsewhere. -/
theorem Memory.read_update {g : Nat → Byte} {lo len x : Nat} {m : Memory} (h : Memory.wf fill cap m) :
    Memory.read fill (Memory.update fill cap g lo len m) x =
      if lo ≤ x ∧ x < lo + len ∧ x < cap then g x else Memory.read fill m x := by
  induction len with
  | zero => simp only [Memory.update]; rw [if_neg (by omega)]
  | succ len ih =>
    simp only [Memory.update]
    split
    · rw [Memory.read_write (Memory.wf_update h), ih]
      by_cases hx : x = lo + len
      · subst hx; rw [if_pos rfl, if_pos (by omega)]
      · rw [if_neg hx]
        by_cases hr : lo ≤ x ∧ x < lo + len ∧ x < cap
        · rw [if_pos hr, if_pos (by omega)]
        · rw [if_neg hr, if_neg (by omega)]
    · rw [ih]
      by_cases hr : lo ≤ x ∧ x < lo + len ∧ x < cap
      · rw [if_pos hr, if_pos (by omega)]
      · rw [if_neg hr, if_neg (by omega)]

/-- An erase keeps the canonical form. -/
theorem Memory.wf_erase {lo len : Nat} {m : Memory} (h : Memory.wf fill cap m) :
    Memory.wf fill cap (Memory.erase lo len m) :=
  ⟨h.1.sublist List.filter_sublist, fun c hc => h.2 c (List.mem_filter.mp hc).1⟩

/-- A read after an erase: `fill` inside its range, what was there elsewhere. -/
theorem Memory.read_erase {lo len x : Nat} {m : Memory} :
    Memory.read fill (Memory.erase lo len m) x =
      if lo ≤ x ∧ x < lo + len then fill else Memory.read fill m x := by
  induction m with
  | nil => simp [Memory.erase, Memory.read]
  | cons d m ih =>
    obtain ⟨b, w⟩ := d
    simp only [Memory.erase, List.filter_cons] at ih ⊢
    by_cases hb : lo ≤ b ∧ b < lo + len
    · simp only [hb.1, hb.2, decide_true, Bool.and_self, Bool.not_true, if_false, Bool.false_eq_true, ih, Memory.read]
      by_cases hx : x = b
      · subst hx; simp [hb]
      · simp [hx]
    · have : (!(decide (lo ≤ b) && decide (b < lo + len))) = true := by simp; omega
      simp only [this, if_true, Memory.read, ih]
      by_cases hx : x = b
      · subst hx; rw [if_pos rfl, if_neg hb, if_pos rfl]
      · simp [hx]

end Sys2Proof.Machine
end

