-- ==== Sys2Proof/Laws/Device.lean ====
section
/-! SUPPORT. The device: what its responses have in common, its invariant, and the array after a cycle. -/

namespace Sys2Proof.Machine

/-! ### Bytes -/

@[simp] theorem bytesFrom_length (f : Nat → Byte) (n : Nat) : (bytesFrom f n).length = n := by simp [bytesFrom]

@[simp] theorem bytesFrom_getElem (f : Nat → Byte) (n i : Nat) (h : i < (bytesFrom f n).length) :
    (bytesFrom f n)[i] = f i := by simp [bytesFrom]

theorem deliver_length {a : BusAnswer} {rx : List Byte} {n k : Nat} (h : rx.length = n) :
    (deliver a rx n k).length = n := by
  cases a <;> simp [deliver, h]

@[simp] theorem deliver_ok (rx : List Byte) (n k : Nat) : deliver .ok rx n k = rx := rfl

/-- A scripted bus that names every byte of a read delivers just those bytes. -/
theorem deliver_data (bs rx : List Byte) (k : Nat) : deliver (.data bs) rx bs.length k = bs := by
  apply List.ext_getElem
  · simp [deliver]
  · intro i h1 h2
    simp [deliver, h2]

/-! ### The status byte -/

theorem statusByte_busy (high : BitVec 6) (wel busy : Bool) : isBusy (statusByte high wel busy) = busy := by
  revert high wel busy; decide

theorem statusByte_latched (high : BitVec 6) (wel busy : Bool) : isLatched (statusByte high wel busy) = wel := by
  revert high wel busy; decide

/-! ### Scrambling -/

theorem scramble_wf {d : Device} {k : Nat} {rs : List Range} (h : Memory.wf d.erasedByte d.capacity d.mem) :
    Memory.wf d.erasedByte d.capacity (d.scramble k rs) := by
  unfold Device.scramble
  generalize d.mem = m at h ⊢
  induction rs generalizing m with
  | nil => exact h
  | cons r rs ih => exact ih (Memory.update _ _ _ _ _ _) (Memory.wf_update h)

/-- Outside its ranges a scrambled array reads as before. -/
theorem read_scramble {d : Device} {k x : Nat} {rs : List Range} (h : Memory.wf d.erasedByte d.capacity d.mem)
    (hx : ∀ r ∈ rs, ¬ (r.lo ≤ x ∧ x < r.lo + r.len)) :
    Memory.read d.erasedByte (d.scramble k rs) x = Memory.read d.erasedByte d.mem x := by
  unfold Device.scramble
  generalize d.mem = m at h ⊢
  induction rs generalizing m with
  | nil => rfl
  | cons r rs ih =>
    rw [List.foldl_cons, ih (fun q hq => hx q (by simp [hq])) _ (Memory.wf_update h), Memory.read_update h,
      if_neg (fun hc => hx r (by simp) ⟨hc.1, hc.2.1⟩)]

/-! ### The constants of the device -/

theorem constants_fields {d e : Device} (h : d.constants = e.constants) :
    d.mfrId = e.mfrId ∧ d.devId = e.devId ∧ d.memType = e.memType ∧ d.capId = e.capId ∧ d.capacity = e.capacity ∧
      d.sectorBits = e.sectorBits ∧ d.erasedByte = e.erasedByte := by
  simpa [Device.constants] using h

theorem constants_extent {d e : Device} (h : d.constants = e.constants) : d.extent = e.extent :=
  Fin.ext (constants_fields h).2.2.2.2.1

/-- CAPACITY is at most 2^24 (00_scope.md R17). -/
theorem capacity_le (d : Device) : d.capacity ≤ 2 ^ 24 := Nat.le_of_lt_succ d.extent.isLt

theorem constants_complete (d : Device) (k : Nat) : (d.complete k).constants = d.constants := rfl
theorem constants_anything (d : Device) (k : Nat) : (d.anything k).constants = d.constants := rfl
theorem constants_takeReset (d : Device) (k : Nat) : (d.takeReset k).constants = d.constants := by
  unfold Device.takeReset; split <;> rfl
theorem constants_takeAction (d : Device) (k : Nat) (c : Cycle) : (d.takeAction k c).constants = d.constants := by
  unfold Device.takeAction; split <;> [rfl; (split <;> rfl)]
theorem constants_takeWriteEnable (d : Device) (k : Nat) : (d.takeWriteEnable k).constants = d.constants := by
  unfold Device.takeWriteEnable; split <;> [rfl; (split <;> rfl)]
theorem constants_takeRead (d : Device) (k : Nat) : (d.takeRead k).constants = d.constants := by
  unfold Device.takeRead; split <;> rfl
theorem constants_maybeMutated (d : Device) (k : Nat) (rs : List Range) :
    (d.maybeMutated k rs).constants = d.constants := by
  unfold Device.maybeMutated; split <;> rfl
theorem constants_unresolve (d : Device) (k : Nat) (rs : List Range) :
    (d.unresolve k rs).constants = d.constants := by
  unfold Device.unresolve; split <;> rfl

theorem constants_respond {d e : Device} {k : Nat} {i : Instr} {rx : List Byte} (h : d.respond k i = some (rx, e)) :
    e.constants = d.constants := by
  cases i <;> simp only [Device.respond, Option.some.injEq, Prod.mk.injEq, reduceCtorEq] at h <;>
    obtain ⟨-, rfl⟩ := h <;>
    first
    | rfl
    | exact constants_takeWriteEnable ..
    | exact constants_takeAction ..
    | exact constants_takeRead ..
    | exact constants_takeReset ..

theorem constants_afterPartial (d : Device) (k : Nat) (rs : List Range) (i : Instr) :
    (d.afterPartial k rs i).constants = d.constants := by
  cases i <;> simp only [Device.afterPartial] <;>
    first
    | rfl
    | exact constants_maybeMutated ..
    | exact constants_takeRead ..
    | (split <;> [exact constants_takeReset ..; rfl])

theorem constants_afterNoBegin (d : Device) (k : Nat) (rs : List Range) (i : Instr) :
    (d.afterNoBegin k rs i).constants = d.constants := by
  cases i <;> rfl

theorem constants_afterFailure (d : Device) (k : Nat) (rs : List Range) (st : Stage) (tx : List Byte) (n : Nat) :
    (d.afterFailure k rs st tx n).constants = d.constants := by
  unfold Device.afterFailure
  split
  · rfl
  · cases st <;> first | exact constants_afterNoBegin .. | exact constants_afterPartial ..

/-! ### BUSY and WEL left open -/

/-- After a Timeout BUSY and WEL are free values, whatever the device held. -/
theorem unresolve_open (d : Device) (k : Nat) (rs : List Range) :
    (d.unresolve k rs).busy = Config.freeBusy k ∧ (d.unresolve k rs).wel = Config.freeWel k := by
  unfold Device.unresolve
  split <;> simp [*]

/-- Outside the target range and the range of a pending cycle a Timeout leaves the array as it was. -/
theorem read_unresolve {d : Device} {k x : Nat} {rs : List Range} (h : Memory.wf d.erasedByte d.capacity d.mem)
    (hx : ∀ r ∈ d.pendingFootprint ++ rs, ¬ (r.lo ≤ x ∧ x < r.lo + r.len)) :
    Memory.read d.erasedByte (d.unresolve k rs).mem x = Memory.read d.erasedByte d.mem x := by
  unfold Device.unresolve
  split
  · rfl
  · exact read_scramble h hx

/-- After a failed WriteEnable, ReadStatus or action transaction BUSY and WEL are free values, at every stage. -/
theorem afterFailure_open {d : Device} {k n : Nat} {rs : List Range} {st : Stage} {tx : List Byte} {i : Instr}
    (hd : decodeFrame tx n = .ok i) (h : unsettles i = true) :
    (d.afterFailure k rs st tx n).busy = Config.freeBusy k ∧ (d.afterFailure k rs st tx n).wel = Config.freeWel k := by
  have hp : (d.afterPartial k rs i).busy = Config.freeBusy k ∧ (d.afterPartial k rs i).wel = Config.freeWel k := by
    cases i <;> cases h <;> simp only [Device.afterPartial, Device.maybeMutated] <;>
      first
      | exact ⟨rfl, rfl⟩
      | (split <;> exact ⟨rfl, rfl⟩)
  simp only [Device.afterFailure, hd]
  cases st
  · cases i <;> cases h <;> exact ⟨rfl, rfl⟩
  all_goals exact hp

/-! ### The device invariant -/

theorem inv_anything {d : Device} {k : Nat} (h : d.inv) : (d.anything k).inv := by
  refine ⟨scramble_wf (d := d) h.1, ?_⟩
  show Config.freeBusy k = Option.isSome (if Config.freeBusy k then _ else _)
  cases Config.freeBusy k <;> rfl

theorem inv_disarm {d : Device} {k : Nat} (h : d.inv) : (d.disarm k).inv := h

theorem inv_unsettle {d : Device} {k : Nat} {rs : List Range} (h : d.inv) : (d.unsettle k rs).inv := by
  refine ⟨scramble_wf (d := d) h.1, ?_⟩
  show Config.freeBusy k = Option.isSome (if Config.freeBusy k then _ else _)
  cases Config.freeBusy k <;> rfl

theorem inv_unresolve {d : Device} {k : Nat} {rs : List Range} (h : d.inv) : (d.unresolve k rs).inv := by
  unfold Device.unresolve
  split
  · exact ⟨h.1, rfl⟩
  · exact ⟨scramble_wf h.1, rfl⟩

theorem inv_powerOn {d : Device} {k : Nat} (h : d.inv) : (d.powerOn k).inv := ⟨scramble_wf h.1, rfl⟩

theorem inv_takeReset {d : Device} {k : Nat} (h : d.inv) : (d.takeReset k).inv := by
  unfold Device.takeReset
  split
  · exact inv_powerOn h
  · exact inv_anything h

theorem inv_takeAction {d : Device} {k : Nat} {c : Cycle} (h : d.inv) : (d.takeAction k c).inv := by
  unfold Device.takeAction
  split
  · exact inv_anything h
  · split
    · exact ⟨h.1, rfl⟩
    · exact ⟨scramble_wf h.1, h.2⟩

theorem inv_takeWriteEnable {d : Device} {k : Nat} (h : d.inv) : (d.takeWriteEnable k).inv := by
  unfold Device.takeWriteEnable
  split
  · exact inv_anything h
  · split <;> exact h

theorem inv_takeRead {d : Device} {k : Nat} (h : d.inv) : (d.takeRead k).inv := by
  unfold Device.takeRead
  split
  · exact inv_anything h
  · exact h

theorem inv_maybeMutated {d : Device} {k : Nat} {rs : List Range} (h : d.inv) : (d.maybeMutated k rs).inv := by
  unfold Device.maybeMutated
  split
  · exact inv_anything h
  · exact inv_unsettle h

theorem inv_respond {d e : Device} {k : Nat} {i : Instr} {rx : List Byte} (h : d.inv)
    (hr : d.respond k i = some (rx, e)) : e.inv := by
  cases i <;> simp only [Device.respond, Option.some.injEq, Prod.mk.injEq, reduceCtorEq] at hr <;>
    obtain ⟨-, rfl⟩ := hr <;>
    first
    | exact inv_takeWriteEnable h
    | exact inv_takeAction h
    | exact inv_takeRead h
    | exact inv_takeReset h
    | exact h

theorem inv_afterPartial {d : Device} {k : Nat} {rs : List Range} {i : Instr} (h : d.inv) :
    (d.afterPartial k rs i).inv := by
  cases i <;> simp only [Device.afterPartial] <;>
    first
    | exact inv_unsettle h
    | exact inv_maybeMutated h
    | exact inv_takeRead h
    | exact inv_anything h
    | exact h
    | (split <;> [exact inv_takeReset h; exact h])

theorem inv_afterNoBegin {d : Device} {k : Nat} {rs : List Range} {i : Instr} (h : d.inv) :
    (d.afterNoBegin k rs i).inv := by
  cases i <;> simp only [Device.afterNoBegin] <;> first | exact inv_unsettle h | exact h

theorem inv_afterFailure {d : Device} {k : Nat} {rs : List Range} {st : Stage} {tx : List Byte} {n : Nat} (h : d.inv) :
    (d.afterFailure k rs st tx n).inv := by
  unfold Device.afterFailure
  split
  · exact inv_anything h
  · cases st <;> first | exact inv_afterNoBegin h | exact inv_afterPartial h

/-- A cycle leaves the array in its canonical form. -/
theorem cycleResult_wf {d : Device} {k : Nat} {c : Cycle} (h : Memory.wf d.erasedByte d.capacity d.mem) :
    Memory.wf d.erasedByte d.capacity (d.cycleResult k c) := by
  cases c <;> simp only [Device.cycleResult]
  · split
    · exact Memory.wf_update h
    · exact scramble_wf h
  · split
    · exact Memory.wf_erase h
    · exact scramble_wf h
  · exact Memory.wf_erase h
  · exact scramble_wf h

theorem inv_complete {d : Device} {k : Nat} (h : d.inv) : (d.complete k).inv := by
  refine ⟨?_, rfl⟩
  show Memory.wf d.erasedByte d.capacity (match d.pending with | some c => d.cycleResult k c | none => d.mem)
  cases d.pending with
  | none => exact h.1
  | some c => exact cycleResult_wf h.1

/-! ### Reading the array after a cycle -/

/-- After a sector erase inside the array. -/
theorem read_sectorErase {d : Device} {k : Nat} {a : Addr} (h : d.sectorBase a + d.sectorSize ≤ d.capacity) (x : Nat) :
    Memory.read d.erasedByte (d.cycleResult k (.sectorErase a)) x =
      if d.sectorBase a ≤ x ∧ x < d.sectorBase a + d.sectorSize then d.erasedByte
      else Memory.read d.erasedByte d.mem x := by
  simp only [Device.cycleResult, Device.eraseSettled, h, decide_true, if_true, Memory.read_erase]

/-- After a chip erase. -/
theorem read_chipErase {d : Device} {k x : Nat} (h : x < d.capacity) :
    Memory.read d.erasedByte (d.cycleResult k .chipErase) x = d.erasedByte := by
  simp only [Device.cycleResult, Memory.read_erase]
  rw [if_pos (by omega)]

/-- After a program inside the array and one page. -/
theorem read_program {d : Device} {k : Nat} {a : Addr} {data : List Byte}
    (hw : Memory.wf d.erasedByte d.capacity d.mem) (h1 : a.toNat + data.length ≤ d.capacity)
    (h2 : a.toNat % 256 + data.length ≤ 256) (x : Nat) :
    Memory.read d.erasedByte (d.cycleResult k (.program a data)) x =
      if a.toNat ≤ x ∧ x < a.toNat + data.length then
        d.programCombine (Memory.read d.erasedByte d.mem x) (data.getD (x - a.toNat) 0#8)
      else Memory.read d.erasedByte d.mem x := by
  simp only [Device.cycleResult, Device.programSettled, h1, h2, Config.pageSize, decide_true, Bool.and_self, if_true]
  rw [Memory.read_update hw]
  by_cases h : a.toNat ≤ x ∧ x < a.toNat + data.length
  · rw [if_pos h, if_pos (by omega)]
  · rw [if_neg h, if_neg (by omega)]

/-- Outside its footprint a cycle changes nothing. -/
theorem read_cycleResult {d : Device} {k x : Nat} {c : Cycle} (hw : Memory.wf d.erasedByte d.capacity d.mem)
    (hx : ∀ r ∈ d.footprint c, ¬ (r.lo ≤ x ∧ x < r.lo + r.len)) :
    Memory.read d.erasedByte (d.cycleResult k c) x = Memory.read d.erasedByte d.mem x := by
  cases c with
  | program a data =>
    by_cases hs : a.toNat + data.length ≤ d.capacity ∧ a.toNat % 256 + data.length ≤ 256
    · rw [read_program hw hs.1 hs.2]
      refine if_neg (fun h => ?_)
      have hne : data ≠ [] := by rintro rfl; simp at h; omega
      have h1 : ¬ d.capacity < a.toNat + data.length := by omega
      have h2 : ¬ 256 < a.toNat % 256 + data.length := by omega
      simp only [Device.footprint, hne, h1, h2, Config.pageSize, if_false] at hx
      exact hx ⟨a.toNat, data.length⟩ (by simp) h
    · have h : d.programSettled a data.length = false := by
        rw [Device.programSettled, ← Bool.decide_and]
        exact decide_eq_false hs
      simp only [Device.cycleResult, h, Bool.false_eq_true, if_false]
      exact read_scramble hw hx
  | sectorErase a =>
    by_cases h : d.eraseSettled a = true
    · simp only [Device.footprint, h, if_true] at hx
      rw [read_sectorErase (by simpa [Device.eraseSettled] using h)]
      exact if_neg (hx ⟨d.sectorBase a, d.sectorSize⟩ (by simp))
    · simp only [Device.cycleResult, h]
      exact read_scramble hw hx
  | chipErase =>
    simp only [Device.cycleResult, Memory.read_erase]
    refine if_neg (hx d.whole (by simp [Device.footprint]))
  | indeterminate ranges => exact read_scramble hw hx

/-- Outside the footprint of the pending cycle the Complete step changes nothing. -/
theorem read_complete {d : Device} {k x : Nat} (hw : Memory.wf d.erasedByte d.capacity d.mem)
    (hx : ∀ r ∈ d.pendingFootprint, ¬ (r.lo ≤ x ∧ x < r.lo + r.len)) :
    Memory.read d.erasedByte (d.complete k).mem x = Memory.read d.erasedByte d.mem x := by
  unfold Device.pendingFootprint at hx
  unfold Device.complete
  cases hp : d.pending with
  | none => rfl
  | some c =>
    rw [hp] at hx
    exact read_cycleResult hw hx

/-- The footprint of a cycle depends on the device's constants alone. -/
theorem footprint_congr {d e : Device} (c : Cycle) (hc : e.constants = d.constants) : e.footprint c = d.footprint c := by
  simp only [Device.constants, Prod.mk.injEq] at hc
  cases c <;>
    simp only [Device.footprint, Device.whole, Device.eraseSettled, Device.sectorBase, Device.sectorSize, hc] <;> rfl

/-- The footprint of the pending cycle depends on that cycle and on the device's constants alone. -/
theorem pendingFootprint_congr {d e : Device} (h : e.pending = d.pending) (hc : e.constants = d.constants) :
    e.pendingFootprint = d.pendingFootprint := by
  unfold Device.pendingFootprint
  rw [h]
  cases d.pending with
  | none => rfl
  | some c => exact footprint_congr c hc

/-- The target range depends on the latches and on the device's constants alone. -/
theorem target_congr {s t : State} (h : t.action = s.action) (hc : t.dev.constants = s.dev.constants) :
    t.target = s.target := by
  unfold State.target
  rw [h]
  cases s.action with
  | none => rfl
  | some c => exact footprint_congr c hc

@[simp] theorem scramble_nil (d : Device) (k : Nat) : d.scramble k [] = d.mem := rfl

/-! ### Responses -/

/-- A WriteEnable frame on a device that is not busy. -/
theorem takeWriteEnable_idle {d : Device} {k : Nat} (h : d.busy = false) :
    d.takeWriteEnable k = { d with wel := true, rstArmed := d.rstArmed && (d.wel || Config.freeArmed k) } := by
  unfold Device.takeWriteEnable
  rw [if_neg (by simp [h])]
  cases hw : d.wel with
  | true => ext1 <;> simp [hw]
  | false => simp [Device.disarm]

/-- A device answers as many bytes as the transaction reads. -/
theorem receive_length {d e : Device} {k n : Nat} {tx rx : List Byte} (h : d.receive k tx n = some (rx, e)) :
    rx.length = n := by
  unfold Device.receive at h
  split at h
  · rename_i i hd
    unfold decodeFrame at hd
    have hbare : ∀ {op : Byte} {j : Instr} {m : Nat} {args : List Byte} {l : List Byte} {e' : Device},
        decodeBare op j m args n = .ok i → d.respond k j = some (l, e') → l.length = m → rx.length = n := by
      intro op j m args l e' h1 h2 h3
      obtain ⟨rfl, -, rfl⟩ := decodeBare_ok h1
      rw [h2] at h
      simp only [Option.some.injEq, Prod.mk.injEq] at h
      rw [← h.1, h3]
    split at hd
    · cases hd
    · split at hd
      · exact hbare hd rfl rfl
      split at hd
      · exact hbare hd rfl rfl
      split at hd
      · obtain ⟨_, _, _, -, rfl⟩ := decodeRead_ok hd
        simp only [Device.respond, Device.answer, Option.some.injEq, Prod.mk.injEq] at h
        rw [← h.1]
        split <;> simp [Device.readBytes]
      split at hd
      · obtain ⟨_, _, _, _, -, rfl, -, rfl⟩ := decodePageProgram_ok hd
        simp only [Device.respond, Option.some.injEq, Prod.mk.injEq] at h
        rw [← h.1]; rfl
      split at hd
      · obtain ⟨_, _, _, -, rfl, rfl⟩ := decodeSectorErase_ok hd
        simp only [Device.respond, Option.some.injEq, Prod.mk.injEq] at h
        rw [← h.1]; rfl
      split at hd
      · exact hbare hd rfl rfl
      split at hd
      · exact hbare hd rfl rfl
      split at hd
      · exact hbare hd rfl rfl
      split at hd
      · obtain ⟨-, rfl, rfl⟩ := decodeReadManufacturerId_ok hd
        simp only [Device.respond, Device.answer, Option.some.injEq, Prod.mk.injEq] at h
        rw [← h.1]
        split <;> simp
      split at hd
      · refine hbare hd rfl ?_
        simp only [Device.answer]
        split <;> simp
      · cases hd
  · cases h

/-- A frame of a well-formed wire command reaches the device as that command. -/
theorem receive_encode {d : Device} {k n : Nat} {i : Instr} {tx : List Byte} (hw : i.wellFormed = true)
    (he : encode i = .frame tx n) : d.receive k tx n = d.respond k i := by
  have hdec : decodeFrame tx n = .ok i := by
    show decode (.frame tx n) = _
    rw [← he]
    cases i <;> first
      | rfl
      | exact decode_read ..
      | exact decode_sectorErase ..
      | exact decode_pageProgram _ _ (by simpa [Instr.wellFormed] using hw)
      | simp [encode] at he
  simp [Device.receive, hdec]

end Sys2Proof.Machine
end

