-- ==== Sys2Proof/Laws/Run.lean ====
section
/-! SUPPORT. Reasoning about the parts of an operation: what holds wherever a part goes on or raises. A part that is
stuck or refused has no state to speak of. -/

namespace Sys2Proof.Machine

variable {α β : Type}

/-- Wherever `m` goes on, `Q` holds of its value and state; wherever it raises, `R` holds of its state. -/
def Run.Meets (m : Run α) (Q : α → State → Prop) (R : State → Prop) : Prop :=
  match m with
  | .ret a s => Q a s
  | .raised s => R s
  | .stuck _ => True
  | .refused _ => True

@[simp] theorem Run.meets_ret {a : α} {s : State} {Q : α → State → Prop} {R : State → Prop} :
    (Run.ret a s).Meets Q R ↔ Q a s := Iff.rfl
@[simp] theorem Run.meets_raised {s : State} {Q : α → State → Prop} {R : State → Prop} :
    (Run.raised s : Run α).Meets Q R ↔ R s := Iff.rfl
@[simp] theorem Run.meets_stuck {e : Fault} {Q : α → State → Prop} {R : State → Prop} :
    (Run.stuck e : Run α).Meets Q R ↔ True := Iff.rfl
@[simp] theorem Run.meets_refused {e : Refusal} {Q : α → State → Prop} {R : State → Prop} :
    (Run.refused e : Run α).Meets Q R ↔ True := Iff.rfl

/-- One part, then the next: the first goes on to states from which the second meets the claim. -/
theorem Run.meets_andThen {m : Run α} {f : α → State → Run β} {Q : β → State → Prop} {R : State → Prop} :
    (m.andThen f).Meets Q R ↔ m.Meets (fun a s => (f a s).Meets Q R) R := by
  cases m <;> rfl

theorem Run.meets_onRaise {m : Run α} {g : State → State} {Q : α → State → Prop} {R : State → Prop} :
    (m.onRaise g).Meets Q R ↔ m.Meets Q (fun s => R (g s)) := by
  cases m <;> rfl

theorem Run.Meets.mono {m : Run α} {Q Q' : α → State → Prop} {R R' : State → Prop} (h : m.Meets Q R)
    (hq : ∀ a s, Q a s → Q' a s) (hr : ∀ s, R s → R' s) : m.Meets Q' R' := by
  cases m with
  | ret a s => exact hq a s h
  | raised s => exact hr s h
  | stuck e => trivial
  | refused e => trivial

/-- What holds of a part holds of the next state it gives as an instruction. -/
theorem Run.meets_outcome {m : Run α} {Q : State → Prop} {t : State} (h : m.Meets (fun _ s => Q s) Q)
    (ht : m.outcome = .next t) : Q t := by
  cases m <;> simp [Run.outcome] at ht
  · subst ht; exact h
  · subst ht; exact h

/-- What holds of an operation's rule holds of its response. -/
theorem Run.meets_finish {m : Run Unit} {Q : State → Prop} {t : State}
    (h : m.Meets (fun _ s => Q s.succeed.respond) (fun s => Q s.respond)) (ht : m.finishOperation = .next t) : Q t := by
  cases m <;> simp [Run.finishOperation] at ht
  · subst ht; exact h
  · subst ht; exact h

@[simp] theorem Run.andThen_ret {a : α} {s : State} {f : α → State → Run β} : (Run.ret a s).andThen f = f a s := rfl
@[simp] theorem Run.andThen_raised {s : State} {f : α → State → Run β} :
    (Run.raised s : Run α).andThen f = .raised s := rfl
@[simp] theorem Run.andThen_stuck {e : Fault} {f : α → State → Run β} :
    (Run.stuck e : Run α).andThen f = .stuck e := rfl
@[simp] theorem Run.andThen_refused {e : Refusal} {f : α → State → Run β} :
    (Run.refused e : Run α).andThen f = .refused e := rfl
@[simp] theorem Run.onRaise_ret {a : α} {s : State} {g : State → State} : (Run.ret a s).onRaise g = .ret a s := rfl
@[simp] theorem Run.onRaise_raised {s : State} {g : State → State} :
    (Run.raised s : Run α).onRaise g = .raised (g s) := rfl

/-! ### Parts that end -/

/-- `m` goes on or raises: it is neither stuck nor refused. -/
def Run.Ends (m : Run α) : Prop :=
  match m with
  | .ret _ _ => True
  | .raised _ => True
  | .stuck _ => False
  | .refused _ => False

@[simp] theorem Run.ends_ret {a : α} {s : State} : (Run.ret a s).Ends ↔ True := Iff.rfl
@[simp] theorem Run.ends_raised {s : State} : (Run.raised s : Run α).Ends ↔ True := Iff.rfl
@[simp] theorem Run.ends_stuck {e : Fault} : (Run.stuck e : Run α).Ends ↔ False := Iff.rfl
@[simp] theorem Run.ends_refused {e : Refusal} : (Run.refused e : Run α).Ends ↔ False := Iff.rfl

/-- One part, then the next: the first ends, in states from which the second ends. -/
theorem Run.ends_andThen {m : Run α} {f : α → State → Run β} {R : State → Prop} (h : m.Ends)
    (hf : m.Meets (fun a s => (f a s).Ends) R) : (m.andThen f).Ends := by
  cases m with
  | ret a s => exact hf
  | raised s => trivial
  | stuck e => exact h
  | refused e => exact h

theorem Run.ends_onRaise {m : Run α} {g : State → State} : (m.onRaise g).Ends ↔ m.Ends := by
  cases m <;> rfl

/-- A part that ends and meets a claim is a next state that meets it. -/
theorem Run.outcome_of_ends {m : Run α} {Q : State → Prop} (h : m.Ends) (hm : m.Meets (fun _ s => Q s) Q) :
    ∃ t, m.outcome = .next t ∧ Q t := by
  cases m with
  | ret a s => exact ⟨s, rfl, hm⟩
  | raised s => exact ⟨s, rfl, hm⟩
  | stuck e => exact h.elim
  | refused e => exact h.elim

/-- The rule of a host operation that ends and meets a claim gives its response. -/
theorem Run.finish_of_ends {m : Run Unit} {Q : State → Prop} (h : m.Ends)
    (hm : m.Meets (fun _ s => Q s.succeed.respond) (fun s => Q s.respond)) : ∃ t, m.finishOperation = .next t ∧ Q t := by
  cases m with
  | ret a s => exact ⟨_, rfl, hm⟩
  | raised s => exact ⟨_, rfl, hm⟩
  | stuck e => exact h.elim
  | refused e => exact h.elim

theorem Run.Meets.and {m : Run α} {Q Q' : α → State → Prop} {R R' : State → Prop} (h : m.Meets Q R)
    (h' : m.Meets Q' R') : m.Meets (fun a s => Q a s ∧ Q' a s) (fun s => R s ∧ R' s) := by
  cases m with
  | ret a s => exact ⟨h, h'⟩
  | raised s => exact ⟨h, h'⟩
  | stuck e => trivial
  | refused e => trivial

/-! ### Host operations -/

/-- A host operation that gives a next state while the sequencer is idle is its rule run to the end. -/
theorem operate_next {s t : State} {latch : State → State} {body : State → Run Unit}
    (h : operate s latch body = .next t) (hi : s.phase = .idle) :
    s.busHandle = .held ∧ (body (latch s)).finishOperation = .next t := by
  unfold operate at h
  split at h
  · cases h
  · rename_i hb
    refine ⟨?_, h⟩
    cases hh : s.busHandle
    · rfl
    · exact absurd hh hb

/-- A host operation on a ready sequencer is its rule run to the end. -/
theorem operate_ready {s : State} {latch : State → State} {body : State → Run Unit}
    (hb : s.busHandle = .held) (hi : s.phase = .idle) :
    operate s latch body = (body (latch s)).finishOperation := by
  simp [operate, hb, hi]

/-- A host operation presented in another phase than IDLE is held off. -/
theorem operate_held_off {s : State} {latch : State → State} {body : State → Run Unit}
    (hb : s.busHandle = .held) (hi : s.phase ≠ .idle) : operate s latch body = .next s := by
  simp [operate, hb, hi]

end Sys2Proof.Machine
end

