-- ==== Sys2Proof/Laws/State.lean ====
section
/-! SUPPORT. One lemma for each field and each update of the state, so that no proof unfolds a record update. -/

namespace Sys2Proof.Machine

section record
variable (s : State) (e : Event)

@[simp] theorem State.record_busHandle : (s.record e).busHandle = s.busHandle := rfl
@[simp] theorem State.record_delayHandle : (s.record e).delayHandle = s.delayHandle := rfl
@[simp] theorem State.record_maxPolls : (s.record e).maxPolls = s.maxPolls := rfl
@[simp] theorem State.record_pollDelay : (s.record e).pollDelay = s.pollDelay := rfl
@[simp] theorem State.record_phase : (s.record e).phase = s.phase := rfl
@[simp] theorem State.record_op : (s.record e).op = s.op := rfl
@[simp] theorem State.record_addr : (s.record e).addr = s.addr := rfl
@[simp] theorem State.record_len : (s.record e).len = s.len := rfl
@[simp] theorem State.record_txData : (s.record e).txData = s.txData := rfl
@[simp] theorem State.record_rxData : (s.record e).rxData = s.rxData := rfl
@[simp] theorem State.record_pollCnt : (s.record e).pollCnt = s.pollCnt := rfl
@[simp] theorem State.record_status : (s.record e).status = s.status := rfl
@[simp] theorem State.record_result : (s.record e).result = s.result := rfl
@[simp] theorem State.record_dev : (s.record e).dev = s.dev := rfl
@[simp] theorem State.record_chipSelect : (s.record e).chipSelect = s.chipSelect := rfl
@[simp] theorem State.record_port : (s.record e).port = s.port := rfl
@[simp] theorem State.record_busScript : (s.record e).busScript = s.busScript := rfl
@[simp] theorem State.record_sleepScript : (s.record e).sleepScript = s.sleepScript := rfl
@[simp] theorem State.record_schedule : (s.record e).schedule = s.schedule := rfl
@[simp] theorem State.record_scheduleEnd : (s.record e).scheduleEnd = s.scheduleEnd := rfl
@[simp] theorem State.record_trace : (s.record e).trace = s.trace ++ [e] := rfl
@[simp] theorem State.record_calls : (s.record e).calls = s.calls := rfl
@[simp] theorem State.record_path : (s.record e).path = s.path := rfl
@[simp] theorem State.record_draws : (s.record e).draws = s.draws := rfl

end record

section deviceMoves
variable (s : State) (d : Device)

@[simp] theorem State.deviceMoves_busHandle : (s.deviceMoves d).busHandle = s.busHandle := rfl
@[simp] theorem State.deviceMoves_delayHandle : (s.deviceMoves d).delayHandle = s.delayHandle := rfl
@[simp] theorem State.deviceMoves_maxPolls : (s.deviceMoves d).maxPolls = s.maxPolls := rfl
@[simp] theorem State.deviceMoves_pollDelay : (s.deviceMoves d).pollDelay = s.pollDelay := rfl
@[simp] theorem State.deviceMoves_phase : (s.deviceMoves d).phase = s.phase := rfl
@[simp] theorem State.deviceMoves_op : (s.deviceMoves d).op = s.op := rfl
@[simp] theorem State.deviceMoves_addr : (s.deviceMoves d).addr = s.addr := rfl
@[simp] theorem State.deviceMoves_len : (s.deviceMoves d).len = s.len := rfl
@[simp] theorem State.deviceMoves_txData : (s.deviceMoves d).txData = s.txData := rfl
@[simp] theorem State.deviceMoves_rxData : (s.deviceMoves d).rxData = s.rxData := rfl
@[simp] theorem State.deviceMoves_pollCnt : (s.deviceMoves d).pollCnt = s.pollCnt := rfl
@[simp] theorem State.deviceMoves_status : (s.deviceMoves d).status = s.status := rfl
@[simp] theorem State.deviceMoves_result : (s.deviceMoves d).result = s.result := rfl
@[simp] theorem State.deviceMoves_dev : (s.deviceMoves d).dev = d := rfl
@[simp] theorem State.deviceMoves_chipSelect : (s.deviceMoves d).chipSelect = s.chipSelect := rfl
@[simp] theorem State.deviceMoves_port : (s.deviceMoves d).port = s.port := rfl
@[simp] theorem State.deviceMoves_busScript : (s.deviceMoves d).busScript = s.busScript := rfl
@[simp] theorem State.deviceMoves_sleepScript : (s.deviceMoves d).sleepScript = s.sleepScript := rfl
@[simp] theorem State.deviceMoves_schedule : (s.deviceMoves d).schedule = s.schedule := rfl
@[simp] theorem State.deviceMoves_scheduleEnd : (s.deviceMoves d).scheduleEnd = s.scheduleEnd := rfl
@[simp] theorem State.deviceMoves_trace : (s.deviceMoves d).trace = s.trace := rfl
@[simp] theorem State.deviceMoves_calls : (s.deviceMoves d).calls = s.calls := rfl
@[simp] theorem State.deviceMoves_path : (s.deviceMoves d).path = s.path := rfl
@[simp] theorem State.deviceMoves_draws : (s.deviceMoves d).draws = s.draws + 1 := rfl

end deviceMoves

section select
variable (s : State) (b : Bool)

@[simp] theorem State.select_busHandle : (s.select b).busHandle = s.busHandle := rfl
@[simp] theorem State.select_delayHandle : (s.select b).delayHandle = s.delayHandle := rfl
@[simp] theorem State.select_maxPolls : (s.select b).maxPolls = s.maxPolls := rfl
@[simp] theorem State.select_pollDelay : (s.select b).pollDelay = s.pollDelay := rfl
@[simp] theorem State.select_phase : (s.select b).phase = s.phase := rfl
@[simp] theorem State.select_op : (s.select b).op = s.op := rfl
@[simp] theorem State.select_addr : (s.select b).addr = s.addr := rfl
@[simp] theorem State.select_len : (s.select b).len = s.len := rfl
@[simp] theorem State.select_txData : (s.select b).txData = s.txData := rfl
@[simp] theorem State.select_rxData : (s.select b).rxData = s.rxData := rfl
@[simp] theorem State.select_pollCnt : (s.select b).pollCnt = s.pollCnt := rfl
@[simp] theorem State.select_status : (s.select b).status = s.status := rfl
@[simp] theorem State.select_result : (s.select b).result = s.result := rfl
@[simp] theorem State.select_dev : (s.select b).dev = s.dev := rfl
@[simp] theorem State.select_chipSelect : (s.select b).chipSelect = b := rfl
@[simp] theorem State.select_port : (s.select b).port = s.port := rfl
@[simp] theorem State.select_busScript : (s.select b).busScript = s.busScript := rfl
@[simp] theorem State.select_sleepScript : (s.select b).sleepScript = s.sleepScript := rfl
@[simp] theorem State.select_schedule : (s.select b).schedule = s.schedule := rfl
@[simp] theorem State.select_scheduleEnd : (s.select b).scheduleEnd = s.scheduleEnd := rfl
@[simp] theorem State.select_trace : (s.select b).trace = s.trace := rfl
@[simp] theorem State.select_calls : (s.select b).calls = s.calls := rfl
@[simp] theorem State.select_path : (s.select b).path = s.path := rfl
@[simp] theorem State.select_draws : (s.select b).draws = s.draws := rfl

end select

section logCall
variable (s : State) (c : BusCall)

@[simp] theorem State.logCall_busHandle : (s.logCall c).busHandle = s.busHandle := rfl
@[simp] theorem State.logCall_delayHandle : (s.logCall c).delayHandle = s.delayHandle := rfl
@[simp] theorem State.logCall_maxPolls : (s.logCall c).maxPolls = s.maxPolls := rfl
@[simp] theorem State.logCall_pollDelay : (s.logCall c).pollDelay = s.pollDelay := rfl
@[simp] theorem State.logCall_phase : (s.logCall c).phase = s.phase := rfl
@[simp] theorem State.logCall_op : (s.logCall c).op = s.op := rfl
@[simp] theorem State.logCall_addr : (s.logCall c).addr = s.addr := rfl
@[simp] theorem State.logCall_len : (s.logCall c).len = s.len := rfl
@[simp] theorem State.logCall_txData : (s.logCall c).txData = s.txData := rfl
@[simp] theorem State.logCall_rxData : (s.logCall c).rxData = s.rxData := rfl
@[simp] theorem State.logCall_pollCnt : (s.logCall c).pollCnt = s.pollCnt := rfl
@[simp] theorem State.logCall_status : (s.logCall c).status = s.status := rfl
@[simp] theorem State.logCall_result : (s.logCall c).result = s.result := rfl
@[simp] theorem State.logCall_dev : (s.logCall c).dev = s.dev := rfl
@[simp] theorem State.logCall_chipSelect : (s.logCall c).chipSelect = s.chipSelect := rfl
@[simp] theorem State.logCall_port : (s.logCall c).port = s.port := rfl
@[simp] theorem State.logCall_busScript : (s.logCall c).busScript = s.busScript.tail := rfl
@[simp] theorem State.logCall_sleepScript : (s.logCall c).sleepScript = s.sleepScript := rfl
@[simp] theorem State.logCall_schedule : (s.logCall c).schedule = s.schedule := rfl
@[simp] theorem State.logCall_scheduleEnd : (s.logCall c).scheduleEnd = s.scheduleEnd := rfl
@[simp] theorem State.logCall_trace : (s.logCall c).trace = s.trace := rfl
@[simp] theorem State.logCall_calls : (s.logCall c).calls = s.calls ++ [c] := rfl
@[simp] theorem State.logCall_path : (s.logCall c).path = s.path := rfl
@[simp] theorem State.logCall_draws : (s.logCall c).draws = s.draws := rfl

end logCall

section enter
variable (s : State) (p : Phase)

@[simp] theorem State.enter_busHandle : (s.enter p).busHandle = s.busHandle := rfl
@[simp] theorem State.enter_delayHandle : (s.enter p).delayHandle = s.delayHandle := rfl
@[simp] theorem State.enter_maxPolls : (s.enter p).maxPolls = s.maxPolls := rfl
@[simp] theorem State.enter_pollDelay : (s.enter p).pollDelay = s.pollDelay := rfl
@[simp] theorem State.enter_phase : (s.enter p).phase = p := rfl
@[simp] theorem State.enter_op : (s.enter p).op = s.op := rfl
@[simp] theorem State.enter_addr : (s.enter p).addr = s.addr := rfl
@[simp] theorem State.enter_len : (s.enter p).len = s.len := rfl
@[simp] theorem State.enter_txData : (s.enter p).txData = s.txData := rfl
@[simp] theorem State.enter_rxData : (s.enter p).rxData = s.rxData := rfl
@[simp] theorem State.enter_pollCnt : (s.enter p).pollCnt = s.pollCnt := rfl
@[simp] theorem State.enter_status : (s.enter p).status = s.status := rfl
@[simp] theorem State.enter_result : (s.enter p).result = s.result := rfl
@[simp] theorem State.enter_dev : (s.enter p).dev = s.dev := rfl
@[simp] theorem State.enter_chipSelect : (s.enter p).chipSelect = s.chipSelect := rfl
@[simp] theorem State.enter_port : (s.enter p).port = s.port := rfl
@[simp] theorem State.enter_busScript : (s.enter p).busScript = s.busScript := rfl
@[simp] theorem State.enter_sleepScript : (s.enter p).sleepScript = s.sleepScript := rfl
@[simp] theorem State.enter_schedule : (s.enter p).schedule = s.schedule := rfl
@[simp] theorem State.enter_scheduleEnd : (s.enter p).scheduleEnd = s.scheduleEnd := rfl
@[simp] theorem State.enter_trace : (s.enter p).trace = s.trace := rfl
@[simp] theorem State.enter_calls : (s.enter p).calls = s.calls := rfl
@[simp] theorem State.enter_path : (s.enter p).path = s.path ++ [p] := rfl
@[simp] theorem State.enter_draws : (s.enter p).draws = s.draws := rfl

end enter

section countPoll
variable (s : State)

@[simp] theorem State.countPoll_busHandle : s.countPoll.busHandle = s.busHandle := rfl
@[simp] theorem State.countPoll_delayHandle : s.countPoll.delayHandle = s.delayHandle := rfl
@[simp] theorem State.countPoll_maxPolls : s.countPoll.maxPolls = s.maxPolls := rfl
@[simp] theorem State.countPoll_pollDelay : s.countPoll.pollDelay = s.pollDelay := rfl
@[simp] theorem State.countPoll_phase : s.countPoll.phase = s.phase := rfl
@[simp] theorem State.countPoll_op : s.countPoll.op = s.op := rfl
@[simp] theorem State.countPoll_addr : s.countPoll.addr = s.addr := rfl
@[simp] theorem State.countPoll_len : s.countPoll.len = s.len := rfl
@[simp] theorem State.countPoll_txData : s.countPoll.txData = s.txData := rfl
@[simp] theorem State.countPoll_rxData : s.countPoll.rxData = s.rxData := rfl
@[simp] theorem State.countPoll_pollCnt : s.countPoll.pollCnt = s.pollCnt + 1 := rfl
@[simp] theorem State.countPoll_status : s.countPoll.status = s.status := rfl
@[simp] theorem State.countPoll_result : s.countPoll.result = s.result := rfl
@[simp] theorem State.countPoll_dev : s.countPoll.dev = s.dev := rfl
@[simp] theorem State.countPoll_chipSelect : s.countPoll.chipSelect = s.chipSelect := rfl
@[simp] theorem State.countPoll_port : s.countPoll.port = s.port := rfl
@[simp] theorem State.countPoll_busScript : s.countPoll.busScript = s.busScript := rfl
@[simp] theorem State.countPoll_sleepScript : s.countPoll.sleepScript = s.sleepScript := rfl
@[simp] theorem State.countPoll_schedule : s.countPoll.schedule = s.schedule := rfl
@[simp] theorem State.countPoll_scheduleEnd : s.countPoll.scheduleEnd = s.scheduleEnd := rfl
@[simp] theorem State.countPoll_trace : s.countPoll.trace = s.trace := rfl
@[simp] theorem State.countPoll_calls : s.countPoll.calls = s.calls := rfl
@[simp] theorem State.countPoll_path : s.countPoll.path = s.path := rfl
@[simp] theorem State.countPoll_draws : s.countPoll.draws = s.draws := rfl

end countPoll

section enterPoll
variable (s : State)

@[simp] theorem State.enterPoll_busHandle : s.enterPoll.busHandle = s.busHandle := rfl
@[simp] theorem State.enterPoll_delayHandle : s.enterPoll.delayHandle = s.delayHandle := rfl
@[simp] theorem State.enterPoll_maxPolls : s.enterPoll.maxPolls = s.maxPolls := rfl
@[simp] theorem State.enterPoll_pollDelay : s.enterPoll.pollDelay = s.pollDelay := rfl
@[simp] theorem State.enterPoll_phase : s.enterPoll.phase = .poll := rfl
@[simp] theorem State.enterPoll_op : s.enterPoll.op = s.op := rfl
@[simp] theorem State.enterPoll_addr : s.enterPoll.addr = s.addr := rfl
@[simp] theorem State.enterPoll_len : s.enterPoll.len = s.len := rfl
@[simp] theorem State.enterPoll_txData : s.enterPoll.txData = s.txData := rfl
@[simp] theorem State.enterPoll_rxData : s.enterPoll.rxData = s.rxData := rfl
@[simp] theorem State.enterPoll_pollCnt : s.enterPoll.pollCnt = 0 := rfl
@[simp] theorem State.enterPoll_status : s.enterPoll.status = s.status := rfl
@[simp] theorem State.enterPoll_result : s.enterPoll.result = s.result := rfl
@[simp] theorem State.enterPoll_dev : s.enterPoll.dev = s.dev := rfl
@[simp] theorem State.enterPoll_chipSelect : s.enterPoll.chipSelect = s.chipSelect := rfl
@[simp] theorem State.enterPoll_port : s.enterPoll.port = s.port := rfl
@[simp] theorem State.enterPoll_busScript : s.enterPoll.busScript = s.busScript := rfl
@[simp] theorem State.enterPoll_sleepScript : s.enterPoll.sleepScript = s.sleepScript := rfl
@[simp] theorem State.enterPoll_schedule : s.enterPoll.schedule = s.schedule := rfl
@[simp] theorem State.enterPoll_scheduleEnd : s.enterPoll.scheduleEnd = s.scheduleEnd := rfl
@[simp] theorem State.enterPoll_trace : s.enterPoll.trace = s.trace := rfl
@[simp] theorem State.enterPoll_calls : s.enterPoll.calls = s.calls := rfl
@[simp] theorem State.enterPoll_path : s.enterPoll.path = s.path ++ [.poll] := rfl
@[simp] theorem State.enterPoll_draws : s.enterPoll.draws = s.draws := rfl

end enterPoll

section raiseError
variable (s : State) (k : Result)

@[simp] theorem State.raiseError_busHandle : (s.raiseError k).busHandle = s.busHandle := rfl
@[simp] theorem State.raiseError_delayHandle : (s.raiseError k).delayHandle = s.delayHandle := rfl
@[simp] theorem State.raiseError_maxPolls : (s.raiseError k).maxPolls = s.maxPolls := rfl
@[simp] theorem State.raiseError_pollDelay : (s.raiseError k).pollDelay = s.pollDelay := rfl
@[simp] theorem State.raiseError_phase : (s.raiseError k).phase = .done := rfl
@[simp] theorem State.raiseError_op : (s.raiseError k).op = s.op := rfl
@[simp] theorem State.raiseError_addr : (s.raiseError k).addr = s.addr := rfl
@[simp] theorem State.raiseError_len : (s.raiseError k).len = s.len := rfl
@[simp] theorem State.raiseError_txData : (s.raiseError k).txData = s.txData := rfl
@[simp] theorem State.raiseError_rxData : (s.raiseError k).rxData = s.rxData := rfl
@[simp] theorem State.raiseError_pollCnt : (s.raiseError k).pollCnt = s.pollCnt := rfl
@[simp] theorem State.raiseError_status : (s.raiseError k).status = s.status := rfl
@[simp] theorem State.raiseError_result : (s.raiseError k).result = k := rfl
@[simp] theorem State.raiseError_dev : (s.raiseError k).dev = s.dev := rfl
@[simp] theorem State.raiseError_chipSelect : (s.raiseError k).chipSelect = s.chipSelect := rfl
@[simp] theorem State.raiseError_port : (s.raiseError k).port = s.port := rfl
@[simp] theorem State.raiseError_busScript : (s.raiseError k).busScript = s.busScript := rfl
@[simp] theorem State.raiseError_sleepScript : (s.raiseError k).sleepScript = s.sleepScript := rfl
@[simp] theorem State.raiseError_schedule : (s.raiseError k).schedule = s.schedule := rfl
@[simp] theorem State.raiseError_scheduleEnd : (s.raiseError k).scheduleEnd = s.scheduleEnd := rfl
@[simp] theorem State.raiseError_trace : (s.raiseError k).trace = s.trace := rfl
@[simp] theorem State.raiseError_calls : (s.raiseError k).calls = s.calls := rfl
@[simp] theorem State.raiseError_path : (s.raiseError k).path = s.path ++ [.done] := rfl
@[simp] theorem State.raiseError_draws : (s.raiseError k).draws = s.draws := rfl

end raiseError

section succeed
variable (s : State)

@[simp] theorem State.succeed_busHandle : s.succeed.busHandle = s.busHandle := rfl
@[simp] theorem State.succeed_delayHandle : s.succeed.delayHandle = s.delayHandle := rfl
@[simp] theorem State.succeed_maxPolls : s.succeed.maxPolls = s.maxPolls := rfl
@[simp] theorem State.succeed_pollDelay : s.succeed.pollDelay = s.pollDelay := rfl
@[simp] theorem State.succeed_phase : s.succeed.phase = .done := rfl
@[simp] theorem State.succeed_op : s.succeed.op = s.op := rfl
@[simp] theorem State.succeed_addr : s.succeed.addr = s.addr := rfl
@[simp] theorem State.succeed_len : s.succeed.len = s.len := rfl
@[simp] theorem State.succeed_txData : s.succeed.txData = s.txData := rfl
@[simp] theorem State.succeed_rxData : s.succeed.rxData = s.rxData := rfl
@[simp] theorem State.succeed_pollCnt : s.succeed.pollCnt = s.pollCnt := rfl
@[simp] theorem State.succeed_status : s.succeed.status = s.status := rfl
@[simp] theorem State.succeed_result : s.succeed.result = .ok (okPayload s.op s.rxData) := rfl
@[simp] theorem State.succeed_dev : s.succeed.dev = s.dev := rfl
@[simp] theorem State.succeed_chipSelect : s.succeed.chipSelect = s.chipSelect := rfl
@[simp] theorem State.succeed_port : s.succeed.port = s.port := rfl
@[simp] theorem State.succeed_busScript : s.succeed.busScript = s.busScript := rfl
@[simp] theorem State.succeed_sleepScript : s.succeed.sleepScript = s.sleepScript := rfl
@[simp] theorem State.succeed_schedule : s.succeed.schedule = s.schedule := rfl
@[simp] theorem State.succeed_scheduleEnd : s.succeed.scheduleEnd = s.scheduleEnd := rfl
@[simp] theorem State.succeed_trace : s.succeed.trace = s.trace := rfl
@[simp] theorem State.succeed_calls : s.succeed.calls = s.calls := rfl
@[simp] theorem State.succeed_path : s.succeed.path = s.path ++ [.done] := rfl
@[simp] theorem State.succeed_draws : s.succeed.draws = s.draws := rfl

end succeed

section respond
variable (s : State)

@[simp] theorem State.respond_busHandle : s.respond.busHandle = s.busHandle := rfl
@[simp] theorem State.respond_delayHandle : s.respond.delayHandle = s.delayHandle := rfl
@[simp] theorem State.respond_maxPolls : s.respond.maxPolls = s.maxPolls := rfl
@[simp] theorem State.respond_pollDelay : s.respond.pollDelay = s.pollDelay := rfl
@[simp] theorem State.respond_phase : s.respond.phase = .idle := rfl
@[simp] theorem State.respond_op : s.respond.op = s.op := rfl
@[simp] theorem State.respond_addr : s.respond.addr = s.addr := rfl
@[simp] theorem State.respond_len : s.respond.len = s.len := rfl
@[simp] theorem State.respond_txData : s.respond.txData = s.txData := rfl
@[simp] theorem State.respond_rxData : s.respond.rxData = s.rxData := rfl
@[simp] theorem State.respond_pollCnt : s.respond.pollCnt = s.pollCnt := rfl
@[simp] theorem State.respond_status : s.respond.status = s.status := rfl
@[simp] theorem State.respond_result : s.respond.result = s.result := rfl
@[simp] theorem State.respond_dev : s.respond.dev = s.dev := rfl
@[simp] theorem State.respond_chipSelect : s.respond.chipSelect = s.chipSelect := rfl
@[simp] theorem State.respond_port : s.respond.port = s.port := rfl
@[simp] theorem State.respond_busScript : s.respond.busScript = s.busScript := rfl
@[simp] theorem State.respond_sleepScript : s.respond.sleepScript = s.sleepScript := rfl
@[simp] theorem State.respond_schedule : s.respond.schedule = s.schedule := rfl
@[simp] theorem State.respond_scheduleEnd : s.respond.scheduleEnd = s.scheduleEnd := rfl
@[simp] theorem State.respond_trace : s.respond.trace = s.trace ++ [.rsp s.result] := rfl
@[simp] theorem State.respond_calls : s.respond.calls = s.calls := rfl
@[simp] theorem State.respond_path : s.respond.path = s.path ++ [.idle] := rfl
@[simp] theorem State.respond_draws : s.respond.draws = s.draws := rfl

end respond

section raiseTimeout
variable (s : State)

@[simp] theorem State.raiseTimeout_busHandle : s.raiseTimeout.busHandle = s.busHandle := rfl
@[simp] theorem State.raiseTimeout_delayHandle : s.raiseTimeout.delayHandle = s.delayHandle := rfl
@[simp] theorem State.raiseTimeout_maxPolls : s.raiseTimeout.maxPolls = s.maxPolls := rfl
@[simp] theorem State.raiseTimeout_pollDelay : s.raiseTimeout.pollDelay = s.pollDelay := rfl
@[simp] theorem State.raiseTimeout_phase : s.raiseTimeout.phase = .done := rfl
@[simp] theorem State.raiseTimeout_op : s.raiseTimeout.op = s.op := rfl
@[simp] theorem State.raiseTimeout_addr : s.raiseTimeout.addr = s.addr := rfl
@[simp] theorem State.raiseTimeout_len : s.raiseTimeout.len = s.len := rfl
@[simp] theorem State.raiseTimeout_txData : s.raiseTimeout.txData = s.txData := rfl
@[simp] theorem State.raiseTimeout_rxData : s.raiseTimeout.rxData = s.rxData := rfl
@[simp] theorem State.raiseTimeout_pollCnt : s.raiseTimeout.pollCnt = s.pollCnt := rfl
@[simp] theorem State.raiseTimeout_status : s.raiseTimeout.status = s.status := rfl
@[simp] theorem State.raiseTimeout_result : s.raiseTimeout.result = .timeout := rfl
@[simp] theorem State.raiseTimeout_dev : s.raiseTimeout.dev = s.dev.unresolve s.draws s.target := rfl
@[simp] theorem State.raiseTimeout_chipSelect : s.raiseTimeout.chipSelect = s.chipSelect := rfl
@[simp] theorem State.raiseTimeout_port : s.raiseTimeout.port = s.port := rfl
@[simp] theorem State.raiseTimeout_busScript : s.raiseTimeout.busScript = s.busScript := rfl
@[simp] theorem State.raiseTimeout_sleepScript : s.raiseTimeout.sleepScript = s.sleepScript := rfl
@[simp] theorem State.raiseTimeout_schedule : s.raiseTimeout.schedule = s.schedule := rfl
@[simp] theorem State.raiseTimeout_scheduleEnd : s.raiseTimeout.scheduleEnd = s.scheduleEnd := rfl
@[simp] theorem State.raiseTimeout_trace : s.raiseTimeout.trace = s.trace := rfl
@[simp] theorem State.raiseTimeout_calls : s.raiseTimeout.calls = s.calls := rfl
@[simp] theorem State.raiseTimeout_path : s.raiseTimeout.path = s.path ++ [.done] := rfl
@[simp] theorem State.raiseTimeout_draws : s.raiseTimeout.draws = s.draws + 1 := rfl

end raiseTimeout

section completed
variable (s : State) (tx rx : List Byte) (d : Device)

@[simp] theorem State.completed_busHandle : (s.completed tx rx d).busHandle = s.busHandle := rfl
@[simp] theorem State.completed_delayHandle : (s.completed tx rx d).delayHandle = s.delayHandle := rfl
@[simp] theorem State.completed_maxPolls : (s.completed tx rx d).maxPolls = s.maxPolls := rfl
@[simp] theorem State.completed_pollDelay : (s.completed tx rx d).pollDelay = s.pollDelay := rfl
@[simp] theorem State.completed_phase : (s.completed tx rx d).phase = s.phase := rfl
@[simp] theorem State.completed_op : (s.completed tx rx d).op = s.op := rfl
@[simp] theorem State.completed_addr : (s.completed tx rx d).addr = s.addr := rfl
@[simp] theorem State.completed_len : (s.completed tx rx d).len = s.len := rfl
@[simp] theorem State.completed_txData : (s.completed tx rx d).txData = s.txData := rfl
@[simp] theorem State.completed_rxData : (s.completed tx rx d).rxData = s.rxData := rfl
@[simp] theorem State.completed_pollCnt : (s.completed tx rx d).pollCnt = s.pollCnt := rfl
@[simp] theorem State.completed_status : (s.completed tx rx d).status = s.status := rfl
@[simp] theorem State.completed_result : (s.completed tx rx d).result = s.result := rfl
@[simp] theorem State.completed_dev : (s.completed tx rx d).dev = d := rfl
@[simp] theorem State.completed_chipSelect : (s.completed tx rx d).chipSelect = false := rfl
@[simp] theorem State.completed_port : (s.completed tx rx d).port = s.port := rfl
@[simp] theorem State.completed_busScript : (s.completed tx rx d).busScript = s.busScript.drop (txnCalls tx rx.length).length := rfl
@[simp] theorem State.completed_sleepScript : (s.completed tx rx d).sleepScript = s.sleepScript := rfl
@[simp] theorem State.completed_schedule : (s.completed tx rx d).schedule = s.schedule := rfl
@[simp] theorem State.completed_scheduleEnd : (s.completed tx rx d).scheduleEnd = s.scheduleEnd := rfl
@[simp] theorem State.completed_trace : (s.completed tx rx d).trace = s.trace ++ [.txn tx rx] := rfl
@[simp] theorem State.completed_calls : (s.completed tx rx d).calls = s.calls ++ txnCalls tx rx.length := rfl
@[simp] theorem State.completed_path : (s.completed tx rx d).path = s.path := rfl
@[simp] theorem State.completed_draws : (s.completed tx rx d).draws = s.draws + 1 := rfl

end completed

end Sys2Proof.Machine
end

