-- ==== Sys2Proof/Laws/Txn.lean ====
section
/-! SUPPORT. The bus transaction: the state a transaction completes in, and everything one can do. -/

namespace Sys2Proof.Machine

variable {α : Type}

/-! ### The device's turn -/

@[simp] theorem deviceTurn_idle {s : State} (h : s.dev.busy = false) : s.deviceTurn = s := by
  simp [State.deviceTurn, h]

/-- The device's turn moves the device, its schedule and the count of draws, and nothing else. -/
theorem deviceTurn_frame (s : State) :
    s.deviceTurn = { s with dev := s.deviceTurn.dev, draws := s.deviceTurn.draws, schedule := s.deviceTurn.schedule } := by
  unfold State.deviceTurn
  split
  · split <;> rfl
  · rfl

section
variable (s : State)
@[simp] theorem deviceTurn_busHandle : s.deviceTurn.busHandle = s.busHandle := by rw [deviceTurn_frame]
@[simp] theorem deviceTurn_delayHandle : s.deviceTurn.delayHandle = s.delayHandle := by rw [deviceTurn_frame]
@[simp] theorem deviceTurn_maxPolls : s.deviceTurn.maxPolls = s.maxPolls := by rw [deviceTurn_frame]
@[simp] theorem deviceTurn_pollDelay : s.deviceTurn.pollDelay = s.pollDelay := by rw [deviceTurn_frame]
@[simp] theorem deviceTurn_phase : s.deviceTurn.phase = s.phase := by rw [deviceTurn_frame]
@[simp] theorem deviceTurn_op : s.deviceTurn.op = s.op := by rw [deviceTurn_frame]
@[simp] theorem deviceTurn_addr : s.deviceTurn.addr = s.addr := by rw [deviceTurn_frame]
@[simp] theorem deviceTurn_len : s.deviceTurn.len = s.len := by rw [deviceTurn_frame]
@[simp] theorem deviceTurn_txData : s.deviceTurn.txData = s.txData := by rw [deviceTurn_frame]
@[simp] theorem deviceTurn_rxData : s.deviceTurn.rxData = s.rxData := by rw [deviceTurn_frame]
@[simp] theorem deviceTurn_pollCnt : s.deviceTurn.pollCnt = s.pollCnt := by rw [deviceTurn_frame]
@[simp] theorem deviceTurn_status : s.deviceTurn.status = s.status := by rw [deviceTurn_frame]
@[simp] theorem deviceTurn_result : s.deviceTurn.result = s.result := by rw [deviceTurn_frame]
@[simp] theorem deviceTurn_chipSelect : s.deviceTurn.chipSelect = s.chipSelect := by rw [deviceTurn_frame]
@[simp] theorem deviceTurn_port : s.deviceTurn.port = s.port := by rw [deviceTurn_frame]
@[simp] theorem deviceTurn_busScript : s.deviceTurn.busScript = s.busScript := by rw [deviceTurn_frame]
@[simp] theorem deviceTurn_sleepScript : s.deviceTurn.sleepScript = s.sleepScript := by rw [deviceTurn_frame]
@[simp] theorem deviceTurn_scheduleEnd : s.deviceTurn.scheduleEnd = s.scheduleEnd := by rw [deviceTurn_frame]
@[simp] theorem deviceTurn_trace : s.deviceTurn.trace = s.trace := by rw [deviceTurn_frame]
@[simp] theorem deviceTurn_calls : s.deviceTurn.calls = s.calls := by rw [deviceTurn_frame]
@[simp] theorem deviceTurn_path : s.deviceTurn.path = s.path := by rw [deviceTurn_frame]
@[simp] theorem deviceTurn_action : s.deviceTurn.action = s.action := by
  simp only [State.action, deviceTurn_op, deviceTurn_addr, deviceTurn_txData]
end

/-- What the device's turn does depends on the device, its schedule and the count of draws alone. -/
theorem deviceTurn_congr {s u : State} (hd : u.dev = s.dev) (hs : u.schedule = s.schedule)
    (he : u.scheduleEnd = s.scheduleEnd) (hk : u.draws = s.draws) :
    u.deviceTurn.dev = s.deviceTurn.dev ∧ u.deviceTurn.schedule = s.deviceTurn.schedule ∧
      u.deviceTurn.draws = s.deviceTurn.draws := by
  unfold State.deviceTurn
  rw [hd, hs, he]
  split
  · split <;> simp [hd, hs, hk]
  · exact ⟨hd, hs, hk⟩

@[simp] theorem deviceTurn_statusHigh (s : State) : s.deviceTurn.dev.statusHigh = s.dev.statusHigh := by
  unfold State.deviceTurn
  split
  · split <;> rfl
  · rfl

@[simp] theorem deviceTurn_rstArmed (s : State) : s.deviceTurn.dev.rstArmed = s.dev.rstArmed := by
  unfold State.deviceTurn
  split
  · split <;> rfl
  · rfl

theorem inv_deviceTurn {s : State} (h : s.dev.inv) : s.deviceTurn.dev.inv := by
  unfold State.deviceTurn
  split
  · split
    · exact inv_complete h
    · exact h
  · exact h

theorem constants_deviceTurn (s : State) : s.deviceTurn.dev.constants = s.dev.constants := by
  unfold State.deviceTurn
  split
  · split <;> rfl
  · rfl

/-- The device's turn changes nothing outside the footprint of the pending cycle, which it makes no larger. -/
theorem read_deviceTurn {s : State} {x : Nat} (hw : Memory.wf s.dev.erasedByte s.dev.capacity s.dev.mem)
    (hx : ∀ r ∈ s.dev.pendingFootprint, ¬ (r.lo ≤ x ∧ x < r.lo + r.len)) :
    Memory.read s.dev.erasedByte s.deviceTurn.dev.mem x = Memory.read s.dev.erasedByte s.dev.mem x ∧
      ∀ r ∈ s.deviceTurn.dev.pendingFootprint, ¬ (r.lo ≤ x ∧ x < r.lo + r.len) := by
  unfold State.deviceTurn
  split
  · split
    · refine ⟨read_complete hw hx, ?_⟩
      simp [Device.complete, Device.pendingFootprint]
    · exact ⟨rfl, hx⟩
  · exact ⟨rfl, hx⟩

/-! ### Bus calls -/

/-- A bus call on a bus that succeeds goes on. -/
theorem busCall_succeeds {c : BusCall} {s : State} {f : BusErr → State → Run α} {g : BusAnswer → State → Run α}
    (h : (s.busScript.headD .ok).succeeds = true) :
    busCall c s f g =
      g (s.busScript.headD .ok) (s.logCall c) := by
  unfold busCall
  revert h
  cases s.busScript.headD .ok <;> intro h <;> first | rfl | cases h

/-- A bus call on a bus that fails takes the failure's way. -/
theorem busCall_err {c : BusCall} {s : State} {f : BusErr → State → Run α} {g : BusAnswer → State → Run α} {e : BusErr}
    (h : s.busScript.headD .ok = .err e) :
    busCall c s f g = f e (s.logCall c) := by
  unfold busCall
  rw [h]

theorem busCall_hang {c : BusCall} {s : State} {f : BusErr → State → Run α} {g : BusAnswer → State → Run α}
    (h : s.busScript.headD .ok = .hang) : busCall c s f g = .stuck .busHang := by
  unfold busCall
  rw [h]

theorem busCall_meets {c : BusCall} {s : State} {f : BusErr → State → Run α} {g : BusAnswer → State → Run α}
    {Q : α → State → Prop} {R : State → Prop}
    (hf : ∀ e, s.busScript.headD .ok = .err e →
      (f e (s.logCall c)).Meets Q R)
    (hg : ∀ a, a.succeeds = true → s.busScript.headD .ok = a →
      (g a (s.logCall c)).Meets Q R) :
    (busCall c s f g).Meets Q R := by
  cases hh : s.busScript.headD .ok with
  | ok => rw [busCall_succeeds (by rw [hh]; rfl), hh]; exact hg _ rfl hh
  | data bs => rw [busCall_succeeds (by rw [hh]; rfl), hh]; exact hg _ rfl hh
  | err e => rw [busCall_err hh]; exact hf e hh
  | hang => rw [busCall_hang hh]; trivial

theorem headD_succeeds {l : List BusAnswer} (h : ∀ a ∈ l, a.succeeds = true) : (l.headD .ok).succeeds = true := by
  cases l with
  | nil => rfl
  | cons a l => exact h a (by simp)

theorem headD_ok {l : List BusAnswer} (h : ∀ a ∈ l, a = .ok) : l.headD .ok = .ok := by
  cases l with
  | nil => rfl
  | cons a l => exact h a (by simp)

theorem deviceAnswers_succeeds {s : State} (h : s.deviceAnswers) : s.busSucceeds := by
  intro a ha; rw [h a ha]; rfl

theorem completed_busSucceeds {s : State} {tx rx : List Byte} {d : Device} (h : s.busSucceeds) :
    (s.completed tx rx d).busSucceeds := fun a ha => h a (List.mem_of_mem_drop ha)

theorem completed_deviceAnswers {s : State} {tx rx : List Byte} {d : Device} (h : s.deviceAnswers) :
    (s.completed tx rx d).deviceAnswers := fun a ha => h a (List.mem_of_mem_drop ha)

/-! ### Transactions that complete -/

/-- The bytes a transaction of `n` receives: the device's, unless the bus names them itself. -/
def received (s : State) (rx : List Byte) (n : Nat) : List Byte :=
  if n = 0 then [] else deliver ((s.busScript.drop 2).headD .ok) rx n s.draws

theorem received_length {s : State} {rx : List Byte} {n : Nat} (h : rx.length = n) : (received s rx n).length = n := by
  unfold received
  split
  · simp_all
  · exact deliver_length h

theorem received_device {s : State} {rx : List Byte} {n : Nat} (h : s.deviceAnswers) (hl : rx.length = n) :
    received s rx n = rx := by
  unfold received
  split
  · subst_vars; exact (List.eq_nil_of_length_eq_zero (by assumption)).symm
  · rw [headD_ok (fun a ha => h a (List.mem_of_mem_drop ha)), deliver_ok]

theorem logCall_busSucceeds {s : State} {c : BusCall} (h : s.busSucceeds) : (s.logCall c).busSucceeds :=
  fun a ha => h a (List.mem_of_mem_tail ha)

theorem select_busSucceeds {s : State} {b : Bool} (h : s.busSucceeds) : (s.select b).busSucceeds := h

theorem tail_tail_tail (l : List BusAnswer) : l.tail.tail.tail = l.drop 3 := by
  rcases l with _ | ⟨_, _ | ⟨_, _ | _⟩⟩ <;> rfl

theorem tail_tail_tail_tail (l : List BusAnswer) : l.tail.tail.tail.tail = l.drop 4 := by
  rcases l with _ | ⟨_, _ | ⟨_, _ | ⟨_, _ | _⟩⟩⟩ <;> rfl

/-- The last two calls of a transaction that succeeds. -/
theorem txnRead_completes {u v : State} {tx rx : List Byte} {n : Nat} {d : Device} (hs : u.busSucceeds)
    (hl : rx.length = n) (hv : v = ((u.logCall .begin).select true).logCall (.write tx)) :
    txnRead tx n rx d v = .ret (received u rx n) (u.completed tx (received u rx n) d) := by
  have hlen := received_length (s := u) hl
  have hvs : v.busSucceeds := by
    rw [hv]; exact logCall_busSucceeds (select_busSucceeds (logCall_busSucceeds hs))
  unfold txnRead
  by_cases hn : n = 0
  · rw [if_pos hn, txnEnd, busCall_succeeds (headD_succeeds hvs)]
    have hrx : received u rx n = [] := by simp [received, hn]
    rw [hrx]
    refine congrArg (Run.ret []) (State.ext ?_ ?_ ?_ ?_ ?_ ?_ ?_ ?_ ?_ ?_ ?_ ?_ ?_ ?_ ?_ ?_ ?_ ?_ ?_ ?_ ?_ ?_ ?_ ?_)
      <;>
      simp [hv, txnCalls, tail_tail_tail]
  · have hrx : deliver (v.busScript.headD .ok) rx n (v.logCall (.read n)).draws = received u rx n := by
      rw [hv]; simp [received, hn]
    rw [if_neg hn, busCall_succeeds (headD_succeeds hvs), hrx, txnEnd,
      busCall_succeeds (headD_succeeds (logCall_busSucceeds hvs))]
    refine congrArg (Run.ret _) (State.ext ?_ ?_ ?_ ?_ ?_ ?_ ?_ ?_ ?_ ?_ ?_ ?_ ?_ ?_ ?_ ?_ ?_ ?_ ?_ ?_ ?_ ?_ ?_ ?_)
      <;>
      simp [hv, txnCalls, hlen, hn, tail_tail_tail_tail]

/-- A transaction on a bus that succeeds completes, with the bytes received and the device as it responded. -/
theorem txn_completes {s : State} {tx rx : List Byte} {n : Nat} {d : Device} (hb : s.busHandle = .held)
    (hs : s.busSucceeds) (hr : s.deviceTurn.dev.receive s.deviceTurn.draws tx n = some (rx, d)) :
    txn tx n s = .ret (received s.deviceTurn rx n) (s.deviceTurn.completed tx (received s.deviceTurn rx n) d) := by
  have hu : s.deviceTurn.busSucceeds := by intro a ha; rw [deviceTurn_busScript] at ha; exact hs a ha
  unfold txn
  simp only [hb, reduceCtorEq, if_false, hr]
  rw [busCall_succeeds (headD_succeeds hu), busCall_succeeds (headD_succeeds (select_busSucceeds (logCall_busSucceeds hu)))]
  exact txnRead_completes hu (receive_length hr) rfl

/-! ### Transactions that end -/

theorem busCall_ends {c : BusCall} {s : State} {f : BusErr → State → Run α} {g : BusAnswer → State → Run α}
    (h : ∀ a ∈ s.busScript, a ≠ .hang) (hf : ∀ e, (f e (s.logCall c)).Ends) (hg : ∀ a, (g a (s.logCall c)).Ends) :
    (busCall c s f g).Ends := by
  have hh : s.busScript.headD .ok ≠ .hang := by
    cases hs : s.busScript with
    | nil => simp
    | cons a l => exact h a (by simp [hs])
  unfold busCall
  split
  · exact absurd (by assumption) hh
  · exact hf _
  · exact hg _
  · exact hg _

/-- A transaction of a frame the device knows ends, on a bus that does not hang. -/
theorem txn_ends {s : State} {tx rx : List Byte} {n : Nat} {d : Device} (hb : s.busHandle = .held)
    (hs : ∀ a ∈ s.busScript, a ≠ .hang) (hr : s.deviceTurn.dev.receive s.deviceTurn.draws tx n = some (rx, d)) :
    (txn tx n s).Ends := by
  have step : ∀ {u : State} {c : BusCall}, (∀ a ∈ u.busScript, a ≠ .hang) → ∀ a ∈ (u.logCall c).busScript, a ≠ .hang :=
    fun h a ha => h a (List.mem_of_mem_tail ha)
  have clean : ∀ {u : State} {st : Stage} {e : BusErr}, (∀ a ∈ u.busScript, a ≠ .hang) →
      (cleanUp (α := List Byte) tx n st e u).Ends := fun h => busCall_ends h (fun _ => trivial) (fun _ => trivial)
  have finish : ∀ {u : State} {r : List Byte}, (∀ a ∈ u.busScript, a ≠ .hang) → (txnEnd tx n r d u).Ends :=
    fun h => busCall_ends h (fun _ => trivial) (fun _ => trivial)
  have hu : ∀ a ∈ s.deviceTurn.busScript, a ≠ .hang := by intro a ha; rw [deviceTurn_busScript] at ha; exact hs a ha
  unfold txn
  simp only [hb, reduceCtorEq, if_false, hr]
  refine busCall_ends hu (fun _ => trivial) (fun _ => ?_)
  have h1 : ∀ a ∈ ((s.deviceTurn.logCall .begin).select true).busScript, a ≠ .hang := step (c := .begin) hu
  have h2 := step (c := .write tx) h1
  refine busCall_ends h1 (fun _ => clean h2) (fun _ => ?_)
  unfold txnRead
  split
  · exact finish h2
  · exact busCall_ends h2 (fun _ => clean (step h2)) (fun _ => finish (step h2))

/-! ### What a transaction can do -/

/-- A transaction went through. -/
def TxnDone (s : State) (tx : List Byte) (n : Nat) (rx : List Byte) (t : State) : Prop :=
  ∃ i drx d, decodeFrame tx n = .ok i ∧ s.deviceTurn.dev.respond s.deviceTurn.draws i = some (drx, d) ∧
    rx.length = n ∧ t = s.deviceTurn.completed tx rx d

/-- The bus calls a transaction may make. -/
def txnCall (tx : List Byte) (n : Nat) (c : BusCall) : Prop :=
  c = .begin ∨ c = .write tx ∨ c = .read n ∨ c = .finish

/-- A transaction failed. -/
def TxnFailed (s : State) (tx : List Byte) (n : Nat) (t : State) : Prop :=
  ∃ i stage e calls sel, decodeFrame tx n = .ok i ∧ (∀ c ∈ calls, txnCall tx n c) ∧
    t = s.deviceTurn.failed tx n stage e calls sel

/-- Everything a transaction can do: it goes through, or it fails. -/
theorem txn_meets (tx : List Byte) (n : Nat) (s : State) : (txn tx n s).Meets (TxnDone s tx n) (TxnFailed s tx n) := by
  unfold txn
  split
  · trivial
  · simp only
    split
    · trivial
    · rename_i rx d hr
      have hl := receive_length hr
      obtain ⟨i, hdec, hresp⟩ : ∃ i, decodeFrame tx n = .ok i ∧
          s.deviceTurn.dev.respond s.deviceTurn.draws i = some (rx, d) := by
        unfold Device.receive at hr
        split at hr
        · exact ⟨_, by assumption, hr⟩
        · cases hr
      have hfail : ∀ (stage : Stage) (e : BusErr) (calls : List BusCall) (t : State),
          (∀ c ∈ calls, txnCall tx n c) →
          t = { s.deviceTurn with
            calls := s.deviceTurn.calls ++ calls, busScript := s.deviceTurn.busScript.drop calls.length
            chipSelect := t.chipSelect } →
          (txnFail (α := List Byte) tx n stage e t).Meets (TxnDone s tx n) (TxnFailed s tx n) := by
        intro stage e calls t hc ht
        refine ⟨i, stage, e, calls, t.chipSelect, hdec, hc, ?_⟩
        rw [ht]
        rfl
      refine busCall_meets (fun e _ => ?_) (fun a _ _ => ?_)
      · exact hfail .begin e [.begin] _ (by simp [txnCall]) (by ext1 <;> simp)
      · refine busCall_meets (fun e _ => ?_) (fun a _ _ => ?_)
        · refine busCall_meets (fun e' _ => ?_) (fun a' _ _ => ?_) <;>
          exact hfail .write e [.begin, .write tx, .finish] _ (by simp [txnCall]) (by ext1 <;> simp [tail_tail_tail])
        · unfold txnRead
          split
          · rename_i hn
            refine busCall_meets (fun e _ => ?_) (fun a _ _ => ?_)
            · exact hfail .finish e [.begin, .write tx, .finish] _ (by simp [txnCall]) (by ext1 <;> simp [tail_tail_tail])
            · exact ⟨i, rx, d, hdec, hresp, hn.symm, by ext1 <;> simp [txnCalls, tail_tail_tail]⟩
          · rename_i hn
            refine busCall_meets (fun e _ => ?_) (fun a _ _ => ?_)
            · refine busCall_meets (fun e' _ => ?_) (fun a' _ _ => ?_) <;>
              exact hfail .read e [.begin, .write tx, .read n, .finish] _ (by simp [txnCall]) (by ext1 <;> simp [tail_tail_tail_tail])
            · have hdl : ∀ k, (deliver a rx n k).length = n := fun k => deliver_length hl
              refine busCall_meets (fun e _ => ?_) (fun a' _ _ => ?_)
              · exact hfail .finish e [.begin, .write tx, .read n, .finish] _ (by simp [txnCall]) (by ext1 <;> simp [tail_tail_tail_tail])
              · exact ⟨i, rx, d, hdec, hresp, hdl _, by ext1 <;> simp [txnCalls, hdl, hn, tail_tail_tail_tail]⟩

end Sys2Proof.Machine
end

