-- ==== Sys2Proof/Laws/Wire.lean ====
section
/-! SUPPORT. The ten wire commands have one shape: their own transaction, the bytes received put away, and the buffer of
a failed read left free. -/

namespace Sys2Proof.Machine

/-- The received bytes put away: STATUS for ReadStatus, RXDATA for the commands that fill the buffer. -/
def store (i : Instr) (rx : List Byte) (s : State) : State :=
  { s with
    status := if i = .readStatus then rx.headD 0#8 else s.status
    rxData := if fillsBuffer i then rx else s.rxData }

/-- The buffer after a failed transaction of `n` bytes. -/
def loseBuffer (i : Instr) (n : Nat) (s : State) : State :=
  { s with rxData := if fillsBuffer i then bytesFrom (Config.freeBuffer s.draws) n else s.rxData }

/-- A wire command as part of an operation. -/
def wireRun (i : Instr) (tx : List Byte) (n : Nat) (s : State) : Run Unit :=
  ((txn tx n s).onRaise (loseBuffer i n)).andThen (fun rx s => .ret () (store i rx s))

theorem store_plain {i : Instr} (h : fillsBuffer i = false) (hi : i ≠ .readStatus) (rx : List Byte) (s : State) :
    store i rx s = s := by
  simp [store, h, hi]

section
variable (rx : List Byte) (s : State)
@[simp] theorem store_writeEnable : store .writeEnable rx s = s := store_plain rfl (by simp) rx s
@[simp] theorem store_pageProgram (a : Addr) (data : List Byte) : store (.pageProgram a data) rx s = s :=
  store_plain rfl (by simp) rx s
@[simp] theorem store_sectorErase (a : Addr) : store (.sectorErase a) rx s = s := store_plain rfl (by simp) rx s
@[simp] theorem store_chipErase : store .chipErase rx s = s := store_plain rfl (by simp) rx s
@[simp] theorem store_enableReset : store .enableReset rx s = s := store_plain rfl (by simp) rx s
@[simp] theorem store_reset : store .reset rx s = s := store_plain rfl (by simp) rx s
@[simp] theorem store_readStatus : store .readStatus rx s = { s with status := rx.headD 0#8 } := rfl
@[simp] theorem store_read (a : Addr) (n : Nat) : store (.read a n) rx s = { s with rxData := rx } := rfl
@[simp] theorem store_readManufacturerId : store .readManufacturerId rx s = { s with rxData := rx } := rfl
@[simp] theorem store_readJedecId : store .readJedecId rx s = { s with rxData := rx } := rfl
end

theorem loseBuffer_plain {i : Instr} (h : fillsBuffer i = false) (n : Nat) (s : State) : loseBuffer i n s = s := by
  simp [loseBuffer, h]

theorem onRaise_id {α : Type} (m : Run α) {g : State → State} (h : ∀ s, g s = s) : m.onRaise g = m := by
  cases m <;> simp [Run.onRaise, h]

theorem wireRun_plain {i : Instr} {tx : List Byte} {n : Nat} (he : encode i = .frame tx n)
    (h : fillsBuffer i = false) (hi : i ≠ .readStatus) (s : State) : wireRun i tx n s = txnSend i s := by
  unfold wireRun txnSend txnOf
  rw [he, onRaise_id _ (loseBuffer_plain h n)]
  simp only [store_plain h hi]

theorem wireRun_buffer {i : Instr} {tx : List Byte} {n : Nat} (he : encode i = .frame tx n)
    (h : fillsBuffer i = true) (s : State) : wireRun i tx n s = txnToBuffer i n s := by
  have hi : i ≠ .readStatus := by rintro rfl; cases h
  unfold wireRun txnToBuffer txnOf loseBuffer store
  rw [he]
  simp [h, hi]

theorem wireRun_readStatus (s : State) : wireRun .readStatus [0x05#8] 1 s = wireReadStatus s := by
  unfold wireRun wireReadStatus txnOf
  rw [onRaise_id _ (loseBuffer_plain rfl 1)]
  rfl

/-- Every wire command is its `wireRun`, taken as one step. -/
theorem exec_wire {i : Instr} {tx : List Byte} {n : Nat} (he : encode i = .frame tx n) (s : State) :
    exec i s = (wireRun i tx n s).outcome := by
  cases i <;> simp only [encode, Encoded.frame.injEq, reduceCtorEq] at he <;> obtain ⟨rfl, rfl⟩ := he
  · rw [wireRun_plain rfl rfl (by simp)]; rfl
  · rw [wireRun_readStatus]; rfl
  · rw [wireRun_buffer rfl rfl]; rfl
  · rw [wireRun_plain rfl rfl (by simp)]; rfl
  · rw [wireRun_plain rfl rfl (by simp)]; rfl
  · rw [wireRun_plain rfl rfl (by simp)]; rfl
  · rw [wireRun_plain rfl rfl (by simp)]; rfl
  · rw [wireRun_plain rfl rfl (by simp)]; rfl
  · rw [wireRun_buffer rfl rfl]; rfl
  · rw [wireRun_buffer rfl rfl]; rfl

/-- A wire command on a bus that succeeds goes on: the transaction completed, its bytes put away. -/
theorem wireRun_completes {i : Instr} {tx rx : List Byte} {n : Nat} {s : State} {d : Device}
    (hw : i.wellFormed = true) (he : encode i = .frame tx n) (hb : s.busHandle = .held) (hs : s.busSucceeds)
    (hr : s.deviceTurn.dev.respond s.deviceTurn.draws i = some (rx, d)) :
    wireRun i tx n s = .ret () (store i (received s.deviceTurn rx n)
      (s.deviceTurn.completed tx (received s.deviceTurn rx n) d)) := by
  unfold wireRun
  rw [txn_completes hb hs (by rw [receive_encode hw he]; exact hr)]
  rfl

/-- The same with the device's own bytes. -/
theorem wireRun_answered {i : Instr} {tx rx : List Byte} {n : Nat} {s : State} {d : Device}
    (hw : i.wellFormed = true) (he : encode i = .frame tx n) (hb : s.busHandle = .held) (hs : s.deviceAnswers)
    (hr : s.deviceTurn.dev.respond s.deviceTurn.draws i = some (rx, d)) :
    wireRun i tx n s = .ret () (store i rx (s.deviceTurn.completed tx rx d)) := by
  rw [wireRun_completes hw he hb (deviceAnswers_succeeds hs) hr]
  have hl : rx.length = n := receive_length (tx := tx) (by rw [receive_encode hw he]; exact hr)
  rw [received_device (by intro a ha; rw [deviceTurn_busScript] at ha; exact hs a ha) hl]

/-- Every wire command has a response. -/
theorem respond_wire {i : Instr} {tx : List Byte} {n : Nat} (he : encode i = .frame tx n) (d : Device) (k : Nat) :
    ∃ rx e, d.respond k i = some (rx, e) := by
  cases i <;> simp [encode] at he <;> exact ⟨_, _, rfl⟩

/-- A wire command ends on a bus that does not hang. -/
theorem wireRun_ends {i : Instr} {tx : List Byte} {n : Nat} {s : State} (hw : i.wellFormed = true)
    (he : encode i = .frame tx n) (hb : s.busHandle = .held) (hs : ∀ a ∈ s.busScript, a ≠ .hang) :
    (wireRun i tx n s).Ends := by
  obtain ⟨rx, d, hr⟩ := respond_wire he s.deviceTurn.dev s.deviceTurn.draws
  have h := txn_ends hb hs (by rw [receive_encode hw he]; exact hr)
  unfold wireRun
  exact Run.ends_andThen (R := fun _ => True) (Run.ends_onRaise.mpr h) (by cases (txn tx n s).onRaise _ <;> trivial)

/-- A wire command of a frame went through, from `s` to `t`. -/
def WireDone (i : Instr) (s : State) (tx : List Byte) (n : Nat) (t : State) : Prop :=
  ∃ rx u, TxnDone s tx n rx u ∧ t = store i rx u

/-- A wire command of a frame failed, from `s` to `t`. -/
def WireFailed (i : Instr) (s : State) (tx : List Byte) (n : Nat) (t : State) : Prop :=
  ∃ u, TxnFailed s tx n u ∧ t = loseBuffer i n u

/-- Everything a wire command can do. -/
theorem wireRun_meets (i : Instr) (tx : List Byte) (n : Nat) (s : State) :
    (wireRun i tx n s).Meets (fun _ t => WireDone i s tx n t) (WireFailed i s tx n) := by
  unfold wireRun
  rw [Run.meets_andThen, Run.meets_onRaise]
  exact (txn_meets tx n s).mono (fun rx u h => ⟨rx, u, h, rfl⟩) (fun u h => ⟨u, h, rfl⟩)

section
variable {i : Instr} {rx : List Byte} {n : Nat} {s : State}
@[simp] theorem store_busHandle : (store i rx s).busHandle = s.busHandle := rfl
@[simp] theorem store_delayHandle : (store i rx s).delayHandle = s.delayHandle := rfl
@[simp] theorem store_maxPolls : (store i rx s).maxPolls = s.maxPolls := rfl
@[simp] theorem store_pollDelay : (store i rx s).pollDelay = s.pollDelay := rfl
@[simp] theorem store_phase : (store i rx s).phase = s.phase := rfl
@[simp] theorem store_op : (store i rx s).op = s.op := rfl
@[simp] theorem store_addr : (store i rx s).addr = s.addr := rfl
@[simp] theorem store_len : (store i rx s).len = s.len := rfl
@[simp] theorem store_txData : (store i rx s).txData = s.txData := rfl
@[simp] theorem store_pollCnt : (store i rx s).pollCnt = s.pollCnt := rfl
@[simp] theorem store_result : (store i rx s).result = s.result := rfl
@[simp] theorem store_dev : (store i rx s).dev = s.dev := rfl
@[simp] theorem store_port : (store i rx s).port = s.port := rfl
@[simp] theorem store_busScript : (store i rx s).busScript = s.busScript := rfl
@[simp] theorem store_sleepScript : (store i rx s).sleepScript = s.sleepScript := rfl
@[simp] theorem store_schedule : (store i rx s).schedule = s.schedule := rfl
@[simp] theorem store_trace : (store i rx s).trace = s.trace := rfl
@[simp] theorem store_calls : (store i rx s).calls = s.calls := rfl
@[simp] theorem store_path : (store i rx s).path = s.path := rfl
@[simp] theorem store_draws : (store i rx s).draws = s.draws := rfl
end

end Sys2Proof.Machine
end

