-- ==== Sys2Proof/Laws/Operate.lean ====
section
/-! SUPPORT. The eight host operations over their wire commands: one equation for each, and what a latch, a raise and a
response leave alone. -/

namespace Sys2Proof.Machine

/-! ### The operations -/

theorem exec_opRead (a : Addr) (n : Nat) (s : State) :
    exec (.opRead a n) s = operate s (latchRead a n) (wireRun (.read a n) (0x03#8 :: addr3 a) n) :=
  (congrArg (operate s (latchRead a n)) (funext (wireRun_buffer rfl rfl))).symm

theorem exec_opWriteEnable (s : State) :
    exec .opWriteEnable s = operate s latchWriteEnable (wireRun .writeEnable [0x06#8] 0) :=
  (congrArg (operate s latchWriteEnable) (funext (wireRun_plain rfl rfl (by simp)))).symm

theorem exec_opReadManufacturerId (s : State) :
    exec .opReadManufacturerId s = operate s latchReadManufacturerId
      (wireRun .readManufacturerId [0x90#8, 0x00#8, 0x00#8, 0x00#8] 2) :=
  (congrArg (operate s latchReadManufacturerId) (funext (wireRun_buffer rfl rfl))).symm

theorem exec_opReadJedecId (s : State) :
    exec .opReadJedecId s = operate s latchReadJedecId (wireRun .readJedecId [0x9F#8] 3) :=
  (congrArg (operate s latchReadJedecId) (funext (wireRun_buffer rfl rfl))).symm

theorem exec_opSoftwareReset (s : State) :
    exec .opSoftwareReset s = operate s latchSoftwareReset (fun s =>
      (wireRun .enableReset [0x66#8] 0 s).andThen fun _ s => wireRun .reset [0x99#8] 0 (s.enter .rstExec)) := by
  show execOpSoftwareReset s = _
  unfold execOpSoftwareReset
  refine congrArg (operate s latchSoftwareReset) (funext fun u => ?_)
  rw [wireRun_plain rfl rfl (by simp)]
  exact congrArg _ (funext fun _ => funext fun v => (wireRun_plain rfl rfl (by simp) _).symm)

/-- The template of a mutating operation over its two frames and its wait. -/
theorem mutate_wire {i : Instr} {tx : List Byte} (he : encode i = .frame tx 0) (hf : fillsBuffer i = false)
    (hi : i ≠ .readStatus) (c : PollClass) (s : State) :
    mutate c (txnSend i) s = (wireRun .writeEnable [0x06#8] 0 s).andThen fun _ s =>
      (wireRun i tx 0 (s.enter .action)).andThen fun _ s => busyWait c s := by
  rw [wireRun_plain rfl rfl (by simp)]
  refine congrArg _ (funext fun _ => funext fun v => ?_)
  rw [wireRun_plain he hf hi]

theorem exec_opPageProgram (a : Addr) (data : List Byte) (s : State) :
    exec (.opPageProgram a data) s = operate s (latchPageProgram a data) (fun s =>
      if Config.pageSize < data.length then .raised (s.raiseError .invalidLength)
      else mutate .pp (txnSend (.pageProgram a data)) (s.enter .wren)) := rfl

theorem exec_opSectorErase (a : Addr) (s : State) :
    exec (.opSectorErase a) s = operate s (latchSectorErase a) (mutate .se (txnSend (.sectorErase a))) := rfl

theorem exec_opChipErase (s : State) :
    exec .opChipErase s = operate s latchChipErase (mutate .ce (txnSend .chipErase)) := rfl

/-- One round of the busy-wait. -/
theorem pollLoop_succ (c : PollClass) (fuel : Nat) (s : State) :
    pollLoop c (fuel + 1) s = (wireRun .readStatus [0x05#8] 1 s).andThen fun _ s =>
      if isBusy s.status = false then .ret () s.countPoll
      else if s.pollCnt + 1 = s.maxPolls.get c then .raised s.countPoll.raiseTimeout
      else (sleepOnce c (s.countPoll.enter .sleeping)).andThen fun _ s => pollLoop c fuel (s.enter .poll) := by
  rw [wireRun_readStatus]
  rfl

/-! ### The device's turn, after an update that leaves the device alone -/

theorem deviceTurn_same {s u : State} (hd : u.dev = s.dev) (hs : u.schedule = s.schedule)
    (he : u.scheduleEnd = s.scheduleEnd) (hk : u.draws = s.draws) :
    u.deviceTurn =
      { u with dev := s.deviceTurn.dev, schedule := s.deviceTurn.schedule, draws := s.deviceTurn.draws } := by
  obtain ⟨h1, h2, h3⟩ := deviceTurn_congr hd hs he hk
  rw [deviceTurn_frame, h1, h2, h3]

/-- The device's turn on a busy device. -/
theorem deviceTurn_busy {s : State} (h : s.dev.busy = true) :
    s.deviceTurn = { s with
      dev := if s.schedule.headD s.scheduleEnd then s.dev.complete s.draws else s.dev
      draws := if s.schedule.headD s.scheduleEnd then s.draws + 1 else s.draws
      schedule := s.schedule.tail } := by
  unfold State.deviceTurn
  rw [if_pos h]
  cases s.schedule.headD s.scheduleEnd <;> rfl

/-! ### Sleep -/

theorem sleepOnce_returns {c : PollClass} {s : State} (hd : s.delayHandle = .held) (hs : s.sleepsReturn) :
    sleepOnce c s = .ret () ({ s with sleepScript := s.sleepScript.tail }.record (.sleep (s.pollDelay.get c))) := by
  have : s.sleepScript.headD .returns = .returns := by
    cases h : s.sleepScript with
    | nil => rfl
    | cons a l => exact hs a (by simp [h])
  simp only [sleepOnce, hd, reduceCtorEq, if_false]
  rw [this]

/-- Everything a Sleep can do. -/
theorem sleepOnce_meets (c : PollClass) (s : State) :
    (sleepOnce c s).Meets
      (fun _ t => t = { s with sleepScript := s.sleepScript.tail, trace := s.trace ++ [.sleep (s.pollDelay.get c)] })
      (fun _ => False) := by
  unfold sleepOnce
  split
  · trivial
  · split
    · trivial
    · exact rfl

end Sys2Proof.Machine
end

