-- ==== Sys2Proof/Laws/Kept.lean ====
section
/-! SUPPORT. What no part of an operation changes: the configuration, the handles, the operand latches, the host's
inputs, the device's constants; and what every part keeps: the device's invariant and the legality of the frames. -/

namespace Sys2Proof.Machine

/-- A frame the decoder accepts is legal. -/
theorem legal_of_decode {tx : List Byte} {n : Nat} {i : Instr} (h : decodeFrame tx n = .ok i) :
    legalTx tx = true ∧ ∀ rx : List Byte, rx.length = n → legalRx tx rx = true := by
  unfold decodeFrame at h
  split at h
  · cases h
  · split at h
    · obtain ⟨-, rfl, rfl⟩ := decodeBare_ok h
      subst_vars; exact ⟨by decide, fun rx hr => by simp [legalRx, receivedBytes, hr]⟩
    split at h
    · obtain ⟨-, rfl, rfl⟩ := decodeBare_ok h
      subst_vars; exact ⟨by decide, fun rx hr => by simp [legalRx, receivedBytes, hr]⟩
    split at h
    · obtain ⟨_, _, _, rfl, -⟩ := decodeRead_ok h
      subst_vars; exact ⟨by simp [legalTx, wireOpcodes, operandBytes], fun rx _ => by simp [legalRx]⟩
    split at h
    · obtain ⟨_, _, _, data, rfl, rfl, hl, -⟩ := decodePageProgram_ok h
      simp only [Config.pageSize] at hl
      subst_vars; exact ⟨by simp [legalTx, wireOpcodes]; omega, fun rx hr => by simp [legalRx, receivedBytes, hr]⟩
    split at h
    · obtain ⟨_, _, _, rfl, rfl, -⟩ := decodeSectorErase_ok h
      subst_vars
      exact ⟨by simp [legalTx, wireOpcodes, operandBytes], fun rx hr => by simp [legalRx, receivedBytes, hr]⟩
    split at h
    · obtain ⟨-, rfl, rfl⟩ := decodeBare_ok h
      subst_vars; exact ⟨by decide, fun rx hr => by simp [legalRx, receivedBytes, hr]⟩
    split at h
    · obtain ⟨-, rfl, rfl⟩ := decodeBare_ok h
      subst_vars; exact ⟨by decide, fun rx hr => by simp [legalRx, receivedBytes, hr]⟩
    split at h
    · obtain ⟨-, rfl, rfl⟩ := decodeBare_ok h
      subst_vars; exact ⟨by decide, fun rx hr => by simp [legalRx, receivedBytes, hr]⟩
    split at h
    · obtain ⟨rfl, rfl, -⟩ := decodeReadManufacturerId_ok h
      subst_vars; exact ⟨by decide, fun rx hr => by simp [legalRx, receivedBytes, hr]⟩
    split at h
    · obtain ⟨-, rfl, rfl⟩ := decodeBare_ok h
      subst_vars; exact ⟨by decide, fun rx hr => by simp [legalRx, receivedBytes, hr]⟩
    · cases h

/-- What parts of an operation keep, from `s` to `t`. -/
structure Kept (s t : State) : Prop where
  busHandle   : t.busHandle = s.busHandle
  delayHandle : t.delayHandle = s.delayHandle
  maxPolls    : t.maxPolls = s.maxPolls
  pollDelay   : t.pollDelay = s.pollDelay
  op          : t.op = s.op
  addr        : t.addr = s.addr
  len         : t.len = s.len
  txData      : t.txData = s.txData
  port        : t.port = s.port
  constants   : t.dev.constants = s.dev.constants
  inv         : s.dev.inv → t.dev.inv
  legal       : FramesLegal s → FramesLegal t

theorem Kept.refl (s : State) : Kept s s := ⟨rfl, rfl, rfl, rfl, rfl, rfl, rfl, rfl, rfl, rfl, id, id⟩

theorem Kept.trans {s t u : State} (h : Kept s t) (k : Kept t u) : Kept s u :=
  ⟨k.busHandle.trans h.busHandle, k.delayHandle.trans h.delayHandle, k.maxPolls.trans h.maxPolls,
    k.pollDelay.trans h.pollDelay, k.op.trans h.op, k.addr.trans h.addr, k.len.trans h.len, k.txData.trans h.txData,
    k.port.trans h.port, k.constants.trans h.constants, fun x => k.inv (h.inv x), fun x => k.legal (h.legal x)⟩

theorem legal_append {e : Event} {l : List Event} (h : ∀ x ∈ l, legalEvent x = true) (he : legalEvent e = true) :
    ∀ x ∈ l ++ [e], legalEvent x = true := by
  intro x hx
  rcases List.mem_append.mp hx with hx | hx
  · exact h x hx
  · rw [List.mem_singleton.mp hx]; exact he

theorem legal_calls {cs l : List BusCall} (h : ∀ c ∈ l, legalCall c = true) (hc : ∀ c ∈ cs, legalCall c = true) :
    ∀ c ∈ l ++ cs, legalCall c = true := by
  intro c hx
  rcases List.mem_append.mp hx with hx | hx
  · exact h c hx
  · exact hc c hx

theorem kept_enter (s : State) (p : Phase) : Kept s (s.enter p) :=
  ⟨rfl, rfl, rfl, rfl, rfl, rfl, rfl, rfl, rfl, rfl, id, id⟩
theorem kept_countPoll (s : State) : Kept s s.countPoll := ⟨rfl, rfl, rfl, rfl, rfl, rfl, rfl, rfl, rfl, rfl, id, id⟩
theorem kept_enterPoll (s : State) : Kept s s.enterPoll := ⟨rfl, rfl, rfl, rfl, rfl, rfl, rfl, rfl, rfl, rfl, id, id⟩
theorem kept_succeed (s : State) : Kept s s.succeed := ⟨rfl, rfl, rfl, rfl, rfl, rfl, rfl, rfl, rfl, rfl, id, id⟩
theorem kept_raiseError (s : State) (k : Result) : Kept s (s.raiseError k) :=
  ⟨rfl, rfl, rfl, rfl, rfl, rfl, rfl, rfl, rfl, rfl, id, id⟩
theorem kept_raiseTimeout (s : State) : Kept s s.raiseTimeout :=
  ⟨rfl, rfl, rfl, rfl, rfl, rfl, rfl, rfl, rfl, constants_unresolve .., inv_unresolve, id⟩
theorem kept_respond (s : State) : Kept s s.respond :=
  ⟨rfl, rfl, rfl, rfl, rfl, rfl, rfl, rfl, rfl, rfl, id, fun h => ⟨legal_append h.1 rfl, h.2⟩⟩

theorem kept_deviceTurn (s : State) : Kept s s.deviceTurn := by
  refine ⟨?_, ?_, ?_, ?_, ?_, ?_, ?_, ?_, ?_, constants_deviceTurn s, inv_deviceTurn, fun h => ⟨?_, ?_⟩⟩ <;>
    simp only [deviceTurn_busHandle, deviceTurn_delayHandle, deviceTurn_maxPolls, deviceTurn_pollDelay, deviceTurn_op,
      deviceTurn_addr, deviceTurn_len, deviceTurn_txData, deviceTurn_port, deviceTurn_trace, deviceTurn_calls]
  · exact h.1
  · exact h.2

/-- A wire command that went through. -/
theorem kept_wireDone {i : Instr} {s t : State} {tx : List Byte} {n : Nat} (h : WireDone i s tx n t) : Kept s t := by
  obtain ⟨rx, u, ⟨j, drx, d, hdec, hresp, hl, rfl⟩, rfl⟩ := h
  obtain ⟨ht, hr⟩ := legal_of_decode hdec
  refine (kept_deviceTurn s).trans ⟨rfl, rfl, rfl, rfl, rfl, rfl, rfl, rfl, rfl, constants_respond hresp,
    fun h => inv_respond h hresp, fun h => ⟨?_, ?_⟩⟩
  · exact legal_append h.1 (by simp [legalEvent, ht, hr rx hl])
  · refine legal_calls h.2 (fun c hc => ?_)
    unfold txnCalls at hc
    split at hc <;> simp at hc <;> rcases hc with rfl | rfl | rfl | rfl <;> first | rfl | exact ht

/-- A wire command that failed. -/
theorem kept_wireFailed {i : Instr} {s t : State} {tx : List Byte} {n : Nat} (h : WireFailed i s tx n t) : Kept s t := by
  obtain ⟨u, ⟨j, st, e, calls, sel, hdec, hcalls, rfl⟩, rfl⟩ := h
  obtain ⟨ht, -⟩ := legal_of_decode hdec
  refine (kept_deviceTurn s).trans ⟨rfl, rfl, rfl, rfl, rfl, rfl, rfl, rfl, rfl, constants_afterFailure ..,
    fun h => inv_afterFailure h, fun h => ⟨legal_append h.1 rfl, legal_calls h.2 (fun c hc => ?_)⟩⟩
  rcases hcalls c hc with rfl | rfl | rfl | rfl <;> first | rfl | exact ht

theorem wireRun_kept (i : Instr) (tx : List Byte) (n : Nat) (s : State) :
    (wireRun i tx n s).Meets (fun _ t => Kept s t) (fun t => Kept s t ∧ t.phase = .done) := by
  refine (wireRun_meets i tx n s).mono (fun _ t h => kept_wireDone h) (fun t h => ⟨kept_wireFailed h, ?_⟩)
  obtain ⟨u, ⟨j, st, e, calls, sel, hdec, hcalls, rfl⟩, rfl⟩ := h
  rfl

theorem sleepOnce_kept (c : PollClass) (s : State) :
    (sleepOnce c s).Meets (fun _ t => Kept s t) (fun _ => False) := by
  refine (sleepOnce_meets c s).mono (fun _ t h => ?_) (fun _ h => h)
  subst h
  exact ⟨rfl, rfl, rfl, rfl, rfl, rfl, rfl, rfl, rfl, rfl, id, fun h => ⟨legal_append h.1 rfl, h.2⟩⟩

/-- What the busy-wait keeps. -/
theorem pollLoop_kept (c : PollClass) (fuel : Nat) (s : State) :
    (pollLoop c fuel s).Meets (fun _ t => Kept s t) (fun t => Kept s t ∧ t.phase = .done) := by
  induction fuel generalizing s with
  | zero => trivial
  | succ fuel ih =>
    rw [pollLoop_succ, Run.meets_andThen]
    refine (wireRun_kept _ _ _ s).mono (fun _ t h => ?_) (fun _ h => h)
    split
    · exact h.trans (kept_countPoll t)
    · split
      · exact ⟨h.trans ((kept_countPoll t).trans (kept_raiseTimeout _)), rfl⟩
      · rw [Run.meets_andThen]
        refine (sleepOnce_kept c _).mono (fun _ u hu => ?_) (fun _ h => h.elim)
        have hk := (h.trans (kept_countPoll t)).trans ((kept_enter _ .sleeping).trans (hu.trans (kept_enter u .poll)))
        exact (ih _).mono (fun _ v hv => hk.trans hv) (fun v hv => ⟨hk.trans hv.1, hv.2⟩)

/-- What a mutating operation keeps, once its operands are latched. -/
theorem mutate_kept {i : Instr} {tx : List Byte} (he : encode i = .frame tx 0) (hf : fillsBuffer i = false)
    (hi : i ≠ .readStatus) (c : PollClass) (s : State) :
    (mutate c (txnSend i) s).Meets (fun _ t => Kept s t) (fun t => Kept s t ∧ t.phase = .done) := by
  rw [mutate_wire he hf hi, Run.meets_andThen]
  refine (wireRun_kept _ _ _ s).mono (fun _ t ht => ?_) (fun _ h => h)
  rw [Run.meets_andThen]
  have hk := ht.trans (kept_enter t .action)
  refine (wireRun_kept _ _ _ _).mono (fun _ u hu => ?_) (fun u hu => ⟨hk.trans hu.1, hu.2⟩)
  have hl := hk.trans (hu.trans (kept_enterPoll u))
  exact (pollLoop_kept c _ _).mono (fun _ v hv => hl.trans hv) (fun v hv => ⟨hl.trans hv.1, hv.2⟩)

/-- Every host operation that runs from an idle sequencer keeps all of it, from its latched operands to its response,
and ends idle. -/
theorem hostOp_kept {i : Instr} {s t : State} (hi : isHostOp i = true) (hp : s.phase = .idle)
    (h : exec i s = .next t) : Kept (accept i s) t ∧ t.phase = .idle := by
  have finish : ∀ {latch : State → State} {body : State → Run Unit}, operate s latch body = .next t →
      (body (latch s)).Meets (fun _ u => Kept (latch s) u) (fun u => Kept (latch s) u ∧ u.phase = .done) →
      Kept (latch s) t ∧ t.phase = .idle := by
    intro latch body ho hm
    refine Run.meets_finish (Q := fun t => Kept (latch s) t ∧ t.phase = .idle) (hm.mono (fun _ u hu => ?_) (fun u hu => ?_)) (operate_next ho hp).2
    · exact ⟨hu.trans ((kept_succeed u).trans (kept_respond _)), rfl⟩
    · exact ⟨hu.1.trans (kept_respond u), rfl⟩
  cases i <;> simp [isHostOp, encode] at hi
  · rw [exec_opRead] at h; exact finish h (wireRun_kept ..)
  · rw [exec_opPageProgram] at h
    refine finish h ?_
    split
    · exact ⟨kept_raiseError .., rfl⟩
    · exact (mutate_kept rfl rfl (by simp) _ _).mono (fun _ u hu => (kept_enter _ _).trans hu)
        (fun u hu => ⟨(kept_enter _ _).trans hu.1, hu.2⟩)
  · rw [exec_opSectorErase] at h; exact finish h (mutate_kept rfl rfl (by simp) _ _)
  · rw [exec_opChipErase] at h; exact finish h (mutate_kept rfl rfl (by simp) _ _)
  · rw [exec_opSoftwareReset] at h
    refine finish h ?_
    rw [Run.meets_andThen]
    refine (wireRun_kept _ _ _ _).mono (fun _ u hu => ?_) (fun _ h => h)
    have hk := hu.trans (kept_enter u .rstExec)
    exact (wireRun_kept _ _ _ _).mono (fun _ v hv => hk.trans hv) (fun v hv => ⟨hk.trans hv.1, hv.2⟩)
  · rw [exec_opWriteEnable] at h; exact finish h (wireRun_kept ..)
  · rw [exec_opReadManufacturerId] at h; exact finish h (wireRun_kept ..)
  · rw [exec_opReadJedecId] at h; exact finish h (wireRun_kept ..)

end Sys2Proof.Machine
end

