-- ==== Sys2Proof/Laws/BusyWait.lean ====
section
/-! SUPPORT. The busy-wait and the mutating template: the traces they can give, that they end, and what they do on a
device that answers. -/

namespace Sys2Proof.Machine

/-! ### Events of a wire command -/

/-- The event of a wire command that went through, and what it left alone. -/
theorem wireDone_trace {i : Instr} {s t : State} {tx : List Byte} {n : Nat} (h : WireDone i s tx n t) :
    ∃ rx : List Byte, rx.length = n ∧ t.trace = s.trace ++ [.txn tx rx] ∧ t.phase = s.phase ∧ t.pollCnt = s.pollCnt ∧
      (i = .readStatus → t.status = rx.headD 0#8) ∧ (fillsBuffer i = true → t.rxData = rx) := by
  obtain ⟨rx, u, ⟨j, drx, d, hdec, hresp, hl, rfl⟩, rfl⟩ := h
  refine ⟨rx, hl, by simp, by simp, by simp, fun h => ?_, fun h => ?_⟩
  · simp [store, h]
  · simp [store, h]

/-- The event of a wire command that failed. -/
theorem wireFailed_trace {i : Instr} {s t : State} {tx : List Byte} {n : Nat} (h : WireFailed i s tx n t) :
    ∃ stage e, t.trace = s.trace ++ [.txnFail stage e] ∧ t.result = .busError e ∧ t.phase = .done := by
  obtain ⟨u, ⟨j, st, e, calls, sel, hdec, hcalls, rfl⟩, rfl⟩ := h
  exact ⟨st, e, by simp [loseBuffer, State.failed], rfl, rfl⟩

/-- Everything a wire command does to the trace. -/
theorem wireRun_trace (i : Instr) (tx : List Byte) (n : Nat) (s : State) :
    (wireRun i tx n s).Meets
      (fun _ t => Kept s t ∧ ∃ rx : List Byte, rx.length = n ∧ t.trace = s.trace ++ [.txn tx rx] ∧ t.phase = s.phase ∧
        t.pollCnt = s.pollCnt ∧ (i = .readStatus → t.status = rx.headD 0#8) ∧ (fillsBuffer i = true → t.rxData = rx))
      (fun t => Kept s t ∧ ∃ stage e, t.trace = s.trace ++ [.txnFail stage e] ∧ t.result = .busError e ∧
        t.phase = .done) :=
  (wireRun_meets i tx n s).mono (fun _ _ h => ⟨kept_wireDone h, wireDone_trace h⟩)
    (fun _ h => ⟨kept_wireFailed h, wireFailed_trace h⟩)

/-! ### Parts that end -/

/-- A wire command leaves a bus that does not hang, and Sleeps that return. -/
theorem wireRun_nothingHangs (i : Instr) (tx : List Byte) (n : Nat) {s : State} (hs : s.nothingHangs) :
    (wireRun i tx n s).Meets (fun _ t => Kept s t ∧ t.nothingHangs) (fun _ => True) := by
  refine (wireRun_meets i tx n s).mono (fun _ t h => ⟨kept_wireDone h, ?_⟩) (fun _ _ => trivial)
  obtain ⟨rx, u, ⟨j, drx, d, hdec, hresp, hl, rfl⟩, rfl⟩ := h
  refine ⟨fun a ha => hs.1 a ?_, fun a ha => hs.2 a ?_⟩
  · simp only [store_busScript, State.completed_busScript, deviceTurn_busScript] at ha
    exact List.mem_of_mem_drop ha
  · simpa using ha

theorem pollLoop_ends {c : PollClass} {fuel : Nat} {s : State} (hh : s.holds) (hs : s.nothingHangs) (hf : 1 ≤ fuel)
    (hp : s.pollCnt + fuel = s.maxPolls.get c) : (pollLoop c fuel s).Ends := by
  induction fuel generalizing s with
  | zero => omega
  | succ fuel ih =>
    rw [pollLoop_succ]
    refine Run.ends_andThen (R := fun _ => True) (wireRun_ends rfl rfl hh.1 hs.1) ?_
    refine ((wireRun_nothingHangs _ _ _ hs).and (wireRun_trace _ _ _ s)).mono (fun _ t h => ?_) (fun _ _ => trivial)
    obtain ⟨⟨hk, hn⟩, -, rx, hl, ht, hph, hpc, -⟩ := h
    split
    · trivial
    · split
      · trivial
      · rename_i hne
        rw [hpc, hk.maxPolls] at hne
        rw [sleepOnce_returns (s := t.countPoll.enter .sleeping) (hk.delayHandle.trans hh.2) hn.2]
        refine ih ⟨hk.busHandle.trans hh.1, hk.delayHandle.trans hh.2⟩
          ⟨hn.1, fun a ha => hn.2 a (List.mem_of_mem_tail ha)⟩ (by omega) ?_
        show t.pollCnt + 1 + fuel = t.maxPolls.get c
        rw [hk.maxPolls, hpc]; omega

theorem mutate_ends {i : Instr} {tx : List Byte} {c : PollClass} {s : State} (hw : i.wellFormed = true)
    (he : encode i = .frame tx 0) (hf : fillsBuffer i = false) (hi : i ≠ .readStatus) (hh : s.holds)
    (hs : s.nothingHangs) (hm : 1 ≤ s.maxPolls.get c) : (mutate c (txnSend i) s).Ends := by
  rw [mutate_wire he hf hi]
  refine Run.ends_andThen (R := fun _ => True) (wireRun_ends rfl rfl hh.1 hs.1) ?_
  refine (wireRun_nothingHangs _ _ _ hs).mono (fun _ t h => ?_) (fun _ _ => trivial)
  have hb : (t.enter .action).busHandle = .held := h.1.busHandle.trans hh.1
  refine Run.ends_andThen (R := fun _ => True) (wireRun_ends hw he hb h.2.1) ?_
  refine (wireRun_nothingHangs _ _ _ (s := t.enter .action) h.2).mono (fun _ u hu => ?_) (fun _ _ => trivial)
  have hk := h.1.trans ((kept_enter t .action).trans hu.1)
  refine pollLoop_ends ⟨hk.busHandle.trans hh.1, hk.delayHandle.trans hh.2⟩ hu.2 (by rw [hk.maxPolls]; exact hm) ?_
  show 0 + _ = _
  simp

/-! ### The traces -/

/-- Every way the busy-wait can go, with its events (41_subprotocols.md R165). -/
theorem pollLoop_trace (c : PollClass) (fuel : Nat) (s : State) (hp : s.pollCnt + fuel = s.maxPolls.get c) :
    (pollLoop c fuel s).Meets
      (fun _ t => ∃ bs i, (∀ b ∈ bs, isBusy b = true) ∧ isBusy i = false ∧ bs.length + 1 ≤ fuel ∧
        t.trace = s.trace ++ busyPolls (s.pollDelay.get c) bs ++ [.txn [0x05#8] [i]] ∧
        t.pollCnt = s.pollCnt + bs.length + 1)
      (fun t =>
        (∃ bs stage e, (∀ b ∈ bs, isBusy b = true) ∧ bs.length + 1 ≤ fuel ∧
          t.trace = s.trace ++ busyPolls (s.pollDelay.get c) bs ++ [.txnFail stage e] ∧ t.result = .busError e) ∨
        (∃ bs b, (∀ x ∈ bs, isBusy x = true) ∧ isBusy b = true ∧ bs.length + 1 = fuel ∧
          t.trace = s.trace ++ busyPolls (s.pollDelay.get c) bs ++ [.txn [0x05#8] [b]] ∧ t.result = .timeout)) := by
  induction fuel generalizing s with
  | zero => trivial
  | succ fuel ih =>
    rw [pollLoop_succ, Run.meets_andThen]
    refine (wireRun_trace _ _ _ s).mono (fun _ t h => ?_) (fun t h => ?_)
    · obtain ⟨hk, rx, hl, ht, hph, hpc, hst, -⟩ := h
      obtain ⟨b, rfl⟩ := List.length_eq_one_iff.mp hl
      have hst := hst rfl
      simp only [List.headD_cons] at hst
      rw [hst, hpc, hk.maxPolls]
      split
      · exact ⟨[], b, by simp, by assumption, by simp, by simp [busyPolls, ht], by simp [hpc]⟩
      · rename_i hb
        have hb : isBusy b = true := by simpa using hb
        split
        · exact .inr ⟨[], b, by simp, hb, by simp; omega, by simp [busyPolls, ht], rfl⟩
        · rename_i hne
          rw [Run.meets_andThen]
          refine (sleepOnce_meets c _).mono (fun _ u hu => ?_) (fun _ h => h.elim)
          have hut : (u.enter .poll).trace = s.trace ++ [.txn [0x05#8] [b], .sleep (s.pollDelay.get c)] := by
            rw [hu]; simp [ht, hk.pollDelay]
          have hud : (u.enter .poll).pollDelay = s.pollDelay := by rw [hu]; simp [hk.pollDelay]
          have huc : (u.enter .poll).pollCnt = s.pollCnt + 1 := by rw [hu]; simp [hpc]
          have hum : (u.enter .poll).maxPolls = s.maxPolls := by rw [hu]; simp [hk.maxPolls]
          refine (ih (u.enter .poll) (by rw [huc, hum]; omega)).mono (fun _ v hv => ?_) (fun v hv => ?_)
          · obtain ⟨bs, i, h1, h2, h3, h4, h5⟩ := hv
            refine ⟨b :: bs, i, by simpa [hb] using h1, h2, by simp; omega, ?_, by rw [h5, huc]; simp; omega⟩
            rw [h4, hut, hud]; simp [busyPolls]
          · rcases hv with ⟨bs, stage, e, h1, h3, h4, h5⟩ | ⟨bs, i, h1, h2, h3, h4, h5⟩
            · refine .inl ⟨b :: bs, stage, e, by simpa [hb] using h1, by simp; omega, ?_, h5⟩
              rw [h4, hut, hud]; simp [busyPolls]
            · refine .inr ⟨b :: bs, i, by simpa [hb] using h1, h2, by simp; omega, ?_, h5⟩
              rw [h4, hut, hud]; simp [busyPolls]
    · obtain ⟨hk, stage, e, h1, h2, h3⟩ := h
      exact .inl ⟨[], stage, e, by simp, by simp, by simp [busyPolls, h1], h2⟩

/-- Every way the mutating template can go, with its events (41_subprotocols.md R165). -/
theorem mutate_trace {i : Instr} {tx : List Byte} (he : encode i = .frame tx 0) (hf : fillsBuffer i = false)
    (hi : i ≠ .readStatus) (c : PollClass) (s : State) :
    (mutate c (txnSend i) s).Meets
      (fun _ t => ∃ ev, t.trace = s.trace ++ ev ∧
        MutateTrace tx (s.maxPolls.get c) (s.pollDelay.get c) ev (.ok []))
      (fun t => ∃ ev, t.trace = s.trace ++ ev ∧
        MutateTrace tx (s.maxPolls.get c) (s.pollDelay.get c) ev t.result) := by
  rw [mutate_wire he hf hi, Run.meets_andThen]
  refine (wireRun_trace _ _ _ s).mono (fun _ t h => ?_) (fun t h => ?_)
  · obtain ⟨hk, rx, hl, ht, -⟩ := h
    obtain rfl := List.length_eq_zero_iff.mp hl
    rw [Run.meets_andThen]
    refine (wireRun_trace _ _ _ _).mono (fun _ u hu => ?_) (fun u hu => ?_)
    · obtain ⟨hk', rx, hl, hut, -⟩ := hu
      obtain rfl := List.length_eq_zero_iff.mp hl
      have hk2 := hk.trans ((kept_enter t .action).trans (hk'.trans (kept_enterPoll u)))
      have h0 : u.enterPoll.trace = s.trace ++ [.txn [0x06#8] [], .txn tx []] := by simp [hut, ht]
      have hm : u.maxPolls = s.maxPolls := hk2.maxPolls
      show (pollLoop c (u.maxPolls.get c) u.enterPoll).Meets _ _
      refine (pollLoop_trace c _ _ (by simp)).mono (fun _ v hv => ?_) (fun v hv => ?_)
      · obtain ⟨bs, i, h1, h2, h3, h4, -⟩ := hv
        rw [h0, hk2.pollDelay] at h4
        rw [hm] at h3
        exact ⟨[.txn [0x06#8] [], .txn tx []] ++ busyPolls (s.pollDelay.get c) bs ++ [.txn [0x05#8] [i]],
          by rw [h4]; simp, .inr (.inr (.inl ⟨bs, i, h1, h2, h3, rfl, rfl⟩))⟩
      · rcases hv with ⟨bs, stage, e, h1, h3, h4, h5⟩ | ⟨bs, i, h1, h2, h3, h4, h5⟩
        · rw [h0, hk2.pollDelay] at h4
          rw [hm] at h3
          exact ⟨[.txn [0x06#8] [], .txn tx []] ++ busyPolls (s.pollDelay.get c) bs ++ [.txnFail stage e],
            by rw [h4]; simp, .inr (.inr (.inr (.inl ⟨bs, stage, e, h1, h3, rfl, h5⟩)))⟩
        · rw [h0, hk2.pollDelay] at h4
          rw [hm] at h3
          exact ⟨[.txn [0x06#8] [], .txn tx []] ++ busyPolls (s.pollDelay.get c) bs ++ [.txn [0x05#8] [i]],
            by rw [h4]; simp, .inr (.inr (.inr (.inr ⟨bs, i, h1, h2, h3, rfl, h5⟩)))⟩
    · obtain ⟨-, stage, e, h1, h2, -⟩ := hu
      refine ⟨[.txn [0x06#8] [], .txnFail stage e], by simp [h1, ht], .inr (.inl ⟨stage, e, rfl, h2⟩)⟩
  · obtain ⟨-, stage, e, h1, h2, -⟩ := h
    exact ⟨_, h1, .inl ⟨stage, e, rfl, h2⟩⟩

/-! ### A device that answers -/

/-- The schedule with its first opportunity let pass. -/
theorem busyReads_step {l : List Bool} {last : Bool} (h : l.headD last = false) :
    busyReads last l = (busyReads last l.tail).map (· + 1) := by
  cases l with
  | nil =>
    obtain rfl : last = false := h
    rfl
  | cons b l =>
    obtain rfl : b = false := h
    rfl

/-- The schedule with its first opportunity taken. -/
theorem busyReads_zero {l : List Bool} {last : Bool} (h : l.headD last = true) : busyReads last l = some 0 := by
  cases l with
  | nil =>
    obtain rfl : last = true := h
    rfl
  | cons b l =>
    obtain rfl : b = true := h
    rfl

/-- One ReadStatus on a busy device that answers: it has completed at this opportunity or it has not. -/
theorem poll_answered {s : State} (hb : s.busHandle = .held) (hs : s.deviceAnswers) (hbusy : s.dev.busy = true) :
    ∃ t, wireRun .readStatus [0x05#8] 1 s = .ret () t ∧
      t = { s with
        status := t.status, dev := t.dev, draws := t.draws, schedule := s.schedule.tail, chipSelect := false
        busScript := t.busScript, calls := t.calls, trace := s.trace ++ [.txn [0x05#8] [t.status]] } ∧
      t.deviceAnswers ∧ isBusy t.status = t.dev.busy ∧
      (s.schedule.headD s.scheduleEnd = true →
        t.dev = { s.dev.complete s.draws with statusHigh := t.dev.statusHigh, rstArmed := t.dev.rstArmed }) ∧
      (s.schedule.headD s.scheduleEnd = false →
        t.dev = { s.dev with statusHigh := t.dev.statusHigh, rstArmed := t.dev.rstArmed }) := by
  have hdt := deviceTurn_busy hbusy
  refine ⟨_, wireRun_answered rfl rfl hb hs rfl, ?_, ?_, ?_, ?_, ?_⟩
  · rw [hdt]; rfl
  · exact fun a ha => hs a (by simpa using List.mem_of_mem_drop ha)
  · exact statusByte_busy ..
  · intro h
    rw [hdt, h]
    rfl
  · intro h
    rw [hdt, h]
    rfl

/-- What the busy-wait changes at all. -/
structure PollFrame (s t : State) : Prop where
  frame : t = { s with
    pollCnt := t.pollCnt, status := t.status, result := t.result, dev := t.dev, draws := t.draws, phase := t.phase
    schedule := t.schedule, chipSelect := false, busScript := t.busScript, sleepScript := t.sleepScript
    calls := t.calls, trace := t.trace, path := t.path }
  answers : t.deviceAnswers
  sleeps : t.sleepsReturn

/-- The busy-wait on a busy device that answers and completes in time. -/
theorem pollLoop_completes {c : PollClass} {fuel K : Nat} {s : State} (hh : s.holds) (hs : s.deviceAnswers)
    (hsl : s.sleepsReturn) (hbusy : s.dev.busy = true) (hp : s.pollCnt + fuel = s.maxPolls.get c)
    (hK : s.completesAfter K) (hlt : K < fuel) :
    ∃ t ev k, pollLoop c fuel s = .ret () t ∧ PollFrame s t ∧ t.trace = s.trace ++ ev ∧
      ev.countP isTransaction = K + 1 ∧ ev.countP isSleep = K ∧
      t.pollCnt = s.pollCnt + K + 1 ∧ isBusy t.status = false ∧
      t.dev = { s.dev.complete k with statusHigh := t.dev.statusHigh, rstArmed := t.dev.rstArmed } := by
  induction fuel generalizing s K with
  | zero => omega
  | succ fuel ih =>
    obtain ⟨t, ht, hframe, ha, hb, hyes, hno⟩ := poll_answered hh.1 hs hbusy
    rw [pollLoop_succ, ht]
    simp only [Run.andThen_ret]
    cases hd : s.schedule.headD s.scheduleEnd with
    | true =>
      have hdev := hyes hd
      have hst : isBusy t.status = false := by rw [hb, hdev]; rfl
      obtain rfl : 0 = K := Option.some.inj ((busyReads_zero hd).symm.trans hK)
      rw [if_pos hst]
      refine ⟨_, [.txn [0x05#8] [t.status]], s.draws, rfl, ⟨?_, ha, ?_⟩, ?_, rfl, rfl, ?_, hst, hdev⟩
      · rw [hframe]; rfl
      · rw [hframe]; exact hsl
      · rw [hframe]; rfl
      · rw [hframe]; rfl
    | false =>
      have hdev := hno hd
      have hst : isBusy t.status = true := by rw [hb, hdev]; exact hbusy
      obtain ⟨K, hK', rfl⟩ := Option.map_eq_some_iff.mp ((busyReads_step hd).symm.trans hK)
      have hne : ¬ t.pollCnt + 1 = t.maxPolls.get c := by
        have h1 : t.pollCnt = s.pollCnt := by rw [hframe]
        have h2 : t.maxPolls = s.maxPolls := by rw [hframe]
        rw [h1, h2]; omega
      rw [if_neg (by simp [hst]), if_neg hne, sleepOnce_returns (s := t.countPoll.enter .sleeping)
        (by rw [hframe]; exact hh.2) (by rw [hframe]; exact hsl)]
      simp only [Run.andThen_ret]
      generalize hu : ({ (t.countPoll.enter .sleeping) with sleepScript := (t.countPoll.enter .sleeping).sleepScript.tail
        }.record (.sleep ((t.countPoll.enter .sleeping).pollDelay.get c))).enter .poll = u
      have huf : u = { s with
          pollCnt := s.pollCnt + 1, status := t.status, dev := t.dev, draws := t.draws, phase := .poll
          schedule := s.schedule.tail, chipSelect := false, busScript := t.busScript
          sleepScript := s.sleepScript.tail, calls := t.calls
          trace := s.trace ++ [.txn [0x05#8] [t.status], .sleep (s.pollDelay.get c)], path := u.path } := by
        rw [← hu, hframe]; ext1 <;> simp
      have hus : u.sleepsReturn := by rw [huf]; exact fun a ha => hsl a (List.mem_of_mem_tail ha)
      have hua : u.deviceAnswers := by rw [huf]; exact ha
      obtain ⟨v, ev, k, h1, h2, h3, h4, h5, h6, h7, h8⟩ := ih (s := u) (by rw [huf]; exact hh) hua hus
        (by rw [huf]; simp only; rw [hdev]; exact hbusy) (by rw [huf]; simp only; omega) (by rw [huf]; exact hK')
        (by omega)
      refine ⟨v, .txn [0x05#8] [t.status] :: .sleep (s.pollDelay.get c) :: ev, k, h1, ⟨?_, h2.answers, h2.sleeps⟩,
        ?_, ?_, ?_, ?_, h7, ?_⟩
      · have := h2.frame
        rw [huf] at this
        exact this
      · rw [h3, huf]; simp
      · simp only [List.countP_cons, isTransaction, h4]; simp
      · simp only [List.countP_cons, isSleep, h5]; simp
      · rw [h6, huf]; simp only; omega
      · rw [h8, huf]; simp only; rw [hdev]; rfl

/-- The busy-wait on a busy device that answers and does not complete in time. -/
theorem pollLoop_times_out {c : PollClass} {fuel : Nat} {s : State} (hh : s.holds) (hs : s.deviceAnswers)
    (hsl : s.sleepsReturn) (hbusy : s.dev.busy = true) (hp : s.pollCnt + fuel = s.maxPolls.get c) (hf : 1 ≤ fuel)
    (hK : ¬ s.completesWithin fuel) :
    ∃ (t : State) (ev : List Event) (k : Nat) (d : Device),
      pollLoop c fuel s = .raised t ∧ PollFrame s t ∧ t.trace = s.trace ++ ev ∧ t.result = .timeout ∧
      ev.countP isTransaction = fuel ∧ ev.countP isSleep = fuel - 1 ∧ t.pollCnt = s.pollCnt + fuel ∧
      d = { s.dev with statusHigh := d.statusHigh, rstArmed := d.rstArmed } ∧ t.dev = d.unresolve k s.target := by
  induction fuel generalizing s with
  | zero => omega
  | succ fuel ih =>
    obtain ⟨t, ht, hframe, ha, hb, hyes, hno⟩ := poll_answered hh.1 hs hbusy
    rw [pollLoop_succ, ht]
    simp only [Run.andThen_ret]
    cases hd : s.schedule.headD s.scheduleEnd with
    | true => exact absurd ⟨0, busyReads_zero hd, by omega⟩ hK
    | false =>
      have hdev := hno hd
      have hst : isBusy t.status = true := by rw [hb, hdev]; exact hbusy
      have hlater : ¬ ∃ K, busyReads s.scheduleEnd s.schedule.tail = some K ∧ K < fuel := by
        rintro ⟨K, hk, hlt⟩
        exact hK ⟨K + 1, by rw [State.completesAfter, busyReads_step hd, hk]; rfl, by omega⟩
      have hconst : t.dev.constants = s.dev.constants := by rw [hdev]; rfl
      have htgt : t.countPoll.target = s.target := target_congr (by rw [hframe]; rfl) hconst
      have hpc : t.pollCnt = s.pollCnt := by rw [hframe]
      have hmp : t.maxPolls = s.maxPolls := by rw [hframe]
      rw [if_neg (by simp [hst])]
      by_cases hlast : fuel = 0
      · subst hlast
        rw [if_pos (by rw [hpc, hmp]; omega)]
        refine ⟨_, [.txn [0x05#8] [t.status]], t.draws, t.dev, rfl, ⟨?_, ha, ?_⟩, ?_, rfl, rfl, rfl, ?_, hdev,
          by rw [← htgt]; rfl⟩
        · rw [hframe]; rfl
        · rw [hframe]; exact hsl
        · rw [hframe]; rfl
        · rw [hframe]; rfl
      · rw [if_neg (by rw [hpc, hmp]; omega), sleepOnce_returns (s := t.countPoll.enter .sleeping)
          (by rw [hframe]; exact hh.2) (by rw [hframe]; exact hsl)]
        simp only [Run.andThen_ret]
        generalize hu : ({ (t.countPoll.enter .sleeping) with sleepScript := (t.countPoll.enter .sleeping).sleepScript.tail
          }.record (.sleep ((t.countPoll.enter .sleeping).pollDelay.get c))).enter .poll = u
        have huf : u = { s with
            pollCnt := s.pollCnt + 1, status := t.status, dev := t.dev, draws := t.draws, phase := .poll
            schedule := s.schedule.tail, chipSelect := false, busScript := t.busScript
            sleepScript := s.sleepScript.tail, calls := t.calls
            trace := s.trace ++ [.txn [0x05#8] [t.status], .sleep (s.pollDelay.get c)], path := u.path } := by
          rw [← hu, hframe]; ext1 <;> simp
        have hus : u.sleepsReturn := by rw [huf]; exact fun a ha => hsl a (List.mem_of_mem_tail ha)
        have hua : u.deviceAnswers := by rw [huf]; exact ha
        have hut : u.target = s.target := target_congr (by rw [huf]; rfl) (by rw [huf]; exact hconst)
        obtain ⟨v, ev, k, d, h1, h2, h3, h4, h5, h6, h7, h8, h9⟩ := ih (s := u) (by rw [huf]; exact hh) hua hus
          (by rw [huf]; simp only; rw [hdev]; exact hbusy) (by rw [huf]; simp only; omega) (by omega)
          (by rw [huf]; exact hlater)
        rw [hut] at h9
        refine ⟨v, .txn [0x05#8] [t.status] :: .sleep (s.pollDelay.get c) :: ev, k, d, h1,
          ⟨?_, h2.answers, h2.sleeps⟩, ?_, h4, ?_, ?_, ?_, ?_, h9⟩
        · have := h2.frame
          rw [huf] at this
          exact this
        · rw [h3, huf]; simp
        · simp only [List.countP_cons, isTransaction, h5]; simp
        · simp only [List.countP_cons, isSleep, h6]; simp; omega
        · rw [h7, huf]; simp only; omega
        · rw [h8, huf]; simp only; rw [hdev]

/-- A mutating operation on an idle device that answers gets to its busy-wait, with the cycle pending. -/
theorem mutate_starts {i : Instr} {tx : List Byte} {cyc : Cycle} {c : PollClass} {s : State} (hw : i.wellFormed = true)
    (he : encode i = .frame tx 0) (hf : fillsBuffer i = false) (hi : i ≠ .readStatus)
    (hact : ∀ (d : Device) (k : Nat), d.respond k i = some ([], d.takeAction k cyc)) (hh : s.holds)
    (hs : s.deviceAnswers) (hidle : s.dev.busy = false) :
    ∃ u, mutate c (txnSend i) s = pollLoop c (s.maxPolls.get c) u ∧
      u = { s with
        pollCnt := 0, phase := .poll, chipSelect := false, dev := u.dev, draws := u.draws, busScript := u.busScript
        calls := u.calls, trace := s.trace ++ [.txn [0x06#8] [], .txn tx []], path := u.path } ∧
      u.deviceAnswers ∧
      u.dev = { s.dev with wel := true, busy := true, pending := some cyc, rstArmed := u.dev.rstArmed } := by
  rw [mutate_wire he hf hi, wireRun_answered (s := s) rfl rfl hh.1 hs rfl]
  simp only [Run.andThen_ret, store_writeEnable, deviceTurn_idle hidle]
  generalize hv : (s.completed [0x06#8] [] (s.dev.takeWriteEnable s.draws)).enter .action = v
  have hvd : v.dev = { s.dev with wel := true, rstArmed := v.dev.rstArmed } := by
    rw [← hv]; simp only [State.enter_dev, State.completed_dev, takeWriteEnable_idle hidle]
  have hvb : v.dev.busy = false := by rw [hvd]; exact hidle
  have hva : v.deviceAnswers := by rw [← hv]; exact fun a ha => hs a (List.mem_of_mem_drop ha)
  have hvh : v.busHandle = .held := by rw [← hv]; exact hh.1
  rw [wireRun_answered (s := v) hw he hvh hva (hact _ _)]
  simp only [Run.andThen_ret, deviceTurn_idle hvb, store_plain hf hi]
  refine ⟨((v.completed tx [] (v.dev.takeAction v.draws cyc))).enterPoll, ?_, ?_, ?_, ?_⟩
  · rw [← hv]; rfl
  · rw [← hv]; ext1 <;> simp
  · exact fun a ha => hva a (List.mem_of_mem_drop ha)
  · simp only [State.enterPoll_dev, State.completed_dev, Device.takeAction, hvb, Device.disarm]
    rw [hvd]
    simp

end Sys2Proof.Machine
end

