-- ==== Sys2Proof/Laws/Errors.lean ====
section
/-! SUPPORT. The bus's answers as an operation takes them: every one up to its first error, and that error raised. -/

namespace Sys2Proof.Machine

variable {α : Type}

theorem firstError_append (a b : List BusAnswer) : firstError (a ++ b) = (firstError a).or (firstError b) := by
  induction a with
  | nil => rfl
  | cons x a ih => cases x <;> simp [firstError, ih]

/-- From `s` to `t` bus calls were made and their answers taken, of which `e` is the first error. -/
def Consumed (s t : State) (e : Option BusErr) : Prop :=
  ∃ cs, t.calls = s.calls ++ cs ∧ t.busScript = s.busScript.drop cs.length ∧
    firstError (s.busScript.take cs.length) = e

theorem Consumed.nothing {s t : State} (hc : t.calls = s.calls) (hb : t.busScript = s.busScript) : Consumed s t none :=
  ⟨[], by simp [hc], by simp [hb], by simp [firstError]⟩

theorem Consumed.trans {s t u : State} {e : Option BusErr} (h : Consumed s t none) (h' : Consumed t u e) :
    Consumed s u e := by
  obtain ⟨a, a1, a2, a3⟩ := h
  obtain ⟨b, b1, b2, b3⟩ := h'
  refine ⟨a ++ b, by simp [b1, a1], by simp [b2, a2, List.drop_drop], ?_⟩
  rw [List.length_append, List.take_add, firstError_append, a3, ← a2, b3]; rfl

/-- After an error whatever the bus answers is dropped. -/
theorem Consumed.after_error {s t u : State} {e : BusErr} {r : Option BusErr} (h : Consumed s t (some e))
    (h' : Consumed t u r) : Consumed s u (some e) := by
  obtain ⟨a, a1, a2, a3⟩ := h
  obtain ⟨b, b1, b2, b3⟩ := h'
  refine ⟨a ++ b, by simp [b1, a1], by simp [b2, a2, List.drop_drop], ?_⟩
  rw [List.length_append, List.take_add, firstError_append, a3]; rfl

theorem consumed_call {s : State} {c : BusCall} (h : (s.busScript.headD .ok).succeeds = true) :
    Consumed s (s.logCall c) none := by
  refine ⟨[c], rfl, by simp, ?_⟩
  cases hh : s.busScript with
  | nil => rfl
  | cons x l => rw [hh] at h; cases x <;> simp [BusAnswer.succeeds] at h <;> rfl

theorem consumed_error {s : State} {c : BusCall} {e : BusErr} (h : s.busScript.headD .ok = .err e) :
    Consumed s (s.logCall c) (some e) := by
  refine ⟨[c], rfl, by simp, ?_⟩
  cases hh : s.busScript with
  | nil => rw [hh] at h; cases h
  | cons x l =>
    rw [hh] at h
    simp only [List.headD_cons] at h
    subst h
    rfl

/-- It went on: no answer taken was an error. -/
def WentOn (s : State) : α → State → Prop := fun _ t => Consumed s t none

/-- It raised the first error among the answers taken. -/
def RaisedFirst (s t : State) : Prop := ∃ e, Consumed s t (some e) ∧ t.result = .busError e

theorem RaisedFirst.trans {s t u : State} (h : Consumed s t none) (h' : RaisedFirst t u) : RaisedFirst s u := by
  obtain ⟨e, a, b⟩ := h'
  exact ⟨e, h.trans a, b⟩

theorem txnFail_consumed {s t : State} {tx : List Byte} {n : Nat} {st : Stage} {e : BusErr}
    (h : Consumed s t (some e)) : (txnFail (α := α) tx n st e t).Meets (WentOn s) (RaisedFirst s) := by
  obtain ⟨cs, h1, h2, h3⟩ := h
  exact ⟨e, ⟨cs, h1, h2, h3⟩, rfl⟩

theorem cleanUp_consumed {s t : State} {tx : List Byte} {n : Nat} {st : Stage} {e : BusErr}
    (h : Consumed s t (some e)) : (cleanUp (α := α) tx n st e t).Meets (WentOn s) (RaisedFirst s) :=
  busCall_meets (fun _ h' => txnFail_consumed (h.after_error (consumed_error h')))
    (fun _ ha hh => txnFail_consumed (h.after_error (consumed_call (hh ▸ ha))))

theorem txnEnd_consumed {s t : State} {tx : List Byte} {n : Nat} {rx : List Byte} {d : Device}
    (h : Consumed s t none) : (txnEnd tx n rx d t).Meets (WentOn s) (RaisedFirst s) :=
  busCall_meets (fun _ h' => txnFail_consumed (h.trans (consumed_error h')))
    (fun _ ha hh => h.trans (consumed_call (hh ▸ ha)))

theorem txn_consumed (tx : List Byte) (n : Nat) (s : State) : (txn tx n s).Meets (WentOn s) (RaisedFirst s) := by
  unfold txn
  split
  · trivial
  · simp only
    have h0 : Consumed s s.deviceTurn none := .nothing (by simp) (by simp)
    split
    · trivial
    · refine busCall_meets (fun _ h' => txnFail_consumed (h0.trans (consumed_error h'))) (fun a ha hh => ?_)
      have h1 : Consumed s ((s.deviceTurn.logCall .begin).select true) none := h0.trans (consumed_call (hh ▸ ha))
      refine busCall_meets (fun e h' => cleanUp_consumed (h1.trans (consumed_error h'))) (fun a ha hh => ?_)
      have h2 := h1.trans (consumed_call (c := .write tx) (hh ▸ ha))
      unfold txnRead
      split
      · exact txnEnd_consumed h2
      · exact busCall_meets (fun e h' => cleanUp_consumed (h2.trans (consumed_error h')))
          (fun a ha hh => txnEnd_consumed (h2.trans (consumed_call (hh ▸ ha))))

/-- A wire command goes on without an error or raises the first one. -/
theorem wireRun_consumed (i : Instr) (tx : List Byte) (n : Nat) (s : State) :
    (wireRun i tx n s).Meets (WentOn s) (RaisedFirst s) := by
  unfold wireRun
  rw [Run.meets_andThen, Run.meets_onRaise]
  refine (txn_consumed tx n s).mono (fun _ t h => h) (fun t h => ?_)
  obtain ⟨e, h1, h2⟩ := h
  refine ⟨e, ?_, ?_⟩
  · unfold loseBuffer; split <;> exact h1
  · unfold loseBuffer; split <;> exact h2

/-- It raised the first error among the answers taken, or, where there was none, another error. -/
def RaisedRightly (s t : State) : Prop := RaisedFirst s t ∨ (Consumed s t none ∧ ∀ e, t.result ≠ .busError e)

theorem RaisedRightly.trans {s t u : State} (h : Consumed s t none) (h' : RaisedRightly t u) : RaisedRightly s u := by
  rcases h' with h' | ⟨a, b⟩
  · exact .inl (h'.trans h)
  · exact .inr ⟨h.trans a, b⟩

theorem pollLoop_consumed (c : PollClass) (fuel : Nat) (s : State) :
    (pollLoop c fuel s).Meets (WentOn s) (RaisedRightly s) := by
  induction fuel generalizing s with
  | zero => trivial
  | succ fuel ih =>
    rw [pollLoop_succ, Run.meets_andThen]
    refine (wireRun_consumed ..).mono (fun _ t h => ?_) (fun t h => .inl h)
    split
    · exact h
    · split
      · exact .inr ⟨h, fun e => by simp [State.raiseTimeout, State.raiseError]⟩
      · rw [Run.meets_andThen]
        refine (sleepOnce_meets c _).mono (fun _ u hu => ?_) (fun _ h => h.elim)
        have hc : Consumed s (u.enter .poll) none := h.trans (.nothing (by rw [hu]; rfl) (by rw [hu]; rfl))
        exact (ih _).mono (fun _ v hv => hc.trans hv) (fun v hv => hv.trans hc)

/-- The template of a mutating operation goes on without an error, raises the first one, or times out without one. -/
theorem mutate_consumed {i : Instr} {tx : List Byte} (he : encode i = .frame tx 0) (hf : fillsBuffer i = false)
    (hi : i ≠ .readStatus) (c : PollClass) (s : State) :
    (mutate c (txnSend i) s).Meets (WentOn s) (RaisedRightly s) := by
  rw [mutate_wire he hf hi, Run.meets_andThen]
  refine (wireRun_consumed ..).mono (fun _ t h => ?_) (fun t h => .inl h)
  rw [Run.meets_andThen]
  refine (wireRun_consumed ..).mono (fun _ u hu => ?_) (fun u hu => .inl (hu.trans h))
  have hc : Consumed s u none := h.trans hu
  exact (pollLoop_consumed ..).mono (fun _ v hv => hc.trans hv) (fun v hv => hv.trans hc)

end Sys2Proof.Machine
end

