-- ==== Sys2Proof/Laws/PerInstr.lean ====
section
/-! SUPPORT. Statements about every instruction as syntax, one lemma for each constructor. -/

namespace Sys2Proof.Laws.RoundTrip

/-- Decoding the encoding of a well-formed instruction gives it back. -/
def Statement (i : Instr) : Prop := i.wellFormed = true → decode (encode i) = .ok i

theorem writeEnable : Statement .writeEnable := fun _ => decode_writeEnable
theorem readStatus : Statement .readStatus := fun _ => decode_readStatus
theorem read (a : Addr) (n : Nat) : Statement (.read a n) := fun _ => decode_read a n
theorem pageProgram (a : Addr) (data : List Byte) : Statement (.pageProgram a data) :=
  fun h => decode_pageProgram a data (of_decide_eq_true h)
theorem sectorErase (a : Addr) : Statement (.sectorErase a) := fun _ => decode_sectorErase a
theorem chipErase : Statement .chipErase := fun _ => decode_chipErase
theorem enableReset : Statement .enableReset := fun _ => decode_enableReset
theorem reset : Statement .reset := fun _ => decode_reset
theorem readManufacturerId : Statement .readManufacturerId := fun _ => decode_readManufacturerId
theorem readJedecId : Statement .readJedecId := fun _ => decode_readJedecId
theorem opRead (a : Addr) (n : Nat) : Statement (.opRead a n) := fun _ => decode_opRead a n
theorem opPageProgram (a : Addr) (data : List Byte) : Statement (.opPageProgram a data) :=
  fun _ => decode_opPageProgram a data
theorem opSectorErase (a : Addr) : Statement (.opSectorErase a) := fun _ => decode_opSectorErase a
theorem opChipErase : Statement .opChipErase := fun _ => decode_opChipErase
theorem opSoftwareReset : Statement .opSoftwareReset := fun _ => decode_opSoftwareReset
theorem opWriteEnable : Statement .opWriteEnable := fun _ => decode_opWriteEnable
theorem opReadManufacturerId : Statement .opReadManufacturerId := fun _ => decode_opReadManufacturerId
theorem opReadJedecId : Statement .opReadJedecId := fun _ => decode_opReadJedecId

end Sys2Proof.Laws.RoundTrip
end

