-- ==== Sys2Proof/Laws/Relate.lean ====
section
/-! SUPPORT. Two runs side by side: where two states agree on what a transaction reads, it does the same in both. -/

namespace Sys2Proof.Machine

variable {α β : Type}

/-- Two parts that come out the same way, with the same value, in states related by `ρ`. -/
def Run.Related (ρ : State → State → Prop) (m m' : Run α) : Prop :=
  match m, m' with
  | .ret a s, .ret a' s' => a' = a ∧ ρ s s'
  | .raised s, .raised s' => ρ s s'
  | .stuck e, .stuck e' => e' = e
  | .refused e, .refused e' => e' = e
  | _, _ => False

theorem Run.related_andThen {ρ σ : State → State → Prop} {m m' : Run α} {f f' : α → State → Run β}
    (h : m.Related ρ m') (hσ : ∀ s s', ρ s s' → σ s s')
    (hf : ∀ a s s', m = .ret a s → m' = .ret a s' → ρ s s' → (f a s).Related σ (f' a s')) :
    (m.andThen f).Related σ (m'.andThen f') := by
  cases m <;> cases m' <;> simp only [Run.Related] at h <;>
    first
    | exact h.elim
    | exact h
    | exact hσ _ _ h
    | (obtain ⟨rfl, h⟩ := h; exact hf _ _ _ rfl rfl h)

theorem Run.related_onRaise {ρ : State → State → Prop} {m m' : Run α} {g g' : State → State} (h : m.Related ρ m')
    (hg : ∀ s s', ρ s s' → ρ (g s) (g' s')) : (m.onRaise g).Related ρ (m'.onRaise g') := by
  cases m <;> cases m' <;> simp only [Run.Related] at h <;>
    first
    | exact h.elim
    | exact h
    | exact hg _ _ h

/-- A relation that a transaction keeps: the two states agree on what it reads, and its updates, made in both, keep
them related. -/
structure Parallel (ρ : State → State → Prop) : Prop where
  busHandle   : ∀ {s s'}, ρ s s' → s'.busHandle = s.busHandle
  busScript   : ∀ {s s'}, ρ s s' → s'.busScript = s.busScript
  dev         : ∀ {s s'}, ρ s s' → s'.dev = s.dev
  schedule    : ∀ {s s'}, ρ s s' → s'.schedule = s.schedule
  scheduleEnd : ∀ {s s'}, ρ s s' → s'.scheduleEnd = s.scheduleEnd
  action      : ∀ {s s'}, ρ s s' → s'.action = s.action
  draws       : ∀ {s s'}, ρ s s' → s'.draws = s.draws
  logCall     : ∀ {s s'} c, ρ s s' → ρ (s.logCall c) (s'.logCall c)
  select      : ∀ {s s'} b b', ρ s s' → (s'.chipSelect = s.chipSelect → b' = b) → ρ (s.select b) (s'.select b')
  deviceMoves : ∀ {s s'} d, ρ s s' → ρ (s.deviceMoves d) (s'.deviceMoves d)
  reschedule  : ∀ {s s'} l, ρ s s' → ρ { s with schedule := l } { s' with schedule := l }
  record      : ∀ {s s'} e, ρ s s' → ρ (s.record e) (s'.record e)
  raiseError  : ∀ {s s'} k, ρ s s' → ρ (s.raiseError k) (s'.raiseError k)

variable {ρ : State → State → Prop} (P : Parallel ρ)

include P

theorem Parallel.deviceTurn {s s' : State} (h : ρ s s') : ρ s.deviceTurn s'.deviceTurn := by
  unfold State.deviceTurn
  rw [P.dev h, P.schedule h, P.scheduleEnd h, P.draws h]
  split
  · split
    · exact P.reschedule _ (P.deviceMoves _ h)
    · have h1 := P.reschedule s.schedule.tail h
      rw [P.dev h, P.draws h, P.scheduleEnd h] at h1
      exact h1
  · exact h

theorem Parallel.target {s s' : State} (h : ρ s s') : s'.target = s.target :=
  target_congr (P.action h) (by rw [P.dev h])

theorem Parallel.busCall {s s' : State} {c : BusCall} {f f' : BusErr → State → Run α}
    {g g' : BusAnswer → State → Run α} (h : ρ s s')
    (hf : ∀ e, (f e (s.logCall c)).Related ρ (f' e (s'.logCall c)))
    (hg : ∀ a, (g a (s.logCall c)).Related ρ (g' a (s'.logCall c))) :
    (Machine.busCall c s f g).Related ρ (Machine.busCall c s' f' g') := by
  unfold Machine.busCall
  rw [P.busScript h]
  split
  · exact rfl
  · exact hf _
  · exact hg _
  · exact hg _

theorem Parallel.txnFail {s s' : State} (tx : List Byte) (n : Nat) (st : Stage) (e : BusErr) (h : ρ s s') :
    (txnFail (α := α) tx n st e s).Related ρ (txnFail tx n st e s') := by
  show ρ _ _
  rw [P.dev h, P.draws h, P.target h]
  exact P.raiseError _ (P.record _ (P.deviceMoves _ h))

theorem Parallel.cleanUp {s s' : State} (tx : List Byte) (n : Nat) (st : Stage) (e : BusErr) (h : ρ s s') :
    (cleanUp (α := α) tx n st e s).Related ρ (cleanUp tx n st e s') := by
  refine P.busCall h (fun _ => ?_) (fun _ => ?_)
  · refine P.txnFail _ _ _ _ (P.select _ _ (P.logCall _ h) (fun _ => ?_))
    rw [P.draws (P.logCall _ h)]
  · exact P.txnFail _ _ _ _ (P.select _ _ (P.logCall _ h) (fun _ => rfl))

theorem Parallel.txnEnd {s s' : State} (tx : List Byte) (n : Nat) (rx : List Byte) (d : Device) (h : ρ s s') :
    (txnEnd tx n rx d s).Related ρ (txnEnd tx n rx d s') := by
  refine P.busCall h (fun _ => ?_) (fun _ => ?_)
  · refine P.txnFail _ _ _ _ (P.select _ _ (P.logCall _ h) (fun _ => ?_))
    rw [P.draws (P.logCall _ h)]
  · exact ⟨rfl, P.record _ (P.deviceMoves _ (P.select _ _ (P.logCall _ h) (fun _ => rfl)))⟩

/-- A transaction comes out the same way in related states. -/
theorem Parallel.txn {s s' : State} (tx : List Byte) (n : Nat) (h : ρ s s') : (txn tx n s).Related ρ (txn tx n s') := by
  have ht := P.deviceTurn h
  unfold Machine.txn
  rw [P.busHandle h]
  split
  · exact rfl
  · simp only
    rw [P.dev ht, P.draws ht]
    split
    · exact rfl
    · refine P.busCall ht (fun _ => ?_) (fun _ => ?_)
      · refine P.txnFail _ _ _ _ (P.select _ _ (P.logCall _ ht) (fun hc => ?_))
        rw [hc, P.draws (P.logCall _ ht)]
      · have h1 := P.select true true (P.logCall .begin ht) (fun _ => rfl)
        refine P.busCall h1 (fun _ => P.cleanUp _ _ _ _ (P.logCall _ h1)) (fun _ => ?_)
        have h2 := P.logCall (.write tx) h1
        unfold txnRead
        split
        · exact P.txnEnd _ _ _ _ h2
        · refine P.busCall h2 (fun _ => P.cleanUp _ _ _ _ (P.logCall _ h2)) (fun a => ?_)
          rw [P.draws (P.logCall _ h2)]
          exact P.txnEnd _ _ _ _ (P.logCall _ h2)

/-- A wire command comes out the same way in related states, and puts the same bytes away. -/
theorem Parallel.wireRun {s s' : State} (i : Instr) (tx : List Byte) (n : Nat)
    (hstore : ∀ {s s'} rx, ρ s s' → ρ (store i rx s) (store i rx s'))
    (hlose : ∀ {s s'}, ρ s s' → ρ (loseBuffer i n s) (loseBuffer i n s')) (h : ρ s s') :
    (wireRun i tx n s).Related
      (fun t t' => ρ t t' ∧ (i = .readStatus → t.phase ≠ .done → t'.status = t.status) ∧
        (fillsBuffer i = true → t'.rxData = t.rxData))
      (wireRun i tx n s') := by
  have hm := P.txn tx n h
  unfold Machine.wireRun
  cases hr : Machine.txn tx n s <;> cases hr' : Machine.txn tx n s' <;> rw [hr, hr'] at hm <;>
    simp only [Run.Related] at hm <;> first | exact hm.elim | skip
  · obtain ⟨rfl, hm⟩ := hm
    exact ⟨rfl, hstore _ hm, fun hi _ => by simp [store, hi], fun hi => by simp [store, hi]⟩
  · rename_i t t'
    have hd : t.phase = .done := by
      have := txn_meets tx n s
      rw [hr] at this
      obtain ⟨_, _, _, _, _, -, -, rfl⟩ := this
      rfl
    exact ⟨hlose hm, fun _ hne => absurd hd hne, fun hi => by simp [loseBuffer, hi, P.draws hm]⟩
  · exact hm
  · exact hm

end Sys2Proof.Machine
end

