-- ==== Sys2Proof/Laws/Step.lean ====
section
/-! SUPPORT. Everything one step can do, said once. -/

namespace Sys2Proof.Machine

/-- A phase that issues a wire command issues one with a frame. -/
theorem wireAt_frame {s : State} {i : Instr} (h : wireAt s = some i) : ∃ tx n, encode i = .frame tx n := by
  unfold wireAt at h
  split at h <;> first | (cases h; exact ⟨_, _, rfl⟩) | cases h
/-- Where a completed poll goes. -/
theorem afterPoll_cases (c : PollClass) (s : State) :
    afterPoll c s = s.countPoll.succeed ∨ afterPoll c s = s.countPoll.raiseTimeout ∨
      (afterPoll c s = s.countPoll.enter .sleeping ∧ s.pollCnt + 1 ≠ s.maxPolls.get c) := by
  unfold afterPoll
  simp only
  split
  · exact .inl rfl
  · split
    · exact .inr (.inl rfl)
    · exact .inr (.inr ⟨rfl, by assumption⟩)

/-- The port carries host operations alone. -/
theorem decodeCommand_host {c : HostCommand} {i : Instr} (h : decodeCommand c = .ok i) : isHostOp i = true := by
  unfold decodeCommand at h
  split at h
  all_goals first | (cases h; rfl) | (split at h <;> cases h; rfl)

theorem afterPoll_kept (c : PollClass) (s : State) : Kept s (afterPoll c s) := by
  rcases afterPoll_cases c s with h | h | ⟨h, -⟩ <;> rw [h]
  · exact (kept_countPoll s).trans (kept_succeed _)
  · exact (kept_countPoll s).trans (kept_raiseTimeout _)
  · exact (kept_countPoll s).trans (kept_enter _ _)
theorem afterWire_kept (s : State) : Kept s (afterWire s) := by
  unfold afterWire
  split <;> first | exact Kept.refl s | exact kept_enter .. | exact kept_enterPoll .. | exact kept_succeed .. | skip
  split
  · exact afterPoll_kept ..
  · exact Kept.refl s

/-- Every step from a phase other than IDLE. -/
theorem step_cases {s t : State} (h : step s = .next t) (hp : s.phase ≠ .idle) :
    (s.phase = .check ∧ t = checkLength s) ∨
    (s.phase = .done ∧ t = s.respond) ∨
    (s.phase = .sleeping ∧ ∃ c, pollClass s.op = some c ∧
      t = { s with
        sleepScript := s.sleepScript.tail
        trace := s.trace ++ [Event.sleep (s.pollDelay.get c)] }.enter .poll) ∨
    (∃ i tx n u, wireAt s = some i ∧ encode i = .frame tx n ∧ (WireDone i s tx n u ∨ WireFailed i s tx n u) ∧
      t = afterWire u) := by
  have hw : wireStep s = .next t → ∃ i tx n u, wireAt s = some i ∧ encode i = .frame tx n ∧
      (WireDone i s tx n u ∨ WireFailed i s tx n u) ∧ t = afterWire u := by
    intro h
    unfold wireStep at h
    split at h
    · rename_i i hi
      obtain ⟨tx, n, he⟩ := wireAt_frame hi
      rw [exec_wire he] at h
      split at h
      · rename_i u hu
        cases h
        refine ⟨i, tx, n, u, hi, he, ?_, rfl⟩
        exact Run.meets_outcome (Q := fun u => WireDone i s tx n u ∨ WireFailed i s tx n u)
          ((wireRun_meets i tx n s).mono (fun _ _ => .inl) (fun _ => .inr)) hu
      · cases h
      · cases h
    · cases h
  unfold step at h
  split at h
  · contradiction
  · cases h; exact .inl ⟨by assumption, rfl⟩
  · rename_i hph
    refine .inr (.inr (.inl ⟨hph, ?_⟩))
    unfold sleepPhase at h
    split at h
    · rename_i c hc
      refine ⟨c, hc, ?_⟩
      refine Run.meets_outcome (Q := fun t => t = _) ?_ h
      rw [Run.meets_andThen]
      refine (sleepOnce_meets c s).mono (fun _ u hu => ?_) (fun _ h => h.elim)
      rw [hu]; exact rfl
    · cases h
  · cases h; exact .inr (.inl ⟨by assumption, rfl⟩)
  all_goals exact .inr (.inr (.inr (hw h)))

end Sys2Proof.Machine
end

