-- ==== Sys2Proof/Tests/Slice0.lean ====
section
/-! SUPPORT. Tests against the vectors of 95_test_vectors.md (named V.. as there) and the worked examples of the rules,
and a witness for the hypotheses of each statement. -/

namespace Sys2Proof.Tests

open Sys2Proof Sys2Proof.Machine

/-! ### Well-formedness -/

set_option maxRecDepth 4000 in
theorem test_wellFormed_takes_256_bytes : (Instr.pageProgram 0x000200#24 (List.replicate 256 0xAA#8)).wellFormed = true := by
  decide

set_option maxRecDepth 4000 in
theorem test_wellFormed_refuses_257_bytes :
    (Instr.pageProgram 0x000200#24 (List.replicate 257 0xAA#8)).wellFormed = false := by decide

/-- V53: the host may present 257 bytes, which the operation then refuses. -/
theorem test_wellFormed_port_takes_257_bytes :
    (Instr.opPageProgram 0x000200#24 (List.replicate 257 0xAA#8)).wellFormed = true := by decide

/-! ### Decoding: the frames of V10 to V19, bit by bit -/

theorem test_decode_writeEnable : decodeFrame [0b00000110#8] 0 = .ok .writeEnable := by decide
theorem test_decode_readStatus : decodeFrame [0b00000101#8] 1 = .ok .readStatus := by decide
theorem test_decode_read :
    decodeFrame [0b00000011#8, 0b00010010#8, 0b00110100#8, 0b01010110#8] 3 = .ok (.read 0x123456#24 3) := by decide
theorem test_decode_pageProgram :
    decodeFrame [0b00000010#8, 0b00000000#8, 0b00000001#8, 0b00000000#8, 0b10101010#8, 0b01010101#8] 0 =
      .ok (.pageProgram 0x000100#24 [0xAA#8, 0x55#8]) := by decide
theorem test_decode_sectorErase :
    decodeFrame [0b00100000#8, 0b00000000#8, 0b00010010#8, 0b00110100#8] 0 = .ok (.sectorErase 0x001234#24) := by decide
theorem test_decode_chipErase : decodeFrame [0b11000111#8] 0 = .ok .chipErase := by decide
theorem test_decode_enableReset : decodeFrame [0b01100110#8] 0 = .ok .enableReset := by decide
theorem test_decode_reset : decodeFrame [0b10011001#8] 0 = .ok .reset := by decide
theorem test_decode_readManufacturerId :
    decodeFrame [0b10010000#8, 0b00000000#8, 0b00000000#8, 0b00000000#8] 2 = .ok .readManufacturerId := by decide
theorem test_decode_readJedecId : decodeFrame [0b10011111#8] 3 = .ok .readJedecId := by decide

/-! ### Decoding: the port commands of V85 to V93 -/

theorem test_decode_opRead : decodeCommand ⟨0b000#3, 0x001000#24, 16, []⟩ = .ok (.opRead 0x001000#24 16) := by decide
theorem test_decode_opPageProgram : decodeCommand ⟨0b001#3, 0x000100#24, 2, [0xAA#8, 0x55#8]⟩ =
    .ok (.opPageProgram 0x000100#24 [0xAA#8, 0x55#8]) := by decide
theorem test_decode_opSectorErase :
    decodeCommand ⟨0b010#3, 0x001234#24, 9, [0x00#8]⟩ = .ok (.opSectorErase 0x001234#24) := by decide
/-- V89: operands of a chip_erase are ignored. -/
theorem test_decode_opChipErase : decodeCommand ⟨0b011#3, 0xABCDEF#24, 9, []⟩ = .ok .opChipErase := by decide
theorem test_decode_opSoftwareReset : decodeCommand ⟨0b100#3, 0#24, 0, []⟩ = .ok .opSoftwareReset := by decide
theorem test_decode_opWriteEnable : decodeCommand ⟨0b101#3, 0#24, 0, []⟩ = .ok .opWriteEnable := by decide
theorem test_decode_opReadManufacturerId : decodeCommand ⟨0b110#3, 0#24, 0, []⟩ = .ok .opReadManufacturerId := by decide
theorem test_decode_opReadJedecId : decodeCommand ⟨0b111#3, 0#24, 0, []⟩ = .ok .opReadJedecId := by decide

/-! ### Decoding: what is rejected, by name -/

/-- V112. -/
theorem test_decode_rejects_unknown_opcode : decodeFrame [0xAB#8] 0 = .error (.unknownOpcode 0xAB#8) := by decide
theorem test_decode_rejects_empty_frame : decodeFrame [] 0 = .error .emptyFrame := by decide
theorem test_decode_rejects_long_writeEnable : decodeFrame [0x06#8, 0x00#8] 0 = .error (.frameLength 0x06#8) := by decide
theorem test_decode_rejects_two_address_bytes :
    decodeFrame [0x03#8, 0x12#8, 0x34#8] 1 = .error (.frameLength 0x03#8) := by decide
theorem test_decode_rejects_dummy : decodeFrame [0x90#8, 0x00#8, 0x00#8, 0x01#8] 2 = .error .nonZeroDummy := by decide
set_option maxRecDepth 4000 in
theorem test_decode_rejects_257_bytes : decodeFrame (0x02#8 :: 0x00#8 :: 0x02#8 :: 0x00#8 :: List.replicate 257 0xAA#8) 0 =
    .error (.payloadTooLong 257) := by decide
theorem test_decode_rejects_length_mismatch : decodeCommand ⟨1#3, 0x000100#24, 3, [0xAA#8]⟩ = .error .lengthMismatch := by
  decide

/-! ### The opcode table's words, from reset -/

/-- The first byte of every wire row, as a word of 8 bits. -/
theorem test_tableWord_wire :
    [0x06, 0x05, 0x03, 0x02, 0x20, 0xC7, 0x66, 0x99, 0x90, 0x9F].map (decodeTableWord 8) =
      [some .writeEnable, some .readStatus, some (.read 0#24 0), some (.pageProgram 0#24 []), some (.sectorErase 0#24),
        some .chipErase, some .enableReset, some .reset, some .readManufacturerId, some .readJedecId] := by decide

/-- The code of every host row, as a word of 3 bits. -/
theorem test_tableWord_host :
    [0, 1, 2, 3, 4, 5, 6, 7].map (decodeTableWord 3) =
      [some (.opRead 0#24 0), some (.opPageProgram 0#24 []), some (.opSectorErase 0#24), some .opChipErase,
        some .opSoftwareReset, some .opWriteEnable, some .opReadManufacturerId, some .opReadJedecId] := by decide

/-! ### Operands and flags -/

/-- V1 to V8. -/
theorem test_addr3 :
    [0x000000#24, 0x000001#24, 0x0000FF#24, 0x000100#24, 0x001000#24, 0x123456#24, 0x800000#24, 0xFFFFFF#24].map addr3 =
      [[0x00#8, 0x00#8, 0x00#8], [0x00#8, 0x00#8, 0x01#8], [0x00#8, 0x00#8, 0xFF#8], [0x00#8, 0x01#8, 0x00#8],
        [0x00#8, 0x10#8, 0x00#8], [0x12#8, 0x34#8, 0x56#8], [0x80#8, 0x00#8, 0x00#8], [0xFF#8, 0xFF#8, 0xFF#8]] := by
  decide

/-- V20 to V27. -/
theorem test_busy_bit : [0x00#8, 0x01#8, 0x02#8, 0x03#8, 0xFE#8, 0xFF#8, 0x80#8, 0x81#8].map isBusy =
    [false, true, false, true, false, true, false, true] := by decide

/-- V66 to V69. -/
theorem test_sector_base : [0x001234#24, 0x000FFF#24, 0x001000#24, 0xFFFFFF#24].map Device.reset.sectorBase =
    [0x001000, 0x000000, 0x001000, 0xFFF000] := by decide

/-- 30_encoding.md R106. -/
theorem test_response_codes : [Result.ok [], .busError 7, .invalidLength, .timeout].map responseCode =
    [0#2, 1#2, 2#2, 3#2] := by decide

/-- Writing the erased byte removes the entry: equal memories are equal lists. -/
theorem test_memory_canonical :
    Memory.write 0xFF#8 (Memory.write 0xFF#8 [(3, 0x01#8)] 2 0x02#8) 2 0xFF#8 = [(3, 0x01#8)] := by decide

/-! ### Small states, and what a test looks at -/

/-- The state after reset, on a bus with these answers. -/
def onBus (answers : List BusAnswer) : State := { State.reset with busScript := answers }

/-- The state after reset, on another device. -/
def onDevice (d : Device) : State := { State.reset with dev := d }

/-- The answers to a transaction that receives nothing. -/
def sent : List BusAnswer := [.ok, .ok, .ok]

/-- The answers to a transaction that receives these bytes. -/
def delivers (bytes : List Byte) : List BusAnswer := [.ok, .ok, .data bytes, .ok]

/-- Trace and result of a step. -/
def seen : Host.Outcome State Fault Refusal → Option (List Event × Result)
  | .next s => some (s.trace, s.result)
  | .fault _ => none
  | .refused _ => none

/-- Some part of the next state. -/
def part {α : Type} (f : State → α) : Host.Outcome State Fault Refusal → Option α
  | .next s => some (f s)
  | .fault _ => none
  | .refused _ => none

/-- The fault or the refusal a step stops with. -/
def stop : Host.Outcome State Fault Refusal → Option (Fault ⊕ Refusal)
  | .next _ => none
  | .fault e => some (.inl e)
  | .refused e => some (.inr e)

/-- A device with the latch set. -/
def latched : Device := { Device.reset with wel := true }

/-- A device erasing the sector of 0x001234, with a byte listed inside the sector and one behind it. -/
def erasing : Device :=
  { Device.reset with
    busy := true, wel := true, pending := some (.sectorErase 0x001234#24), mem := [(0x001FFF, 0x00#8), (0x002000, 0xA5#8)] }

/-! ### The wire commands -/

/-- V101: the latch is set. -/
theorem test_writeEnable_sets_latch : part (fun s => (s.dev.wel, s.trace)) (exec .writeEnable State.reset) =
    some (true, [.txn [0x06#8] []]) := by decide

/-- V84: the first error is reported, the clean-up's is dropped. -/
theorem test_writeEnable_reports_first_error :
    part (fun s => (s.calls, s.trace, s.result)) (exec .writeEnable (onBus [.ok, .err 1, .err 2])) =
      some ([.begin, .write [0x06#8], .finish], [.txnFail .write 1], .busError 1) := by decide

/-- V103: before the Complete step a status read sees BUSY and WEL set. -/
theorem test_readStatus_while_erasing :
    part (fun s => (isBusy s.status, isLatched s.status)) (exec .readStatus { onDevice erasing with schedule := [false] }) =
      some (true, true) := by decide

/-- The byte goes to STATUS as delivered. -/
theorem test_readStatus_raw :
    part (fun s => (s.status, s.trace)) (exec .readStatus (onBus (delivers [0xFE#8]))) =
      some (0xFE#8, [.txn [0x05#8] [0xFE#8]]) := by decide

/-- V103, V104: array bytes in address order, after the Complete step. -/
theorem test_read_after_erase :
    part (fun s => s.rxData) (exec (.read 0x001FFF#24 2) (onDevice erasing)) = some [0xFF#8, 0xA5#8] := by decide

/-- V82: the calls of a read whose BusRead fails. -/
theorem test_read_calls_on_error :
    part (fun s => (s.calls, s.trace)) (exec (.read 0x000010#24 4) (onBus [.ok, .ok, .err 7])) =
      some ([.begin, .write [0x03#8, 0x00#8, 0x00#8, 0x10#8], .read 4, .finish], [.txnFail .read 7]) := by decide

/-- V104: accepted with the latch set. -/
theorem test_pageProgram_accepted :
    part (fun s => (s.dev.busy, s.dev.pending, s.trace)) (exec (.pageProgram 0x000010#24 [0x3C#8]) (onDevice latched)) =
      some (true, some (.program 0x000010#24 [0x3C#8]), [.txn [0x02#8, 0x00#8, 0x00#8, 0x10#8, 0x3C#8] []]) := by decide

set_option maxRecDepth 4000 in
/-- The refusal of a frame that is none of the table. -/
theorem test_pageProgram_refuses_257_bytes :
    stop (exec (.pageProgram 0x000200#24 (List.replicate 257 0xAA#8)) State.reset) = some (.inr .frameUnknown) := by decide

/-- V60: the address goes out unmasked. -/
theorem test_sectorErase_accepted :
    part (fun s => (s.dev.busy, s.dev.pending, s.trace)) (exec (.sectorErase 0x001234#24) (onDevice latched)) =
      some (true, some (.sectorErase 0x001234#24), [.txn [0x20#8, 0x00#8, 0x12#8, 0x34#8] []]) := by decide

/-- R223: not accepted without the latch. -/
theorem test_sectorErase_without_latch :
    part (fun s => (s.dev.busy, s.dev.pending)) (exec (.sectorErase 0x001234#24) State.reset) = some (false, none) := by
  decide

/-- V108, first half. -/
theorem test_chipErase_accepted :
    part (fun s => (s.dev.busy, s.dev.pending, s.trace)) (exec .chipErase (onDevice latched)) =
      some (true, some .chipErase, [.txn [0xC7#8] []]) := by decide

/-- V108: EnableReset on a busy device. -/
theorem test_enableReset_arms :
    part (fun s => (s.dev.rstArmed, s.dev.busy, s.trace)) (exec .enableReset { onDevice erasing with schedule := [false] }) =
      some (true, true, [.txn [0x66#8] []]) := by decide

/-- V108, V109: latch and cycle are gone. -/
theorem test_reset_clears :
    part (fun s => (s.dev.busy, s.dev.wel, s.dev.pending, s.dev.rstArmed))
      (exec .reset { onDevice { erasing with rstArmed := true } with schedule := [false] }) =
      some (false, false, none, false) := by decide

/-- V110. -/
theorem test_readManufacturerId_order :
    part (fun s => (s.rxData, s.trace)) (exec .readManufacturerId State.reset) =
      some ([0xEF#8, 0x17#8], [.txn [0x90#8, 0x00#8, 0x00#8, 0x00#8] [0xEF#8, 0x17#8]]) := by decide

/-- V110. -/
theorem test_readJedecId_order :
    part (fun s => (s.rxData, s.trace)) (exec .readJedecId State.reset) =
      some ([0xEF#8, 0x40#8, 0x18#8], [.txn [0x9F#8] [0xEF#8, 0x40#8, 0x18#8]]) := by decide

/-- R227: with the latch set already nothing changes at all, an armed reset included. -/
theorem test_writeEnable_on_latched :
    part (fun s => s.dev) (exec .writeEnable (onDevice { latched with rstArmed := true })) =
      some { latched with rstArmed := true } := by decide

/-- R240: a device on which busy never clears. -/
theorem test_busy_never_clears :
    part (fun s => s.dev) (step { onDevice erasing with scheduleEnd := false }) = some erasing := by decide

/-- R239: Complete erases the sector, and clears BUSY and WEL together. -/
theorem test_idle_step_completes :
    part (fun s => (s.dev.mem, s.dev.busy, s.dev.wel, s.trace)) (step (onDevice erasing)) =
      some ([(0x002000, 0xA5#8)], false, false, []) := by decide

/-! ### The host operations -/

/-- V41, and the path of V40. -/
theorem test_opRead :
    part (fun s => (s.trace, s.rxData, s.path)) (exec (.opRead 0x000000#24 1) (onBus (delivers [0x5A#8]))) =
      some ([.txn [0x03#8, 0x00#8, 0x00#8, 0x00#8] [0x5A#8], .rsp (.ok [0x5A#8])], [0x5A#8], [.xfer, .done, .idle]) := by
  decide

/-- V43: nothing to receive. -/
theorem test_opRead_of_nothing :
    part (fun s => (s.trace, s.calls)) (exec (.opRead 0x000010#24 0) State.reset) =
      some ([.txn [0x03#8, 0x00#8, 0x00#8, 0x10#8] [], .rsp (.ok [])],
        [.begin, .write [0x03#8, 0x00#8, 0x00#8, 0x10#8], .finish]) := by decide

/-- V50. -/
theorem test_opPageProgram :
    seen (exec (.opPageProgram 0x000100#24 [0xAA#8, 0x55#8]) (onBus (sent ++ sent ++ delivers [0x00#8]))) =
      some ([.txn [0x06#8] [], .txn [0x02#8, 0x00#8, 0x01#8, 0x00#8, 0xAA#8, 0x55#8] [], .txn [0x05#8] [0x00#8],
        .rsp (.ok [])], .ok []) := by decide

set_option maxRecDepth 4000 in
/-- V53, V58: no bus call at all, on a bus that would fail every one. -/
theorem test_opPageProgram_257_bytes :
    part (fun s => (s.trace, s.calls, s.path)) (exec (.opPageProgram 0x000200#24 (List.replicate 257 0xAA#8)) (onBus [.err 1])) =
      some ([.rsp .invalidLength], [], [.check, .done, .idle]) := by decide

/-- V31, with its phase path. -/
theorem test_opSectorErase_polls_twice :
    part (fun s => (s.trace, s.path))
      (exec (.opSectorErase 0x000000#24) (onBus (sent ++ sent ++ delivers [0x03#8] ++ delivers [0x00#8]))) =
      some ([.txn [0x06#8] [], .txn [0x20#8, 0x00#8, 0x00#8, 0x00#8] [], .txn [0x05#8] [0x03#8], .sleep 1000,
        .txn [0x05#8] [0x00#8], .rsp (.ok [])], [.wren, .action, .poll, .sleeping, .poll, .done, .idle]) := by decide

/-- V37. -/
theorem test_opSectorErase_failed_poll :
    seen (exec (.opSectorErase 0x000000#24)
      (onBus (sent ++ sent ++ delivers [0x03#8] ++ delivers [0x03#8] ++ [.ok, .ok, .err 9]))) =
      some ([.txn [0x06#8] [], .txn [0x20#8, 0x00#8, 0x00#8, 0x00#8] [], .txn [0x05#8] [0x03#8], .sleep 1000,
        .txn [0x05#8] [0x03#8], .sleep 1000, .txnFail .read 9, .rsp (.busError 9)], .busError 9) := by decide

/-- V64. -/
theorem test_opChipErase_times_out :
    seen (exec .opChipErase
      { onBus (sent ++ sent ++ delivers [0x03#8] ++ delivers [0x03#8] ++ delivers [0x03#8]) with maxPolls := ⟨10, 10, 3⟩ }) =
      some ([.txn [0x06#8] [], .txn [0xC7#8] [], .txn [0x05#8] [0x03#8], .sleep 1000, .txn [0x05#8] [0x03#8], .sleep 1000,
        .txn [0x05#8] [0x03#8], .rsp .timeout], .timeout) := by decide

/-- V65. -/
theorem test_opChipErase_failed_end :
    seen (exec .opChipErase (onBus (sent ++ [.ok, .ok, .err 4]))) =
      some ([.txn [0x06#8] [], .txnFail .finish 4, .rsp (.busError 4)], .busError 4) := by decide

/-- V70. -/
theorem test_opSoftwareReset :
    part (fun s => (s.trace, s.path)) (exec .opSoftwareReset State.reset) =
      some ([.txn [0x66#8] [], .txn [0x99#8] [], .rsp (.ok [])], [.rstArm, .rstExec, .done, .idle]) := by decide

/-- V72. -/
theorem test_opSoftwareReset_failed_reset :
    seen (exec .opSoftwareReset (onBus (sent ++ [.err 5]))) =
      some ([.txn [0x66#8] [], .txnFail .begin 5, .rsp (.busError 5)], .busError 5) := by decide

/-- V73. -/
theorem test_opWriteEnable : part (fun s => (s.trace, s.dev.wel)) (exec .opWriteEnable State.reset) =
    some ([.txn [0x06#8] [], .rsp (.ok [])], true) := by decide

/-- V75. -/
theorem test_opWriteEnable_failed_end : seen (exec .opWriteEnable (onBus [.ok, .ok, .err 6])) =
    some ([.txnFail .finish 6, .rsp (.busError 6)], .busError 6) := by decide

/-- V77: returned raw. -/
theorem test_opReadManufacturerId_raw : seen (exec .opReadManufacturerId (onBus (delivers [0xFF#8, 0xFF#8]))) =
    some ([.txn [0x90#8, 0x00#8, 0x00#8, 0x00#8] [0xFF#8, 0xFF#8], .rsp (.ok [0xFF#8, 0xFF#8])], .ok [0xFF#8, 0xFF#8]) := by
  decide

/-- V78. -/
theorem test_opReadJedecId : seen (exec .opReadJedecId State.reset) =
    some ([.txn [0x9F#8] [0xEF#8, 0x40#8, 0x18#8], .rsp (.ok [0xEF#8, 0x40#8, 0x18#8])], .ok [0xEF#8, 0x40#8, 0x18#8]) := by
  decide

/-- V79. -/
theorem test_opReadJedecId_failed_read : seen (exec .opReadJedecId (onBus [.ok, .ok, .err 8])) =
    some ([.txnFail .read 8, .rsp (.busError 8)], .busError 8) := by decide

/-- V94: held off while polling. -/
theorem test_command_held_off : part (fun s => s.trace) (exec .opReadJedecId { State.reset with phase := .poll }) =
    some [] := by decide

/-- A word placed by withFetchWord is what the next step runs. -/
theorem test_withFetchWord :
    part (fun s => s.trace) (step (State.reset.withFetchWord 8 0x9F)) = some [.txn [0x9F#8] [0xEF#8, 0x40#8, 0x18#8]] ∧
    part (fun s => s.trace) (step (State.reset.withFetchWord 3 5)) = some [.txn [0x06#8] [], .rsp (.ok [])] := by decide

/-! ### Witnesses: each statement's hypotheses, met together, at the boundary of their range -/

/-- 256 data bytes. -/
def fullPage : List Byte := List.replicate 256 0xAA#8

theorem fullPage_length : fullPage.length = 256 := List.length_replicate

/-- A command at the port. -/
def offered (c : HostCommand) : State := { State.reset with port := [.command c] }

/-- A sector_erase in its wait: the last poll allowed is still to come. -/
def polling : State := { onDevice erasing with phase := .poll, op := .sectorErase, pollCnt := 9, schedule := [false] }

/-- The wait between two polls. -/
def asleep : State := { polling with phase := .sleeping }

/-- A device that lets `k` opportunities pass. -/
def slow (k : Nat) : State := { State.reset with schedule := List.replicate k false }

/-- A device on which busy never clears. -/
def never : State := { State.reset with scheduleEnd := false }

theorem slow_9_completes : (slow 9).completesWithin 10 := ⟨9, by decide, by decide⟩

theorem slow_10_does_not : ¬ (slow 10).completesWithin 10 := by
  rintro ⟨K, hk, hlt⟩
  obtain rfl : 10 = K := Option.some.inj ((show busyReads _ _ = some 10 by decide).symm.trans hk)
  exact absurd hlt (by decide)

theorem never_completes (m : Nat) : ¬ never.completesWithin m := by
  rintro ⟨K, hk, -⟩
  cases (show none = some K from hk)

theorem inv_reset_device : State.reset.dev.inv := ⟨by decide, by decide⟩

theorem inv_erasing : erasing.inv := ⟨by decide, by decide⟩

theorem polls_positive : ∀ c, 1 ≤ State.reset.maxPolls.get c := fun c => by cases c <;> decide

theorem ready_reset : State.reset.ready ∧ State.reset.busSucceeds ∧ State.reset.deviceAnswers ∧ State.reset.sleepsReturn ∧
    State.reset.nothingHangs ∧ State.reset.dev.idle := by decide

set_option maxRecDepth 4000 in
theorem witness_DecodeEncode : (Instr.pageProgram 0#24 fullPage).wellFormed = true := by decide

theorem witness_FrameHasOneReading : decodeFrame [0x20#8, 0xFF#8, 0xFF#8, 0xFF#8] 0 = .ok (.sectorErase 0xFFFFFF#24) := by
  decide

theorem witness_OpcodesInjective : encode (.read 0x000001#24 0) = .frame [0x03#8, 0x00#8, 0x00#8, 0x01#8] 0 ∧
    encode (.read 0xFFFFFF#24 2) = .frame [0x03#8, 0xFF#8, 0xFF#8, 0xFF#8] 2 := by decide

theorem witness_UnknownOpcodeRefused : (0x04#8 : Byte) ∉ wireOpcodes ∧ (0x00#8 : Byte) ∉ wireOpcodes := by decide

theorem witness_HostCodesTotal : (3#3 : BitVec 3) ≤ 3#3 ∧ (3#3 : BitVec 3) ≤ 7#3 := by decide

theorem witness_StepRunsPortCommand : (offered ⟨7#3, 0#24, 0, []⟩).phase = .idle ∧
    (offered ⟨7#3, 0#24, 0, []⟩).port = .command ⟨7#3, 0#24, 0, []⟩ :: [] ∧
    decodeCommand ⟨7#3, 0#24, 0, []⟩ = .ok .opReadJedecId := by decide

/-- One state for each of the three outcomes. -/
theorem witness_StepRunsPhaseCommand :
    wireAt polling = some .readStatus ∧ (part (fun s => s.phase) (exec .readStatus polling)) = some .poll ∧
    stop (exec .readStatus { polling with busScript := [.hang] }) = some (.inl .busHang) ∧
    stop (exec .readStatus { polling with busHandle := .released }) = some (.inr .handleReleased) := by decide

theorem witness_CommandsHeldOff : polling.phase ≠ .idle ∧ polling.busHandle = .held ∧ isHostOp .opReadJedecId = true ∧
    part (fun s => s.phase) (step asleep) = some .poll ∧ asleep.phase ≠ .idle := by decide

theorem witness_IdleStepIsSilent : State.reset.phase = .idle ∧ State.reset.port = [] ∧ State.reset.dev.busy = false ∧
    (onDevice erasing).phase = .idle ∧ (onDevice erasing).port = [] := by decide

/-- POLLCNT at its largest, in a wait; and a step from there. -/
theorem witness_StepKeepsInvariant : Inv polling ∧ ∃ t, step asleep = .next t :=
  ⟨⟨inv_erasing, by decide, fun _ c h => by cases c <;> revert h <;> decide, by decide, by decide, polls_positive⟩,
    _, rfl⟩

theorem witness_StepKeepsFramesLegal : FramesLegal { State.reset with trace := [.txn [0x9F#8] [0xEF#8, 0x40#8, 0x18#8]] } ∧
    ∃ t, step State.reset = .next t := ⟨⟨by decide, by decide⟩, _, rfl⟩

theorem witness_PhasesFollowPaths : (∃ t, step asleep = .next t) ∧ ∃ t, step State.reset = .next t :=
  ⟨⟨_, rfl⟩, _, rfl⟩

theorem witness_OperationIsItsPhases : isHostOp .opChipErase = true ∧
    ({ State.reset with maxPolls := ⟨1, 1, 1⟩ } : State).ready ∧
    ∀ c, 1 ≤ ({ State.reset with maxPolls := ⟨1, 1, 1⟩ } : State).maxPolls.get c :=
  ⟨by decide, by decide, fun c => by cases c <;> decide⟩

theorem witness_ConfigurationNeverWritten : ∃ t, step { State.reset with port := [.release] } = .next t ∧
    t.busHandle ≠ State.reset.busHandle := ⟨_, rfl, by decide⟩

theorem witness_ReleaseEndsTheSequencer : ({ State.reset with port := [.release] } : State).phase = .idle ∧
    ({ State.reset with port := [.release] } : State).port = .release :: [] ∧
    isHostOp .opWriteEnable = true ∧ ({ State.reset with busHandle := .released } : State).busHandle = .released := by
  decide

theorem witness_WriteEnableSetsLatch : State.reset.busHandle = .held ∧ State.reset.busSucceeds ∧
    State.reset.deviceTurn.dev.busy = false := by decide

theorem witness_ReadStatusReturnsStatus : polling.busHandle = .held ∧ polling.deviceAnswers := by decide

/-- The last byte of the array, and the one past it. -/
theorem witness_ReadReturnsArrayBytes : State.reset.busHandle = .held ∧ State.reset.deviceAnswers ∧
    State.reset.deviceTurn.dev.busy = false ∧ 0 < 2 ∧ (0xFFFFFF#24).toNat + 0 < State.reset.dev.capacity := by decide

theorem witness_IdentificationReturnsConstants : State.reset.busHandle = .held ∧ State.reset.deviceAnswers ∧
    State.reset.deviceTurn.dev.busy = false := by decide

set_option maxRecDepth 4000 in
theorem witness_LatchedActionIsAccepted : (onDevice latched).busHandle = .held ∧ (onDevice latched).busSucceeds ∧
    (onDevice latched).deviceTurn.dev.busy = false ∧ (onDevice latched).deviceTurn.dev.wel = true ∧ fullPage.length ≤ 256 := by
  decide

/-- The same state for each of the three frames. -/
theorem witness_UnlatchedActionIsNotAccepted : State.reset.busHandle = .held ∧ State.reset.busSucceeds ∧
    State.reset.deviceTurn.dev.inv ∧ State.reset.deviceTurn.dev.busy = false ∧ State.reset.deviceTurn.dev.wel = false ∧
    fullPage.length ≤ 256 ∧ encode (.pageProgram 0#24 fullPage) = .frame (0x02#8 :: (addr3 0#24 ++ fullPage)) 0 ∧
    encode (.sectorErase 0#24) = .frame [0x20#8, 0x00#8, 0x00#8, 0x00#8] 0 ∧ encode .chipErase = .frame [0xC7#8] 0 :=
  ⟨rfl, by decide, ⟨by decide, by decide⟩, rfl, rfl, fullPage_length.le, rfl, rfl, rfl⟩

theorem witness_ResetPairResetsTheDevice : (onDevice { erasing with rstArmed := true }).busHandle = .held ∧
    (onDevice { erasing with rstArmed := true }).busSucceeds ∧
    ({ onDevice { erasing with rstArmed := true } with schedule := [false] } : State).deviceTurn.dev.rstArmed = true ∧
    ({ onDevice { erasing with rstArmed := true } with schedule := [false] } : State).deviceTurn.dev.inv :=
  ⟨rfl, by decide, rfl, ⟨by decide, by decide⟩⟩

theorem witness_WireCommandsComplete : (Instr.pageProgram 0#24 fullPage).wellFormed = true ∧
    encode (.pageProgram 0#24 fullPage) = .frame (0x02#8 :: (addr3 0#24 ++ fullPage)) 0 ∧
    encode .readStatus = .frame [0x05#8] 1 ∧ encode (.read 0#24 0) = .frame [0x03#8, 0x00#8, 0x00#8, 0x00#8] 0 ∧
    State.reset.busHandle = .held ∧ State.reset.busSucceeds :=
  ⟨witness_DecodeEncode, rfl, rfl, rfl, rfl, by decide⟩

theorem witness_AnyBytesAreTakenAsDelivered : encode .readStatus = .frame [0x05#8] [0xFF#8].length ∧
    encode .readJedecId = .frame [0x9F#8] [0xFF#8, 0xFF#8, 0xFF#8].length ∧
    (onBus (delivers [0xFF#8])).busScript = .ok :: .ok :: .data [0xFF#8] :: .ok :: [] ∧
    (onBus []).busHandle = .held := by decide

/-- One script for each stage, the clean-up's answer inside the script and past its end; a command that reads and one
that does not; one after which the device is unknown and one after which it is not. -/
theorem witness_FailedTransactions : (Instr.read 0#24 1).wellFormed = true ∧ (onBus []).busHandle = .held ∧
    encode (.read 0#24 1) = .frame [0x03#8, 0x00#8, 0x00#8, 0x00#8] 1 ∧ encode .writeEnable = .frame [0x06#8] 0 ∧
    (onBus [.err 1]).busScript = .err 1 :: [] ∧ (onBus [.err 1]).chipSelect = false ∧
    (onBus [.ok, .err 1, .err 2]).busScript = .ok :: .err 1 :: .err 2 :: [] ∧
    ([.err 2] : List BusAnswer).headD .ok ≠ .hang ∧ (([] : List BusAnswer).headD .ok).succeeds = true ∧
    (onBus [.ok, .err 1]).busScript = .ok :: .err 1 :: [] ∧
    (onBus [.ok, .ok, .err 1]).busScript = .ok :: .ok :: .err 1 :: [] ∧
    (onBus [.ok, .ok, .err 1, .ok]).busScript = .ok :: .ok :: .err 1 :: .ok :: [] ∧
    unsettles .writeEnable = true ∧ unsettles (.read 0#24 1) = false ∧
    (onBus [.ok, .ok, .ok, .err 1]).busScript = [.ok, .ok, .ok, .err 1] ++ [] ∧
    (onBus [.ok, .ok, .err 1]).busScript = [.ok, .ok, .err 1] ++ [] := by decide

/-- The first call and the last. -/
theorem witness_HungCollaboratorIsStuck : (Instr.read 0#24 1).wellFormed = true ∧
    encode (.read 0#24 1) = .frame [0x03#8, 0x00#8, 0x00#8, 0x00#8] 1 ∧ (onBus [.hang]).busScript = [] ++ .hang :: [] ∧
    (onBus (sent ++ [.hang])).busScript = sent ++ .hang :: [] ∧ (∀ a ∈ sent, a.succeeds = true) ∧
    sent.length < (txnCalls [0x03#8, 0x00#8, 0x00#8, 0x00#8] 1).length ∧
    asleep.delayHandle = .held ∧ asleep.phase = .sleeping ∧ pollClass asleep.op = some .se ∧
    ({ asleep with sleepScript := [.hang] } : State).sleepScript = .hang :: [] := by decide

set_option maxRecDepth 4000 in
/-- One state for each stop. -/
theorem witness_StopsAreNamed : ({ State.reset with busHandle := .released } : State).busHandle = .released ∧
    256 < (List.replicate 257 0xAA#8).length ∧ (offered ⟨1#3, 0#24, 1, []⟩).phase = .idle ∧
    (offered ⟨1#3, 0#24, 1, []⟩).port = .command ⟨1#3, 0#24, 1, []⟩ :: [] ∧ (1 : Nat) ≠ ([] : List Byte).length ∧
    (∀ i ∈ [.opPageProgram 0#24 fullPage, .opSectorErase 0#24, .opChipErase], (mutation i).isSome = true) ∧
    ({ State.reset with maxPolls := ⟨0, 0, 0⟩ } : State).ready ∧
    ({ State.reset with maxPolls := ⟨0, 0, 0⟩ } : State).busSucceeds := by decide

/-- An opportunity passed over and one taken; the three cycles. -/
theorem witness_CompleteAppliesThePendingCycle : (onDevice erasing).phase = .idle ∧ (onDevice erasing).port = [] ∧
    erasing.inv ∧ erasing.busy = true ∧ polling.schedule.headD polling.scheduleEnd = false ∧
    (onDevice erasing).schedule.headD (onDevice erasing).scheduleEnd = true ∧
    erasing.pending = some (.sectorErase 0x001234#24) ∧
    erasing.sectorBase 0xFFFFFF#24 + erasing.sectorSize ≤ erasing.capacity ∧
    ({ erasing with pending := some .chipErase } : Device).inv ∧
    ({ erasing with pending := some (.program 0xFFFFFF#24 [0x3C#8]) } : Device).inv ∧
    (0xFFFFFF#24).toNat + 1 ≤ erasing.capacity ∧ (0xFFFFFF#24).toNat % 256 + 1 ≤ 256 :=
  ⟨rfl, rfl, inv_erasing, rfl, rfl, rfl, rfl, by decide, ⟨by decide, by decide⟩, ⟨by decide, by decide⟩, by decide, by decide⟩

theorem witness_ReadOperation : State.reset.ready ∧ State.reset.deviceAnswers ∧ State.reset.deviceTurn.dev.busy = false ∧
    0 < 1 ∧ (0xFFFFFF#24).toNat + 0 < State.reset.dev.capacity := by decide

theorem witness_ReadTraces : (onBus [.ok, .err 1, .err 2]).ready ∧ (onBus [.ok, .err 1, .err 2]).nothingHangs := by decide

theorem witness_WriteEnableOperation : State.reset.ready ∧ State.reset.busSucceeds ∧
    State.reset.deviceTurn.dev.busy = false := by decide

/-- A device with the latch set, and one with a reset armed. -/
theorem witness_WriteEnableIsIdempotent : (onDevice latched).ready ∧ (onDevice latched).busSucceeds ∧
    latched.busy = false ∧ latched.wel = true ∧ latched.rstArmed = false ∧
    (onDevice { Device.reset with rstArmed := true }).ready ∧
    (onDevice { Device.reset with rstArmed := true }).dev.busy = false := by decide

theorem witness_IdentificationOperations : State.reset.ready ∧ State.reset.deviceAnswers ∧
    State.reset.deviceTurn.dev.busy = false := by decide

theorem witness_SingleTransactionTraces : (onBus [.err 1]).ready ∧ (onBus [.err 1]).nothingHangs := by decide

theorem witness_ReadJedecIdTraces : (onBus (delivers [0xFF#8, 0xFF#8, 0xFF#8])).ready ∧
    (onBus (delivers [0xFF#8, 0xFF#8, 0xFF#8])).nothingHangs := by decide

/-- A device in the middle of a cycle, and an idle one. -/
theorem witness_SoftwareResetOperation : (onDevice erasing).ready ∧ (onDevice erasing).busSucceeds ∧
    (onDevice erasing).dev.inv ∧ State.reset.dev.inv ∧ State.reset.dev.pending = none :=
  ⟨by decide, by decide, inv_erasing, inv_reset_device, rfl⟩

theorem witness_SoftwareResetTraces : (onBus (sent ++ [.err 1])).ready ∧ (onBus (sent ++ [.err 1])).nothingHangs := by decide

set_option maxRecDepth 4000 in
/-- 257 bytes and 256. -/
theorem witness_OverlongProgramTouchesNothing : (onBus [.err 1]).ready ∧ 256 < (List.replicate 257 0xAA#8).length ∧
    fullPage.length ≤ 256 ∧ ∃ t, exec (.opPageProgram 0#24 fullPage) (onBus [.err 1]) = .next t :=
  ⟨by decide, by decide, fullPage_length.le, _, rfl⟩

theorem witness_MutatingTraces : State.reset.ready ∧ State.reset.nothingHangs ∧ (∀ c, 1 ≤ State.reset.maxPolls.get c) ∧
    fullPage.length ≤ 256 := ⟨by decide, by decide, polls_positive, fullPage_length.le⟩

set_option maxRecDepth 4000 in
/-- The three operations at the boundary of their operands. -/
theorem mutation_witness : mutation (.opPageProgram 0#24 fullPage) = some (.pp, .program 0#24 fullPage) ∧
    mutation (.opSectorErase 0xFFFFFF#24) = some (.se, .sectorErase 0xFFFFFF#24) ∧
    mutation .opChipErase = some (.ce, .chipErase) := by decide

/-- The last poll allowed sees the end of the cycle (K = M - 1), or does not (K = M), or no poll ever would. -/
theorem witness_BusyWaitCountsPolls : (slow 9).ready ∧ (slow 9).deviceAnswers ∧ (slow 9).sleepsReturn ∧
    (∀ c, 1 ≤ (slow 9).maxPolls.get c) ∧ (slow 9).dev.idle ∧
    (slow 9).completesAfter 9 ∧ (∀ c, 9 < (slow 9).maxPolls.get c) ∧
    (slow 10).ready ∧ (slow 10).deviceAnswers ∧ (slow 10).sleepsReturn ∧ (slow 10).dev.idle ∧
    (∀ c, ¬ (slow 10).completesWithin ((slow 10).maxPolls.get c)) ∧
    never.ready ∧ never.deviceAnswers ∧ never.sleepsReturn ∧ never.dev.idle ∧
    ∀ c, ¬ never.completesWithin (never.maxPolls.get c) :=
  ⟨by decide, by decide, by decide, polls_positive, by decide, by decide, fun c => by cases c <;> decide,
    by decide, by decide, by decide, by decide, fun c => by cases c <;> exact slow_10_does_not,
    by decide, by decide, by decide, by decide, fun _ => never_completes _⟩

/-- The last page of the array. -/
theorem witness_PageProgramOperation : (slow 9).ready ∧ (slow 9).deviceAnswers ∧ (slow 9).sleepsReturn ∧
    (slow 9).dev.inv ∧ (slow 9).dev.idle ∧ fullPage.length ≤ 256 ∧ (slow 9).completesWithin (slow 9).maxPolls.pp ∧
    (0xFFFF00#24).toNat + fullPage.length ≤ (slow 9).dev.capacity ∧ (0xFFFF00#24).toNat % 256 + fullPage.length ≤ 256 :=
  ⟨by decide, by decide, by decide, inv_reset_device, by decide, fullPage_length.le, slow_9_completes,
    by rw [fullPage_length]; decide, by rw [fullPage_length]; decide⟩

/-- The last sector of the array. -/
theorem witness_SectorEraseOperation : (slow 9).ready ∧ (slow 9).deviceAnswers ∧ (slow 9).sleepsReturn ∧
    (slow 9).dev.inv ∧ (slow 9).dev.idle ∧ (slow 9).completesWithin (slow 9).maxPolls.se ∧
    (slow 9).dev.sectorBase 0xFFFFFF#24 + (slow 9).dev.sectorSize ≤ (slow 9).dev.capacity :=
  ⟨by decide, by decide, by decide, inv_reset_device, by decide, slow_9_completes, by decide⟩

theorem witness_ChipEraseOperation : (slow 9).ready ∧ (slow 9).deviceAnswers ∧ (slow 9).sleepsReturn ∧
    (slow 9).dev.inv ∧ (slow 9).dev.idle ∧ (slow 9).completesWithin (slow 9).maxPolls.ce :=
  ⟨by decide, by decide, by decide, inv_reset_device, by decide, slow_9_completes⟩

/-- The last page of the array, erased. -/
theorem witness_ProgramThenReadRoundTrip : (slow 9).ready ∧ (slow 9).deviceAnswers ∧ (slow 9).sleepsReturn ∧
    (slow 9).dev.inv ∧ (slow 9).dev.idle ∧ fullPage.length ≤ 256 ∧
    (0xFFFF00#24).toNat + fullPage.length ≤ (slow 9).dev.capacity ∧ (0xFFFF00#24).toNat % 256 + fullPage.length ≤ 256 ∧
    (∀ j, j < fullPage.length →
      Memory.read (slow 9).dev.erasedByte (slow 9).dev.mem ((0xFFFF00#24).toNat + j) = (slow 9).dev.erasedByte) ∧
    (slow 9).completesWithin (slow 9).maxPolls.pp :=
  ⟨by decide, by decide, by decide, inv_reset_device, by decide, fullPage_length.le,
    by rw [fullPage_length]; decide, by rw [fullPage_length]; decide, fun _ _ => rfl, slow_9_completes⟩

theorem witness_TimeoutLeavesTheTargetOpen : (slow 10).ready ∧ (slow 10).deviceAnswers ∧ (slow 10).sleepsReturn ∧
    (slow 10).dev.inv ∧ (slow 10).dev.idle ∧ (∀ c, 1 ≤ (slow 10).maxPolls.get c) ∧
    (∀ c, ¬ (slow 10).completesWithin ((slow 10).maxPolls.get c)) ∧
    ∀ i ∈ [.opPageProgram 0#24 fullPage, .opSectorErase 0#24, .opChipErase], ∃ c cycle, mutation i = some (c, cycle) :=
  ⟨by decide, by decide, by decide, inv_reset_device, by decide, polls_positive,
    fun c => by cases c <;> exact slow_10_does_not, by
      simp only [List.mem_cons, List.not_mem_nil, or_false, forall_eq_or_imp, forall_eq]
      exact ⟨⟨_, _, mutation_witness.1⟩, ⟨_, _, rfl⟩, _, _, rfl⟩⟩

/-- The last poll allowed, on a bus that delivers a busy byte though the device is not busy. -/
theorem witness_TimeoutLeavesBusyAndLatchOpen :
    ({ onBus (delivers [0x03#8]) with phase := .poll, op := .sectorErase, pollCnt := 9 } : State).phase = .poll ∧
    (onBus (delivers [0x03#8])).dev.inv ∧
    part (fun s => (s.phase, s.result))
      (step { onBus (delivers [0x03#8]) with phase := .poll, op := .sectorErase, pollCnt := 9 }) = some (.done, .timeout) :=
  ⟨rfl, inv_reset_device, by decide⟩

theorem witness_EveryOperationResponds : isHostOp .opChipErase = true ∧ State.reset.ready ∧ State.reset.nothingHangs ∧
    ∀ c, 1 ≤ State.reset.maxPolls.get c := ⟨by decide, by decide, by decide, polls_positive⟩

theorem witness_OneResponsePerOperation : isHostOp (.opRead 0#24 0) = true ∧ State.reset.phase = .idle ∧
    ∃ t, exec (.opRead 0#24 0) State.reset = .next t := ⟨by decide, rfl, _, rfl⟩

/-- An operation whose second transaction fails. -/
theorem witness_BusErrorsEndTheOperation : isHostOp .opChipErase = true ∧ (onBus (sent ++ [.err 1])).phase = .idle ∧
    seen (exec .opChipErase (onBus (sent ++ [.err 1]))) =
      some ([.txn [0x06#8] [], .txnFail .begin 1, .rsp (.busError 1)], .busError 1) := by decide

/-- Two states with different latches, buffers and histories. -/
theorem witness_HistoryDoesNotMatter : isHostOp .opReadJedecId = true ∧
    SameEnvironment State.reset { State.reset with rxData := [0x01#8], pollCnt := 3, trace := [.sleep 7], op := .chipErase } ∧
    State.reset.phase = .idle ∧ ∃ t, exec .opReadJedecId State.reset = .next t :=
  ⟨by decide, ⟨rfl, rfl, rfl, rfl, rfl, rfl, rfl, rfl, rfl, rfl, rfl⟩, rfl, _, rfl⟩

theorem witness_ReadsLeaveTheDeviceAlone : fillsBuffer (.read 0#24 1) = true ∧ State.reset.busHandle = .held ∧
    State.reset.busSucceeds ∧ State.reset.dev.busy = false ∧ State.reset.dev.rstArmed = false ∧
    (∃ t, exec (.read 0#24 1) State.reset = .next t) ∧ ∃ t, exec .readStatus State.reset = .next t :=
  ⟨by decide, rfl, by decide, rfl, rfl, ⟨_, rfl⟩, _, rfl⟩

end Sys2Proof.Tests
end

/-! ### Address framing (30_encoding.md R93) -/

namespace Sys2Proof

/-- Shifting a byte of an address down and masking it with `0xFF` takes that byte out of the address. -/
theorem setWidth_ushiftRight_and_mask (a : Addr) (k : Nat) :
    ((a >>> k) &&& 0xFF#24).setWidth 8 = a.extractLsb' k 8 := by
  have mask : (0xFF#24).setWidth 8 = BitVec.allOnes 8 := by decide
  rw [BitVec.setWidth_and, mask, BitVec.and_allOnes, BitVec.setWidth_ushiftRight_eq_extractLsb]

theorem addr3_eq_fields (a : Addr) : addr3 a = [a.extractLsb 23 16, a.extractLsb 15 8, a.extractLsb 7 0] :=
  addr3_eq a

theorem addr3_eq_shifts (a : Addr) :
    addr3 a =
      [((a >>> 16) &&& 0xFF#24).setWidth 8, ((a >>> 8) &&& 0xFF#24).setWidth 8, (a &&& 0xFF#24).setWidth 8] := by
  have low : (a &&& 0xFF#24).setWidth 8 = a.extractLsb' 0 8 := by
    simpa only [BitVec.ushiftRight_zero] using setWidth_ushiftRight_and_mask a 0
  rw [addr3_eq, setWidth_ushiftRight_and_mask, setWidth_ushiftRight_and_mask, low]

theorem addrOf_eq_shifts (b1 b2 b3 : Byte) :
    addrOf b1 b2 b3 = (b1.setWidth 24 <<< 16) ||| (b2.setWidth 24 <<< 8) ||| b3.setWidth 24 :=
  calc addrOf b1 b2 b3
    _ = (b1 ++ b2 ++ b3).setWidth 24 := (BitVec.setWidth_eq _).symm
    _ = _ := BitVec.setWidth_append_append_eq_shiftLeft_setWidth_or

/-- Settles O5: the bytes of `addr3` are fields by its equation and shifts by the mask lemma; the device's inverse is a
concatenation, which is the shifts joined by `or`, and undoes `addr3` by `addrOf_addr3`. -/
theorem addressFraming : Obligations.AddressFraming := by
  unfold Obligations.AddressFraming
  have readFrame_0x001000 (n : Nat) :
      encode (.read 0x001000#24 n) = .frame [0x03#8, 0x00#8, 0x10#8, 0x00#8] n := rfl
  exact ⟨fun a => ⟨addr3_eq_fields a, addr3_eq_shifts a⟩, readFrame_0x001000, addrOf_eq_shifts,
    fun a => ⟨_, _, _, addr3_eq a, addrOf_addr3 a⟩⟩

end Sys2Proof

/-! ### The complete traces of read (42_read.md R171) -/

namespace Sys2Proof.Machine

/-- The response `t` of an operation that began in `s` and whose rule is one transaction that receives `n` bytes: what
the transaction received is what is returned and what stands in the buffer. -/
def RespondsWithReceived (s : State) (tx : List Byte) (n : Nat) (t : State) : Prop :=
  ∃ ev, t.trace = s.trace ++ ev ++ [.rsp t.result] ∧ t.phase = .idle ∧ OneTxnTrace tx n id ev t.result ∧
    ∀ rx, t.result = .ok rx → t.rxData = rx

/-- The response to a transaction that went through. -/
theorem respondsWithReceived_succeed {s u : State} {tx rx : List Byte} {n : Nat} (hop : okPayload u.op = id)
    (hlen : rx.length = n) (htrace : u.trace = s.trace ++ [.txn tx rx]) (hbuf : u.rxData = rx) :
    RespondsWithReceived s tx n u.succeed.respond := by
  have hresult : u.succeed.respond.result = .ok rx := by simp [hop, hbuf]
  refine ⟨[.txn tx rx], ?_, rfl, .inl ⟨rx, hlen, rfl, hresult⟩, fun rx' h => ?_⟩
  · simp [htrace]
  · rw [hresult] at h
    exact hbuf.trans (Result.ok.inj h)

/-- The response to a transaction that failed; nothing is returned, so nothing is said of the buffer. -/
theorem respondsWithReceived_raised {s u : State} {tx : List Byte} {n : Nat} {stage : Stage} {e : BusErr}
    (htrace : u.trace = s.trace ++ [.txnFail stage e]) (hresult : u.result = .busError e) :
    RespondsWithReceived s tx n u.respond := by
  refine ⟨[.txnFail stage e], ?_, rfl, .inr ⟨stage, e, rfl, hresult⟩, fun rx h => ?_⟩
  · simp [htrace]
  · rw [State.respond_result, hresult] at h
    cases h

/-- A command that fills the buffer, as the whole rule of an operation that returns the buffer. -/
theorem wireRun_respondsWithReceived {i : Instr} {s : State} (hf : fillsBuffer i = true) (hop : okPayload s.op = id)
    (tx : List Byte) (n : Nat) :
    (wireRun i tx n s).Meets (fun _ u => RespondsWithReceived s tx n u.succeed.respond)
      (fun u => RespondsWithReceived s tx n u.respond) := by
  refine (wireRun_trace i tx n s).mono (fun _ u hdone => ?_) (fun u hfailed => ?_)
  · obtain ⟨hkept, rx, hlen, htrace, -, -, -, hbuf⟩ := hdone
    exact respondsWithReceived_succeed (hkept.op ▸ hop) hlen htrace (hbuf hf)
  · obtain ⟨-, stage, e, htrace, hresult, -⟩ := hfailed
    exact respondsWithReceived_raised htrace hresult

/-- Settles O34: read is one Read transaction, which ends because nothing hangs, and whose two ends give the two
traces. -/
theorem readTraces : Obligations.ReadTraces := by
  unfold Obligations.ReadTraces
  rintro s a n ⟨⟨hbus, -⟩, hidle⟩ ⟨hscript, -⟩
  have hends : (wireRun (.read a n) (0x03#8 :: addr3 a) n (latchRead a n s)).Ends := wireRun_ends rfl rfl hbus hscript
  obtain ⟨t, hfinish, ev, hresponse⟩ := Run.finish_of_ends
    (Q := RespondsWithReceived (latchRead a n s) (0x03#8 :: addr3 a) n) hends (wireRun_respondsWithReceived rfl rfl _ n)
  refine ⟨t, ev, ?_, hresponse⟩
  rw [exec_opRead, operate_ready hbus hidle, hfinish]

end Sys2Proof.Machine

/-! ### The length check of page_program (43_program_erase.md R181) -/

namespace Sys2Proof.Machine

/-- An error raised straight from page_program's latches (its CHECK phase) and answered changes the latches, RESULT, the
path and the trace of an idle sequencer, and nothing else. -/
theorem latchPageProgram_raiseError_respond {s : State} (hidle : s.phase = .idle) (a : Addr) (data : List Byte)
    (r : Result) :
    ((latchPageProgram a data s).raiseError r).respond = { s with
      op := .pageProgram
      addr := a
      len := data.length
      txData := data
      result := r
      path := s.path ++ [.check, .done, .idle]
      trace := s.trace ++ [.rsp r] } := by
  simp [latchPageProgram, State.raiseError, State.respond, State.record, State.enter, hidle]

/-- page_program of more than 256 bytes on a ready sequencer is the raise of its length check. -/
theorem exec_opPageProgram_overlong {s : State} {a : Addr} {data : List Byte} (hs : s.ready)
    (hlong : Config.pageSize < data.length) :
    exec (.opPageProgram a data) s = .next ((latchPageProgram a data s).raiseError .invalidLength).respond := by
  obtain ⟨⟨hbus, -⟩, hidle⟩ := hs
  rw [exec_opPageProgram, operate_ready hbus hidle, if_pos hlong]
  rfl

/-- page_program of 256 bytes or fewer on a ready sequencer is the mutating template. -/
theorem exec_opPageProgram_fits {s : State} {a : Addr} {data : List Byte} (hs : s.ready)
    (hfits : data.length ≤ Config.pageSize) :
    exec (.opPageProgram a data) s =
      (mutate .pp (txnSend (.pageProgram a data)) ((latchPageProgram a data s).enter .wren)).finishOperation := by
  obtain ⟨⟨hbus, -⟩, hidle⟩ := hs
  rw [exec_opPageProgram, operate_ready hbus hidle, if_neg hfits.not_gt]

/-- No row of the table of 41_subprotocols.md R165 has `InvalidLength` for its result. -/
theorem MutateTrace.result_ne_invalidLength {tx : List Byte} {m us : Nat} {ev : List Event} {r : Result}
    (h : MutateTrace tx m us ev r) : r ≠ .invalidLength := by
  rcases h with ⟨_, _, -, rfl⟩ | ⟨_, _, -, rfl⟩ | ⟨_, _, -, -, -, -, rfl⟩ | ⟨_, _, _, -, -, -, rfl⟩ |
    ⟨_, _, -, -, -, -, rfl⟩
  all_goals exact Result.noConfusion

/-- The mutating template, run as the rule of an operation, does not end in `InvalidLength`: the length check is before
it. -/
theorem mutate_finish_ne_invalidLength {i : Instr} {tx : List Byte} (he : encode i = .frame tx 0)
    (hf : fillsBuffer i = false) (hi : i ≠ .readStatus) {c : PollClass} {s t : State}
    (ht : (mutate c (txnSend i) s).finishOperation = .next t) : t.result ≠ .invalidLength := by
  refine Run.meets_finish (Q := fun u => u.result ≠ .invalidLength)
    ((mutate_trace he hf hi c s).mono (fun _ u _ => ?_) (fun u hraised => ?_)) ht
  · simp
  · obtain ⟨ev, -, hrow⟩ := hraised
    exact hrow.result_ne_invalidLength

/-- Settles O42: more than 256 bytes are the raise of the length check, whose whole next state is known; 256 or fewer are
the mutating template, and no row of its table ends in `InvalidLength`. -/
theorem overlongProgramTouchesNothing : Obligations.OverlongProgramTouchesNothing := by
  unfold Obligations.OverlongProgramTouchesNothing
  refine ⟨fun s a data hs hlong => ?_, fun s t a data hs hfits hexec => ?_⟩
  · rw [exec_opPageProgram_overlong hs hlong, latchPageProgram_raiseError_respond hs.2]
  · rw [exec_opPageProgram_fits hs hfits] at hexec
    exact mutate_finish_ne_invalidLength rfl rfl (by simp) hexec

end Sys2Proof.Machine

/-! ### The complete traces of read_jedec_id (45_identification.md R215) -/

namespace Sys2Proof.Machine

/-- A wire command that went through leaves the path alone: DONE is entered by the operation's rule. -/
theorem wireDone_path {i : Instr} {s t : State} {tx : List Byte} {n : Nat} (h : WireDone i s tx n t) :
    t.path = s.path := by
  obtain ⟨rx, u, ⟨j, drx, d, -, -, -, rfl⟩, rfl⟩ := h
  rw [store_path, State.completed_path, deviceTurn_path]

/-- A wire command that failed has entered DONE. -/
theorem wireFailed_path {i : Instr} {s t : State} {tx : List Byte} {n : Nat} (h : WireFailed i s tx n t) :
    t.path = s.path ++ [.done] := by
  obtain ⟨u, ⟨j, stage, e, calls, sel, -, -, rfl⟩, rfl⟩ := h
  exact congrArg (· ++ [Phase.done]) (deviceTurn_path (s := s))

/-- A wire command, as the whole rule of an operation, goes from its phase through DONE to IDLE, however it ends. -/
theorem wireRun_path (i : Instr) (tx : List Byte) (n : Nat) (s : State) :
    (wireRun i tx n s).Meets (fun _ u => u.succeed.respond.path = s.path ++ [.done, .idle])
      (fun u => u.respond.path = s.path ++ [.done, .idle]) := by
  refine (wireRun_meets i tx n s).mono (fun _ u hdone => ?_) (fun u hfailed => ?_)
  · simp [wireDone_path hdone]
  · simp [wireFailed_path hfailed]

@[simp] theorem latchReadJedecId_path (s : State) : (latchReadJedecId s).path = s.path ++ [.xfer] := rfl

/-- The traces of a transaction that receives three bytes and returns them, with the bytes named. -/
theorem OneTxnTrace.three_bytes {tx : List Byte} {ev : List Event} {r : Result} (h : OneTxnTrace tx 3 id ev r) :
    (∃ b0 b1 b2, ev = [.txn tx [b0, b1, b2]] ∧ r = .ok [b0, b1, b2]) ∨
      (∃ stage e, ev = [.txnFail stage e] ∧ r = .busError e) := by
  refine h.imp_left fun ⟨rx, hlen, hev, hr⟩ => ?_
  obtain ⟨b0, b1, b2, rfl⟩ := List.length_eq_three.mp hlen
  exact ⟨b0, b1, b2, hev, hr⟩

/-- Settles O39: read_jedec_id is one ReadJEDECID transaction of three received bytes, which ends because nothing hangs,
and whose two ends give the two traces and the one path. -/
theorem readJedecIdTraces : Obligations.ReadJedecIdTraces := by
  unfold Obligations.ReadJedecIdTraces
  rintro s ⟨⟨hbus, -⟩, hidle⟩ ⟨hscript, -⟩
  have hends : (wireRun .readJedecId [0x9F#8] 3 (latchReadJedecId s)).Ends := wireRun_ends rfl rfl hbus hscript
  obtain ⟨t, hfinish, ⟨ev, htrace, -, hone, -⟩, hpath⟩ := Run.finish_of_ends
    (Q := fun t => RespondsWithReceived (latchReadJedecId s) [0x9F#8] 3 t ∧
      t.path = (latchReadJedecId s).path ++ [.done, .idle]) hends
    ((wireRun_respondsWithReceived rfl rfl _ 3).and (wireRun_path _ _ _ _))
  refine ⟨t, ev, ?_, htrace, ?_, hone.three_bytes⟩
  · rw [exec_opReadJedecId, operate_ready hbus hidle, hfinish]
  · simpa using hpath

end Sys2Proof.Machine

/-! ### Bus errors (60_exceptions.md R261) -/

namespace Sys2Proof.Machine

/-! #### The events -/

/-- None of the events is a failed transaction. -/
def NoFailure (ev : List Event) : Prop := ∀ stage e, Event.txnFail stage e ∉ ev

/-- The events of an operation with result `r`: a failed transaction is the last of them and `r` carries its error, or
none failed and `r` is no bus error. -/
def FailureIsLast (ev : List Event) (r : Result) : Prop :=
  (∃ before stage e, ev = before ++ [.txnFail stage e] ∧ NoFailure before ∧ r = .busError e) ∨
  (NoFailure ev ∧ ∀ e, r ≠ .busError e)

theorem NoFailure.nil : NoFailure [] := fun _ _ => List.not_mem_nil

theorem NoFailure.append {a b : List Event} (ha : NoFailure a) (hb : NoFailure b) : NoFailure (a ++ b) :=
  fun stage e h => (List.mem_append.mp h).elim (ha stage e) (hb stage e)

theorem noFailure_txn (tx rx : List Byte) : NoFailure [.txn tx rx] := by simp [NoFailure]

theorem noFailure_busyPolls (us : Nat) (bs : List Byte) : NoFailure (busyPolls us bs) := by
  simp [NoFailure, busyPolls]

/-- What follows a failed transaction is nothing, and the result is its error. -/
theorem FailureIsLast.nothing_after {ev before after : List Event} {r : Result} {stage : Stage} {e : BusErr}
    (h : FailureIsLast ev r) (hev : ev = before ++ .txnFail stage e :: after) : after = [] ∧ r = .busError e := by
  rcases h with ⟨first, stage', e', hlast, hfirst, hr⟩ | ⟨hnone, -⟩
  · rw [hev] at hlast
    rcases List.eq_nil_or_concat after with rfl | ⟨middle, z, rfl⟩
    · obtain ⟨-, hsame⟩ := List.append_inj' hlast rfl
      cases hsame
      exact ⟨rfl, hr⟩
    · have hsplit : (before ++ .txnFail stage e :: middle) ++ [z] = first ++ [.txnFail stage' e'] := by
        simpa using hlast
      obtain ⟨hprefix, -⟩ := List.append_inj' hsplit rfl
      exact absurd (by simp [← hprefix]) (hfirst stage e)
  · exact absurd (by simp [hev]) (hnone stage e)

/-- A bus error has the failed transaction it came from, last of the events. -/
theorem FailureIsLast.cause {ev : List Event} {e : BusErr} (h : FailureIsLast ev (.busError e)) :
    ∃ before stage, ev = before ++ [.txnFail stage e] := by
  rcases h with ⟨before, stage, e', hev, -, hr⟩ | ⟨-, hr⟩
  · cases hr
    exact ⟨before, stage, hev⟩
  · exact absurd rfl (hr e)

/-- Events without a failure, before events whose failure is last. -/
theorem FailureIsLast.after_noFailure {a ev : List Event} {r : Result} (ha : NoFailure a) (h : FailureIsLast ev r) :
    FailureIsLast (a ++ ev) r := by
  rcases h with ⟨before, stage, e, rfl, hbefore, hr⟩ | ⟨hnone, hr⟩
  · exact .inl ⟨a ++ before, stage, e, by simp, ha.append hbefore, hr⟩
  · exact .inr ⟨ha.append hnone, hr⟩

theorem failureIsLast_txnFail (stage : Stage) (e : BusErr) : FailureIsLast [.txnFail stage e] (.busError e) :=
  .inl ⟨[], stage, e, rfl, .nil, rfl⟩

theorem FailureIsLast.noFailure_of_ok {ev : List Event} {rx : List Byte} (h : FailureIsLast ev (.ok rx)) :
    NoFailure ev := by
  rcases h with ⟨_, _, _, -, -, hr⟩ | ⟨hnone, -⟩
  · cases hr
  · exact hnone

/-- Every row of the table of 41_subprotocols.md R165 has its failed transaction last. -/
theorem MutateTrace.failureIsLast {tx : List Byte} {m us : Nat} {ev : List Event} {r : Result}
    (h : MutateTrace tx m us ev r) : FailureIsLast ev r := by
  have wren : NoFailure [.txn [0x06#8] []] := noFailure_txn _ _
  have polled (bs : List Byte) : NoFailure ([.txn [0x06#8] [], .txn tx []] ++ busyPolls us bs) :=
    (wren.append (noFailure_txn tx [])).append (noFailure_busyPolls us bs)
  rcases h with ⟨stage, e, rfl, rfl⟩ | ⟨stage, e, rfl, rfl⟩ | ⟨bs, i, -, -, -, rfl, rfl⟩ |
    ⟨bs, stage, e, -, -, rfl, rfl⟩ | ⟨bs, b, -, -, -, rfl, rfl⟩
  · exact failureIsLast_txnFail stage e
  · exact (failureIsLast_txnFail stage e).after_noFailure wren
  · exact .inr ⟨(polled bs).append (noFailure_txn _ _), by simp⟩
  · exact (failureIsLast_txnFail stage e).after_noFailure (polled bs)
  · exact .inr ⟨(polled bs).append (noFailure_txn _ _), by simp⟩

/-! #### The parts of an operation -/

/-- From `s` the operation went on to `t`: no bus call was answered with an error and no transaction failed. -/
def WentWell (s t : State) : Prop := Consumed s t none ∧ ∃ ev, t.trace = s.trace ++ ev ∧ NoFailure ev

/-- From `s` the operation raised in `t`: its result is the first error of the bus, or is no bus error where there was
none; a failed transaction is its last event. -/
def RaisedAtFailure (s t : State) : Prop :=
  RaisedRightly s t ∧ ∃ ev, t.trace = s.trace ++ ev ∧ FailureIsLast ev t.result

theorem WentWell.trans {s t u : State} (h : WentWell s t) (h' : WentWell t u) : WentWell s u := by
  obtain ⟨hcalls, ev, htrace, hev⟩ := h
  obtain ⟨hcalls', ev', htrace', hev'⟩ := h'
  exact ⟨hcalls.trans hcalls', ev ++ ev', by simp [htrace', htrace], hev.append hev'⟩

theorem RaisedAtFailure.trans {s t u : State} (h : WentWell s t) (h' : RaisedAtFailure t u) : RaisedAtFailure s u := by
  obtain ⟨hcalls, ev, htrace, hev⟩ := h
  obtain ⟨hraised, ev', htrace', hev'⟩ := h'
  exact ⟨hraised.trans hcalls, ev ++ ev', by simp [htrace', htrace], hev'.after_noFailure hev⟩

theorem wentWell_enter (s : State) (p : Phase) : WentWell s (s.enter p) :=
  ⟨.nothing rfl rfl, [], by simp, .nil⟩

theorem raisedAtFailure_invalidLength (s : State) : RaisedAtFailure s (s.raiseError .invalidLength) :=
  ⟨.inr ⟨.nothing rfl rfl, by simp⟩, [], by simp, .inr ⟨.nil, by simp⟩⟩

theorem wireRun_wentWell (i : Instr) (tx : List Byte) (n : Nat) (s : State) :
    (wireRun i tx n s).Meets (fun _ t => WentWell s t) (RaisedAtFailure s) := by
  refine ((wireRun_consumed i tx n s).and (wireRun_trace i tx n s)).mono (fun _ t hdone => ?_) (fun t hfailed => ?_)
  · obtain ⟨hcalls, -, rx, -, htrace, -⟩ := hdone
    exact ⟨hcalls, _, htrace, noFailure_txn tx rx⟩
  · obtain ⟨hraised, -, stage, e, htrace, hresult, -⟩ := hfailed
    exact ⟨.inl hraised, _, htrace, hresult ▸ failureIsLast_txnFail stage e⟩

theorem mutate_wentWell {i : Instr} {tx : List Byte} (he : encode i = .frame tx 0) (hf : fillsBuffer i = false)
    (hi : i ≠ .readStatus) (c : PollClass) (s : State) :
    (mutate c (txnSend i) s).Meets (fun _ t => WentWell s t) (RaisedAtFailure s) := by
  refine ((mutate_consumed he hf hi c s).and (mutate_trace he hf hi c s)).mono (fun _ t hdone => ?_)
    (fun t hraised => ?_)
  · obtain ⟨hcalls, ev, htrace, hrow⟩ := hdone
    exact ⟨hcalls, ev, htrace, hrow.failureIsLast.noFailure_of_ok⟩
  · obtain ⟨hraised, ev, htrace, hrow⟩ := hraised
    exact ⟨hraised, ev, htrace, hrow.failureIsLast⟩

/-! #### The operations -/

/-- The response `t` to an operation that began in `s`: its result is the bus's first error, or is no bus error where
there was none, and a failed transaction is the last event before the response. -/
def RespondsAtFailure (s t : State) : Prop :=
  RaisedRightly s t ∧ ∃ ev, t.trace = s.trace ++ ev ++ [.rsp t.result] ∧ FailureIsLast ev t.result

theorem WentWell.succeed_respond {s u : State} (h : WentWell s u) : RespondsAtFailure s u.succeed.respond := by
  obtain ⟨hcalls, ev, htrace, hev⟩ := h
  have hok : ∀ e, u.succeed.respond.result ≠ .busError e := by simp
  exact ⟨.inr ⟨hcalls, hok⟩, ev, by simp [htrace], .inr ⟨hev, hok⟩⟩

theorem RaisedAtFailure.respond {s u : State} (h : RaisedAtFailure s u) : RespondsAtFailure s u.respond := by
  obtain ⟨hraised, ev, htrace, hev⟩ := h
  exact ⟨hraised, ev, by simp [htrace], hev⟩

/-- A host operation whose rule fails only at a failed transaction responds so. -/
theorem operate_respondsAtFailure {s t : State} {latch : State → State} {body : State → Run Unit}
    (hidle : s.phase = .idle) (h : operate s latch body = .next t)
    (hbody : (body (latch s)).Meets (fun _ u => WentWell (latch s) u) (RaisedAtFailure (latch s))) :
    RespondsAtFailure (latch s) t :=
  Run.meets_finish (Q := RespondsAtFailure (latch s))
    (hbody.mono (fun _ _ hu => hu.succeed_respond) (fun _ hu => hu.respond)) (operate_next h hidle).2

/-- Every host operation responds so, from its latched operands: five run wire commands alone, of which
software_reset runs two, and three the mutating template, of which page_program checks its length first. -/
theorem hostOp_respondsAtFailure {i : Instr} {s t : State} (hi : isHostOp i = true) (hidle : s.phase = .idle)
    (h : exec i s = .next t) : RespondsAtFailure (accept i s) t := by
  cases i <;> simp [isHostOp, encode] at hi
  case opRead a n =>
    rw [exec_opRead] at h
    exact operate_respondsAtFailure hidle h (wireRun_wentWell ..)
  case opPageProgram a data =>
    rw [exec_opPageProgram] at h
    refine operate_respondsAtFailure hidle h ?_
    split
    · exact raisedAtFailure_invalidLength _
    · have hwren := wentWell_enter (latchPageProgram a data s) .wren
      exact (mutate_wentWell rfl rfl (by simp) _ _).mono (fun _ _ hu => hwren.trans hu) (fun _ hu => hu.trans hwren)
  case opSectorErase a =>
    rw [exec_opSectorErase] at h
    exact operate_respondsAtFailure hidle h (mutate_wentWell rfl rfl (by simp) _ _)
  case opChipErase =>
    rw [exec_opChipErase] at h
    exact operate_respondsAtFailure hidle h (mutate_wentWell rfl rfl (by simp) _ _)
  case opSoftwareReset =>
    rw [exec_opSoftwareReset] at h
    refine operate_respondsAtFailure hidle h ?_
    rw [Run.meets_andThen]
    refine (wireRun_wentWell ..).mono (fun _ u harmed => ?_) (fun _ hu => hu)
    have hexec := harmed.trans (wentWell_enter u .rstExec)
    exact (wireRun_wentWell ..).mono (fun _ _ hv => hexec.trans hv) (fun _ hv => hv.trans hexec)
  case opWriteEnable =>
    rw [exec_opWriteEnable] at h
    exact operate_respondsAtFailure hidle h (wireRun_wentWell ..)
  case opReadManufacturerId =>
    rw [exec_opReadManufacturerId] at h
    exact operate_respondsAtFailure hidle h (wireRun_wentWell ..)
  case opReadJedecId =>
    rw [exec_opReadJedecId] at h
    exact operate_respondsAtFailure hidle h (wireRun_wentWell ..)

/-- The latches of an operation are no bus call and no event. -/
theorem accept_bus_frame (i : Instr) (s : State) :
    (accept i s).trace = s.trace ∧ (accept i s).calls = s.calls ∧ (accept i s).busScript = s.busScript := by
  cases i <;> exact ⟨rfl, rfl, rfl⟩

/-- The answers taken, with the first error among them, which is what the result says. -/
theorem RaisedRightly.result_iff {s t : State} (h : RaisedRightly s t) :
    ∃ cs, t.calls = s.calls ++ cs ∧
      ∀ e, t.result = .busError e ↔ firstError (s.busScript.take cs.length) = some e := by
  rcases h with ⟨e, ⟨cs, hcalls, -, hfirst⟩, hresult⟩ | ⟨⟨cs, hcalls, -, hfirst⟩, hresult⟩
  · exact ⟨cs, hcalls, fun e' => by simp [hfirst, hresult]⟩
  · exact ⟨cs, hcalls, fun e' => by simp [hfirst, hresult]⟩

/-- Settles O53: every part of an operation goes on while no call is answered with an error and no transaction fails,
and raises right after its first failed transaction, with the first error; the response carries that on. -/
theorem busErrorsEndTheOperation : Obligations.BusErrorsEndTheOperation := by
  unfold Obligations.BusErrorsEndTheOperation
  intro i s t hi hidle hexec
  obtain ⟨hraised, ev, htrace, hlast⟩ := hostOp_respondsAtFailure hi hidle hexec
  obtain ⟨cs, hcalls, hresult⟩ := hraised.result_iff
  obtain ⟨htrace0, hcalls0, hscript0⟩ := accept_bus_frame i s
  rw [htrace0] at htrace
  rw [hcalls0] at hcalls
  rw [hscript0] at hresult
  exact ⟨ev, cs, htrace, hcalls, hresult, fun _ _ _ _ hev => hlast.nothing_after hev,
    fun _ he => (he ▸ hlast).cause⟩

end Sys2Proof.Machine

/-! ### The two encodings (30_encoding.md) -/

namespace Sys2Proof

/-- Settles O2: each of the eighteen forms reads back as itself, by its own law. -/
theorem decodeEncode : Obligations.DecodeEncode := by
  unfold Obligations.DecodeEncode
  intro i hw
  cases i with
  | writeEnable => exact decode_writeEnable
  | readStatus => exact decode_readStatus
  | read a n => exact decode_read a n
  | pageProgram a data => exact decode_pageProgram a data (of_decide_eq_true hw)
  | sectorErase a => exact decode_sectorErase a
  | chipErase => exact decode_chipErase
  | enableReset => exact decode_enableReset
  | reset => exact decode_reset
  | readManufacturerId => exact decode_readManufacturerId
  | readJedecId => exact decode_readJedecId
  | opRead a n => exact decode_opRead a n
  | opPageProgram a data => exact decode_opPageProgram a data
  | opSectorErase a => exact decode_opSectorErase a
  | opChipErase => exact decode_opChipErase
  | opSoftwareReset => exact decode_opSoftwareReset
  | opWriteEnable => exact decode_opWriteEnable
  | opReadManufacturerId => exact decode_opReadManufacturerId
  | opReadJedecId => exact decode_opReadJedecId

/-- The frame of a well-formed wire command decodes to it. -/
theorem decodeFrame_encode {i : Instr} {tx : List Byte} {n : Nat} (hw : i.wellFormed = true)
    (he : encode i = .frame tx n) : decodeFrame tx n = .ok i := by
  have h := decodeEncode i hw
  rwa [he] at h

/-- `i` is well formed and the frame of `tx` and `n` is its encoding. -/
def IsFrameOf (i : Instr) (tx : List Byte) (n : Nat) : Prop := i.wellFormed = true ∧ encode i = .frame tx n

/-- An opcode alone that is the whole frame of a command. -/
theorem isFrameOf_of_decodeBare {op : Byte} {i j : Instr} {k n : Nat} {args : List Byte}
    (hi : IsFrameOf i [op] k) (h : decodeBare op i k args n = .ok j) : IsFrameOf j (op :: args) n := by
  obtain ⟨rfl, rfl, rfl⟩ := decodeBare_ok h
  exact hi

theorem isFrameOf_of_decodeRead {n : Nat} {args : List Byte} {j : Instr} (h : decodeRead args n = .ok j) :
    IsFrameOf j (0x03#8 :: args) n := by
  obtain ⟨b1, b2, b3, rfl, rfl⟩ := decodeRead_ok h
  exact ⟨rfl, by rw [encode, addr3_addrOf]⟩

theorem isFrameOf_of_decodePageProgram {n : Nat} {args : List Byte} {j : Instr}
    (h : decodePageProgram args n = .ok j) : IsFrameOf j (0x02#8 :: args) n := by
  obtain ⟨b1, b2, b3, data, rfl, rfl, hlen, rfl⟩ := decodePageProgram_ok h
  exact ⟨decide_eq_true hlen, by rw [encode, addr3_addrOf]; rfl⟩

theorem isFrameOf_of_decodeSectorErase {n : Nat} {args : List Byte} {j : Instr}
    (h : decodeSectorErase args n = .ok j) : IsFrameOf j (0x20#8 :: args) n := by
  obtain ⟨b1, b2, b3, rfl, rfl, rfl⟩ := decodeSectorErase_ok h
  exact ⟨rfl, by rw [encode, addr3_addrOf]⟩

theorem isFrameOf_of_decodeReadManufacturerId {n : Nat} {args : List Byte} {j : Instr}
    (h : decodeReadManufacturerId args n = .ok j) : IsFrameOf j (0x90#8 :: args) n := by
  obtain ⟨rfl, rfl, rfl⟩ := decodeReadManufacturerId_ok h
  exact ⟨rfl, rfl⟩

/-- Settles O3: the first byte selects the part of the decoder, and what each part accepts is the encoding of its
answer. -/
theorem frameHasOneReading : Obligations.FrameHasOneReading := by
  unfold Obligations.FrameHasOneReading
  intro tx n i h
  change IsFrameOf i tx n
  cases tx with
  | nil => cases h
  | cons op args =>
    rw [decodeFrame] at h
    obtain rfl | h06 := eq_or_ne op 0x06#8
    · exact isFrameOf_of_decodeBare ⟨rfl, rfl⟩ h
    rw [if_neg h06] at h
    obtain rfl | h05 := eq_or_ne op 0x05#8
    · exact isFrameOf_of_decodeBare ⟨rfl, rfl⟩ h
    rw [if_neg h05] at h
    obtain rfl | h03 := eq_or_ne op 0x03#8
    · exact isFrameOf_of_decodeRead h
    rw [if_neg h03] at h
    obtain rfl | h02 := eq_or_ne op 0x02#8
    · exact isFrameOf_of_decodePageProgram h
    rw [if_neg h02] at h
    obtain rfl | h20 := eq_or_ne op 0x20#8
    · exact isFrameOf_of_decodeSectorErase h
    rw [if_neg h20] at h
    obtain rfl | hC7 := eq_or_ne op 0xC7#8
    · exact isFrameOf_of_decodeBare ⟨rfl, rfl⟩ h
    rw [if_neg hC7] at h
    obtain rfl | h66 := eq_or_ne op 0x66#8
    · exact isFrameOf_of_decodeBare ⟨rfl, rfl⟩ h
    rw [if_neg h66] at h
    obtain rfl | h99 := eq_or_ne op 0x99#8
    · exact isFrameOf_of_decodeBare ⟨rfl, rfl⟩ h
    rw [if_neg h99] at h
    obtain rfl | h90 := eq_or_ne op 0x90#8
    · exact isFrameOf_of_decodeReadManufacturerId h
    rw [if_neg h90] at h
    obtain rfl | h9F := eq_or_ne op 0x9F#8
    · exact isFrameOf_of_decodeBare ⟨rfl, rfl⟩ h
    rw [if_neg h9F] at h
    cases h

theorem wireOpcodes_nodup : wireOpcodes.Nodup := by decide

/-- The opcode of a wire command stands in the table at the command's own place among the constructors. -/
theorem encode_frame_opcode {i : Instr} {tx : List Byte} {n : Nat} (he : encode i = .frame tx n) :
    ∃ (hi : i.ctorIdx < wireOpcodes.length) (args : List Byte), tx = wireOpcodes[i.ctorIdx] :: args := by
  cases i <;> simp only [encode, Encoded.frame.injEq, reduceCtorEq] at he <;> obtain ⟨rfl, -⟩ := he <;>
    exact ⟨by simp [wireOpcodes, Instr.ctorIdx], _, rfl⟩

/-- Settles O4: every frame begins with the table's opcode at its command's place, and the table repeats none. -/
theorem opcodesInjective : Obligations.OpcodesInjective := by
  unfold Obligations.OpcodesInjective
  refine ⟨wireOpcodes_nodup, fun i j x y n m hx hy => ?_⟩
  obtain ⟨hi, xs, rfl⟩ := encode_frame_opcode hx
  obtain ⟨hj, ys, rfl⟩ := encode_frame_opcode hy
  exact ⟨_, xs, _, ys, rfl, rfl, List.getElem_mem hi, List.getElem_mem hj,
    fun h => (wireOpcodes_nodup.getElem_inj_iff).mp h⟩

/-- Settles O1: the ten frames are encodings, and each reads as the command it encodes. -/
theorem tableFramesDecode : Obligations.TableFramesDecode := by
  unfold Obligations.TableFramesDecode
  exact ⟨decode_writeEnable, decode_readStatus, decode_read 0x123456#24 3,
    decode_pageProgram 0x000100#24 [0xAA#8, 0x55#8] (by decide), decode_sectorErase 0x001234#24, decode_chipErase,
    decode_enableReset, decode_reset, decode_readManufacturerId, decode_readJedecId⟩

/-- The decoder rejects by name a first byte outside the table. -/
theorem decodeFrame_unknown {op : Byte} (h : op ∉ wireOpcodes) (args : List Byte) (n : Nat) :
    decodeFrame (op :: args) n = .error (.unknownOpcode op) := by
  simp only [wireOpcodes, List.mem_cons, List.not_mem_nil, or_false, not_or] at h
  simp [decodeFrame, h]

/-- Settles O6: the decoder rejects the byte, and the device answers only what decodes. -/
theorem unknownOpcodeRefused : Obligations.UnknownOpcodeRefused := by
  unfold Obligations.UnknownOpcodeRefused
  intro d k n op args h
  have hdecode := decodeFrame_unknown h args n
  exact ⟨hdecode, by rw [Machine.Device.receive, hdecode]⟩

theorem hostOp_code_ofCode (c : BitVec 3) : HostOp.code (HostOp.ofCode c) = c := by
  revert c; decide

theorem hostOp_ofCode_code (o : HostOp) : HostOp.ofCode (HostOp.code o) = o := by
  cases o <;> rfl

/-- The codes from 3 on are those of the five operations without operands. -/
theorem code_of_three_le {c : BitVec 3} (h : 3#3 ≤ c) : c = 3#3 ∨ c = 4#3 ∨ c = 5#3 ∨ c = 6#3 ∨ c = 7#3 := by
  revert c; decide

/-- Settles O7: the codes are a bijection, and the arms of the port decoder do not read the operands marked "-". -/
theorem hostCodesTotal : Obligations.HostCodesTotal := by
  unfold Obligations.HostCodesTotal
  refine ⟨hostOp_code_ofCode, hostOp_ofCode_code, fun c a a' n n' d d' hc => ?_, fun a n n' d d' => rfl,
    fun a n d d' => rfl⟩
  rcases code_of_three_le hc with rfl | rfl | rfl | rfl | rfl <;> rfl

/-- Settles O8: under the mask 0x01 only bit 0 of the byte is left. -/
theorem busyTestIsBitZero : Obligations.BusyTestIsBitZero := by
  unfold Obligations.BusyTestIsBitZero
  refine ⟨fun b => ?_, rfl, rfl, rfl⟩
  rw [Machine.isBusy, BitVec.and_one_eq_setWidth_ofBool_getLsbD]
  cases b.getLsbD 0 <;> rfl

end Sys2Proof

/-! ### Reset (10_state.md R42) -/

namespace Sys2Proof.Machine

theorem inv_device_reset : Device.reset.inv := ⟨Memory.wf_nil, rfl⟩

theorem inv_reset : Inv State.reset := by
  refine ⟨inv_device_reset, rfl, fun h => ?_, fun _ => rfl, fun h => ?_, fun c => ?_⟩
  · simp [State.reset] at h
  · simp [State.reset] at h
  · cases c <;> decide

/-- Settles O9: every clause but the invariant is a field of the state at reset. -/
theorem resetMeetsInvariant : Obligations.ResetMeetsInvariant := by
  unfold Obligations.ResetMeetsInvariant
  exact ⟨inv_reset, ⟨by simp [State.reset], by simp [State.reset]⟩, rfl, rfl, rfl, rfl, rfl, rfl, rfl⟩

end Sys2Proof.Machine

/-! ### What one step can do (10_state.md R22) -/

namespace Sys2Proof.Machine

/-! #### A step from IDLE -/

theorem step_idle {s : State} (h : s.phase = .idle) : step s = idleStep s := by
  rw [step, h]

theorem idleStep_command {s : State} {c : HostCommand} {rest : List HostInput} {i : Instr}
    (hport : s.port = .command c :: rest) (hc : decodeCommand c = .ok i) :
    idleStep s = exec i { s with port := rest } := by
  rw [idleStep, hport]
  simp only [hc]

/-- A step from IDLE is the device's turn, a release, or a host operation with its command taken from the port. -/
theorem idleStep_cases {s t : State} (h : idleStep s = .next t) :
    (s.port = [] ∧ t = s.deviceTurn) ∨
    (∃ rest, s.port = .release :: rest ∧ t = releaseHandles { s with port := rest }) ∨
    (∃ i rest, isHostOp i = true ∧ exec i { s with port := rest } = .next t) := by
  unfold idleStep at h
  split at h
  · cases h; exact .inl ⟨by assumption, rfl⟩
  · cases h; exact .inr (.inl ⟨_, by assumption, rfl⟩)
  · split at h
    · exact .inr (.inr ⟨_, _, decodeCommand_host (by assumption), h⟩)
    · cases h

/-- What the acceptance of an operation leaves alone: all but its latches and the phase. -/
theorem accept_frame (i : Instr) (s : State) :
    accept i s = { s with
      op := (accept i s).op, addr := (accept i s).addr, len := (accept i s).len, txData := (accept i s).txData
      phase := (accept i s).phase, path := (accept i s).path } := by
  cases i <;> rfl

/-- A command taken from the port of an idle sequencer: its operation keeps what operations keep, and ends idle. -/
theorem kept_command {i : Instr} {s t : State} {rest : List HostInput} (hi : isHostOp i = true)
    (hidle : s.phase = .idle) (h : exec i { s with port := rest } = .next t) :
    Kept (accept i { s with port := rest }) t ∧ t.phase = .idle :=
  hostOp_kept hi hidle h

/-- The latches of an accepted page_program agree on the length of the data. -/
theorem accept_len {i : Instr} {s : State} (hi : isHostOp i = true) (hop : (accept i s).op = .pageProgram) :
    (accept i s).len = (accept i s).txData.length := by
  cases i <;> simp [isHostOp, encode] at hi <;> first | rfl | cases hop

/-! #### A step from another phase -/

/-- From `s` a phase has run, to `t`, along an edge of its path: what bounds the data and the count of polls. -/
structure Advances (s t : State) : Prop where
  kept   : Kept s t
  edge   : phaseEdge s.phase s.op t.phase = true
  fits   : t.phase = .wren → s.len ≤ Config.pageSize
  polls  : t.phase = .poll → t.pollCnt = 0 ∨ (s.phase = .sleeping ∧ t.pollCnt = s.pollCnt)
  sleeps : t.phase = .sleeping →
    s.phase = .poll ∧ t.pollCnt = s.pollCnt + 1 ∧ ∀ c, pollClass s.op = some c → t.pollCnt ≠ s.maxPolls.get c

/-- An edge to another phase than WREN, POLL and SLEEPING needs no bound. -/
theorem Advances.of_edge {s t : State} (hk : Kept s t) (hedge : phaseEdge s.phase s.op t.phase = true)
    (hwren : t.phase ≠ .wren) (hpoll : t.phase ≠ .poll) (hsleep : t.phase ≠ .sleeping) : Advances s t :=
  ⟨hk, hedge, fun h => absurd h hwren, fun h => absurd h hpoll, fun h => absurd h hsleep⟩

theorem advances_checkLength {s : State} (h : s.phase = .check) : Advances s (checkLength s) := by
  unfold checkLength
  split
  · exact .of_edge (kept_raiseError ..) (by rw [h]; rfl) (by simp) (by simp) (by simp)
  · exact ⟨kept_enter .., by rw [h]; rfl, fun _ => by omega, by simp, by simp⟩

theorem advances_respond {s : State} (h : s.phase = .done) : Advances s s.respond :=
  .of_edge (kept_respond s) (by rw [h]; rfl) (by simp) (by simp) (by simp)

theorem advances_sleep {s : State} (c : PollClass) (h : s.phase = .sleeping) :
    Advances s (({ s with
      sleepScript := s.sleepScript.tail
      trace := s.trace ++ [Event.sleep (s.pollDelay.get c)] } : State).enter .poll) :=
  ⟨⟨rfl, rfl, rfl, rfl, rfl, rfl, rfl, rfl, rfl, rfl, id, fun hl => ⟨legal_append hl.1 rfl, hl.2⟩⟩,
    by rw [h]; rfl, by simp, fun _ => .inr ⟨h, rfl⟩, by simp⟩

/-- A phase that issues a wire command is one of six, and on its operation's path. -/
theorem wireAt_phase {s : State} {i : Instr} (h : wireAt s = some i) :
    onPath s.phase s.op = true ∧ s.phase ≠ .idle ∧ s.phase ≠ .check ∧ s.phase ≠ .sleeping ∧ s.phase ≠ .done := by
  unfold wireAt at h
  split at h <;> simp_all [onPath, pollClass]

theorem phaseEdge_done {p : Phase} {op : HostOp} (h1 : p ≠ .idle) (h2 : p ≠ .sleeping) (h3 : p ≠ .done) :
    phaseEdge p op .done = true := by
  cases p <;> first | contradiction | rfl

theorem afterWire_done {u : State} (h : u.phase = .done) : afterWire u = u := by
  rw [afterWire, h]

theorem afterWire_poll {u : State} {c : PollClass} (h : u.phase = .poll) (hc : pollClass u.op = some c) :
    afterWire u = afterPoll c u := by
  rw [afterWire, h]
  simp only [hc]

theorem advances_failed {s u : State} {i j : Instr} {tx : List Byte} {n : Nat} (hi : wireAt s = some i)
    (h : WireFailed j s tx n u) : Advances s (afterWire u) := by
  obtain ⟨-, hidle, -, hsleep, hdone⟩ := wireAt_phase hi
  obtain ⟨_, _, -, -, hu⟩ := wireFailed_trace h
  rw [afterWire_done hu]
  exact .of_edge (kept_wireFailed h) (hu ▸ phaseEdge_done hidle hsleep hdone) (by simp [hu]) (by simp [hu])
    (by simp [hu])

/-- A poll that went through: only where it goes to SLEEPING is there a bound to tell. -/
theorem advances_afterPoll {s u : State} {c : PollClass} (hp : s.phase = .poll) (hc : pollClass s.op = some c)
    (hk : Kept s u) (hcnt : u.pollCnt = s.pollCnt) : Advances s (afterPoll c u) := by
  have hk' := hk.trans (afterPoll_kept c u)
  rcases afterPoll_cases c u with ht | ht | ⟨ht, hne⟩ <;> rw [ht] at hk' ⊢
  · exact .of_edge hk' (by rw [hp]; rfl) (by simp) (by simp) (by simp)
  · exact .of_edge hk' (by rw [hp]; rfl) (by simp) (by simp) (by simp)
  · refine ⟨hk', by rw [hp]; rfl, by simp, by simp, fun _ => ⟨hp, by simp [hcnt], fun c' hc' => ?_⟩⟩
    obtain rfl := Option.some.inj (hc.symm.trans hc')
    rwa [← hk.maxPolls]

theorem advances_done {s u : State} {i j : Instr} {tx : List Byte} {n : Nat} (hi : wireAt s = some i)
    (h : WireDone j s tx n u) : Advances s (afterWire u) := by
  obtain ⟨hpath, hidle, hcheck, hsleep, hdone⟩ := wireAt_phase hi
  obtain ⟨-, -, -, hph, hcnt, -⟩ := wireDone_trace h
  have hk := kept_wireDone h
  have hk' := hk.trans (afterWire_kept u)
  cases hp : s.phase
  case poll =>
    rw [hp] at hpath hph
    obtain ⟨c, hc⟩ := Option.isSome_iff_exists.mp hpath
    rw [afterWire_poll hph (hk.op ▸ hc)]
    exact advances_afterPoll hp hc hk hcnt
  case action =>
    rw [afterWire, hph, hp] at hk' ⊢
    exact ⟨hk', by rw [hp]; rfl, by simp, by simp, by simp⟩
  case wren | xfer | rstArm | rstExec =>
    rw [afterWire, hph, hp] at hk' ⊢
    exact .of_edge hk' (by rw [hp]; rfl) (by simp) (by simp) (by simp)
  all_goals contradiction

/-- Every step from a phase other than IDLE goes along an edge of the path. -/
theorem step_advances {s t : State} (h : step s = .next t) (hp : s.phase ≠ .idle) : Advances s t := by
  rcases step_cases h hp with ⟨hph, rfl⟩ | ⟨hph, rfl⟩ | ⟨hph, c, -, rfl⟩ | ⟨i, tx, n, u, hi, -, hu, rfl⟩
  · exact advances_checkLength hph
  · exact advances_respond hph
  · exact advances_sleep c hph
  · rcases hu with hu | hu
    · exact advances_done hi hu
    · exact advances_failed hi hu

/-- What every step keeps: the device's invariant, its constants, the configuration, the legality of the frames. -/
theorem step_kept {s t : State} (h : step s = .next t) :
    t.maxPolls = s.maxPolls ∧ t.pollDelay = s.pollDelay ∧ t.dev.constants = s.dev.constants ∧
      (s.dev.inv → t.dev.inv) ∧ (FramesLegal s → FramesLegal t) := by
  by_cases hp : s.phase = .idle
  · rw [step_idle hp] at h
    rcases idleStep_cases h with ⟨-, rfl⟩ | ⟨rest, -, rfl⟩ | ⟨i, rest, hi, hexec⟩
    · have hk := kept_deviceTurn s
      exact ⟨hk.maxPolls, hk.pollDelay, hk.constants, hk.inv, hk.legal⟩
    · exact ⟨rfl, rfl, rfl, id, id⟩
    · obtain ⟨hk, -⟩ := kept_command hi hp hexec
      rw [accept_frame] at hk
      exact ⟨hk.maxPolls, hk.pollDelay, hk.constants, hk.inv, hk.legal⟩
  · have hk := (step_advances h hp).kept
    exact ⟨hk.maxPolls, hk.pollDelay, hk.constants, hk.inv, hk.legal⟩

end Sys2Proof.Machine

/-! ### The invariants (10_state.md R22, R25, R34; 40_wire_commands.md R135) -/

namespace Sys2Proof.Machine

/-- An edge of the paths leads from a phase on the operation's path to another one. -/
theorem onPath_of_phaseEdge {p q : Phase} {op : HostOp} (h : phaseEdge p op q = true) (hp : onPath p op = true)
    (hidle : p ≠ .idle) : onPath q op = true := by
  cases p <;> simp only [phaseEdge, decide_eq_true_eq] at h
  case idle => contradiction
  case check =>
    obtain rfl : op = .pageProgram := of_decide_eq_true hp
    rcases h with rfl | rfl <;> rfl
  case rstArm =>
    rcases h with rfl | rfl
    · exact hp
    · rfl
  case sleeping => subst h; exact hp
  case xfer => subst h; rfl
  case rstExec => subst h; rfl
  case done => subst h; rfl
  all_goals
    rcases h with rfl | rfl
    · exact hp
    · rfl

/-- An idle state meets the invariant where the device, the latches of a page_program and the poll bounds do. -/
theorem inv_idle {t : State} (hidle : t.phase = .idle) (hdev : t.dev.inv)
    (hlen : t.op = .pageProgram → t.len = t.txData.length) (hmax : ∀ c, 1 ≤ t.maxPolls.get c) : Inv t :=
  ⟨hdev, by rw [hidle]; rfl, by simp [hidle], hlen, by simp [hidle], hmax⟩

theorem inv_idleStep {s t : State} (hs : Inv s) (hp : s.phase = .idle) (h : idleStep s = .next t) : Inv t := by
  obtain ⟨hdev, -, -, hlen, -, hmax⟩ := hs
  rcases idleStep_cases h with ⟨-, rfl⟩ | ⟨rest, -, rfl⟩ | ⟨i, rest, hi, hexec⟩
  · exact inv_idle (by simpa using hp) (inv_deviceTurn hdev) (by simpa using hlen) (by simpa using hmax)
  · exact inv_idle hp hdev hlen hmax
  · obtain ⟨hk, hidle⟩ := kept_command hi hp hexec
    have hframe := accept_frame i { s with port := rest }
    refine inv_idle hidle (hk.inv (by rw [hframe]; exact hdev)) (fun hop => ?_) (fun c => ?_)
    · rw [hk.len, hk.txData]
      exact accept_len hi (hk.op ▸ hop)
    · rw [hk.maxPolls, hframe]
      exact hmax c

/-- A phase that runs along an edge keeps the invariant: POLLCNT starts at 0, which is below the bound, and goes to
SLEEPING only where it is not the bound yet; WREN is entered only by a length that fits. -/
theorem inv_advances {s t : State} (hs : Inv s) (hp : s.phase ≠ .idle) (h : Advances s t) : Inv t := by
  obtain ⟨hdev, hpath, hcnt, hlen, hfits, hmax⟩ := hs
  obtain ⟨hk, hedge, htfits, hpolls, hsleeps⟩ := h
  refine ⟨hk.inv hdev, by rw [hk.op]; exact onPath_of_phaseEdge hedge hpath hp, ?_, ?_, ?_, ?_⟩
  · rintro hph c hc
    rw [hk.op] at hc
    rw [hk.maxPolls]
    rcases hph with hph | hph
    · rcases hpolls hph with h0 | ⟨hsl, heq⟩
      · rw [h0]; exact hmax c
      · rw [heq]; exact hcnt (.inr hsl) c hc
    · obtain ⟨hpoll, heq, hne⟩ := hsleeps hph
      have hlt := hcnt (.inl hpoll) c hc
      have hne := hne c hc
      omega
  · rw [hk.op, hk.len, hk.txData]; exact hlen
  · rw [hk.op, hk.txData]
    rintro hop (hph | hph)
    · rw [← hlen hop]; exact htfits hph
    · refine hfits hop (.inl ?_)
      rw [hph] at hedge
      cases hs : s.phase <;> rw [hs] at hedge <;> first | rfl | cases hedge
  · rw [hk.maxPolls]; exact hmax

/-- Settles O14: an idle step ends idle, with the device's invariant kept and the latches of a command that agree; any
other step goes along an edge of the path. -/
theorem stepKeepsInvariant : Obligations.StepKeepsInvariant := by
  unfold Obligations.StepKeepsInvariant
  intro s t hs h
  by_cases hp : s.phase = .idle
  · exact inv_idleStep hs hp (step_idle hp ▸ h)
  · exact inv_advances hs hp (step_advances h hp)

/-- Settles O15: every part of a step keeps it, since the device takes, and so a transaction sends, only frames that
decode. -/
theorem stepKeepsFramesLegal : Obligations.StepKeepsFramesLegal := by
  unfold Obligations.StepKeepsFramesLegal
  intro s t hs h
  obtain ⟨-, -, -, -, hlegal⟩ := step_kept h
  exact hlegal hs

theorem idleStep_phase {s t : State} (hp : s.phase = .idle) (h : idleStep s = .next t) : t.phase = .idle := by
  rcases idleStep_cases h with ⟨-, rfl⟩ | ⟨rest, -, rfl⟩ | ⟨i, rest, hi, hexec⟩
  · simpa using hp
  · exact hp
  · exact (kept_command hi hp hexec).2

/-- Settles O16: an idle step ends idle, and any other step goes along an edge and keeps the latch OP. -/
theorem phasesFollowPaths : Obligations.PhasesFollowPaths := by
  unfold Obligations.PhasesFollowPaths
  intro s t h
  by_cases hp : s.phase = .idle
  · refine ⟨?_, fun hne => absurd hp hne⟩
    rw [hp, idleStep_phase hp (step_idle hp ▸ h)]
    rfl
  · have ha := step_advances h hp
    exact ⟨ha.edge, fun _ => ha.kept.op⟩

/-- The handles change in an idle step only by a release. -/
theorem idleStep_handles {s t : State} (hp : s.phase = .idle) (h : idleStep s = .next t) :
    (t.busHandle = s.busHandle ∧ t.delayHandle = s.delayHandle) ∨ s.port.head? = some .release := by
  rcases idleStep_cases h with ⟨-, rfl⟩ | ⟨rest, hport, rfl⟩ | ⟨i, rest, hi, hexec⟩
  · exact .inl ⟨deviceTurn_busHandle s, deviceTurn_delayHandle s⟩
  · exact .inr (by rw [hport]; rfl)
  · obtain ⟨hk, -⟩ := kept_command hi hp hexec
    rw [accept_frame] at hk
    exact .inl ⟨hk.busHandle, hk.delayHandle⟩

/-- Settles O18: no step writes the configuration or the constants; outside IDLE none writes a handle, and in IDLE only
the release does. -/
theorem configurationNeverWritten : Obligations.ConfigurationNeverWritten := by
  unfold Obligations.ConfigurationNeverWritten
  intro s t h
  obtain ⟨hmax, hdelay, hconst, -, -⟩ := step_kept h
  refine ⟨hmax, hdelay, hconst, fun hchanged => ?_⟩
  by_cases hp : s.phase = .idle
  · rcases idleStep_handles hp (step_idle hp ▸ h) with ⟨hbus, hdel⟩ | hrel
    · exact (hchanged.elim (· hbus) (· hdel)).elim
    · exact ⟨hp, hrel⟩
  · have hk := (step_advances h hp).kept
    exact (hchanged.elim (· hk.busHandle) (· hk.delayHandle)).elim

end Sys2Proof.Machine

/-! ### The dispatch of a step (30_encoding.md R103; 70_reset_and_hazards.md R302) -/

namespace Sys2Proof.Machine

/-- Settles O10: an idle step decodes the command at the head of the port. -/
theorem stepRunsPortCommand : Obligations.StepRunsPortCommand := by
  unfold Obligations.StepRunsPortCommand
  intro s c rest i hidle hport hc
  rw [step_idle hidle, idleStep_command hport hc]

/-- A phase that issues a wire command runs it, then moves on. -/
theorem step_wireAt {s : State} {i : Instr} (h : wireAt s = some i) : step s = wireStep s := by
  obtain ⟨-, hidle, hcheck, hsleep, hdone⟩ := wireAt_phase h
  unfold step
  split <;> first | contradiction | rfl

/-- Settles O11: the three outcomes of the wire command of the phase. -/
theorem stepRunsPhaseCommand : Obligations.StepRunsPhaseCommand := by
  unfold Obligations.StepRunsPhaseCommand
  intro s i hi
  have hstep := step_wireAt hi
  unfold wireStep at hstep
  rw [hi] at hstep
  refine ⟨fun t ht => ?_, fun e he => ?_, fun e he => ?_⟩
  · rw [hstep]; simp only [ht]
  · rw [hstep]; simp only [he]
  · rw [hstep]; simp only [he]

theorem idleStep_empty {s : State} (hport : s.port = []) : idleStep s = .next s.deviceTurn := by
  rw [idleStep, hport]

/-- Settles O13: with an empty port the step is the device's turn, which a device that is not busy does not take. -/
theorem idleStepIsSilent : Obligations.IdleStepIsSilent := by
  unfold Obligations.IdleStepIsSilent
  intro s hidle hport
  refine ⟨s.deviceTurn, by rw [step_idle hidle, idleStep_empty hport], ?_, deviceTurn_idle⟩
  conv_lhs => rw [deviceTurn_frame]

/-- The host operations are eight `operate`s. -/
theorem exec_hostOp {i : Instr} (hi : isHostOp i = true) (s : State) :
    ∃ body : State → Run Unit, exec i s = operate s (accept i) body := by
  cases i <;> simp [isHostOp, encode] at hi
  case opPageProgram => exact ⟨_, exec_opPageProgram ..⟩
  case opSoftwareReset => exact ⟨_, exec_opSoftwareReset s⟩
  all_goals exact ⟨_, rfl⟩

/-- A released sequencer refuses every host operation. -/
theorem exec_hostOp_released {i : Instr} {s : State} (hi : isHostOp i = true) (h : s.busHandle = .released) :
    exec i s = .refused .handleReleased := by
  obtain ⟨body, hexec⟩ := exec_hostOp hi s
  rw [hexec, operate, if_pos h]

/-- Settles O19: the release takes the port's head and the handles, and the operations refuse a released handle. -/
theorem releaseEndsTheSequencer : Obligations.ReleaseEndsTheSequencer := by
  unfold Obligations.ReleaseEndsTheSequencer
  refine ⟨fun s rest hidle hport => ?_, fun s i hi h => exec_hostOp_released hi h⟩
  rw [step_idle hidle, idleStep, hport]
  rfl

end Sys2Proof.Machine

/-! ### Commands held off (30_encoding.md R103) -/

namespace Sys2Proof.Machine

/-- What one of two related parts answers as an instruction the other answers too, in a related state. -/
theorem Run.related_outcome {α : Type} {ρ : State → State → Prop} {m m' : Run α} {t : State} (h : m.Related ρ m')
    (ht : m.outcome = .next t) : ∃ t', m'.outcome = .next t' ∧ ρ t t' := by
  cases m <;> cases m' <;> simp only [Run.Related] at h <;> simp only [Run.outcome, Host.Outcome.next.injEq,
    reduceCtorEq] at ht <;> subst ht
  case ret.ret => exact ⟨_, rfl, h.2⟩
  case raised.raised => exact ⟨_, rfl, h⟩

/-- The same state with other inputs waiting at the port. -/
def State.withPort (s : State) (p : List HostInput) : State := { s with port := p }

/-- A transaction reads no input, and its updates leave the port alone. -/
theorem parallel_withPort (p : List HostInput) : Parallel (fun s s' => s' = s.withPort p) where
  busHandle := by rintro s _ rfl; rfl
  busScript := by rintro s _ rfl; rfl
  dev := by rintro s _ rfl; rfl
  schedule := by rintro s _ rfl; rfl
  scheduleEnd := by rintro s _ rfl; rfl
  action := by rintro s _ rfl; rfl
  draws := by rintro s _ rfl; rfl
  logCall := by rintro s _ c rfl; rfl
  select := by
    rintro s _ b b' rfl h
    rw [h rfl]
    rfl
  deviceMoves := by rintro s _ d rfl; rfl
  reschedule := by rintro s _ l rfl; rfl
  record := by rintro s _ e rfl; rfl
  raiseError := by rintro s _ k rfl; rfl

/-- A wire command does the same whatever stands at the port. -/
theorem exec_wire_withPort {i : Instr} {s t : State} {tx : List Byte} {n : Nat} (he : encode i = .frame tx n)
    (h : exec i s = .next t) (p : List HostInput) : exec i (s.withPort p) = .next (t.withPort p) := by
  have hrel := (parallel_withPort p).wireRun i tx n (by rintro s _ rx rfl; rfl) (by rintro s _ rfl; rfl)
    (rfl : s.withPort p = s.withPort p)
  rw [exec_wire he] at h ⊢
  obtain ⟨_, ht', rfl, -⟩ := Run.related_outcome hrel h
  exact ht'

theorem afterPoll_ready {c : PollClass} {u : State} (h : isBusy u.status = false) :
    afterPoll c u = u.countPoll.succeed := if_pos h

theorem afterPoll_timeout {c : PollClass} {u : State} (h : ¬ isBusy u.status = false)
    (hlast : u.pollCnt + 1 = u.maxPolls.get c) : afterPoll c u = u.countPoll.raiseTimeout :=
  (if_neg h).trans (if_pos hlast)

theorem afterPoll_sleep {c : PollClass} {u : State} (h : ¬ isBusy u.status = false)
    (hlast : ¬ u.pollCnt + 1 = u.maxPolls.get c) : afterPoll c u = u.countPoll.enter .sleeping :=
  (if_neg h).trans (if_neg hlast)

theorem afterPoll_withPort (c : PollClass) (u : State) (p : List HostInput) :
    afterPoll c (u.withPort p) = (afterPoll c u).withPort p := by
  by_cases hready : isBusy u.status = false
  · rw [afterPoll_ready hready]; exact afterPoll_ready hready
  by_cases hlast : u.pollCnt + 1 = u.maxPolls.get c
  · rw [afterPoll_timeout hready hlast]; exact afterPoll_timeout hready hlast
  · rw [afterPoll_sleep hready hlast]; exact afterPoll_sleep hready hlast

theorem afterWire_withPort (u : State) (p : List HostInput) :
    afterWire (u.withPort p) = (afterWire u).withPort p := by
  unfold afterWire
  rw [show (u.withPort p).phase = u.phase from rfl, show (u.withPort p).op = u.op from rfl]
  cases u.phase <;> try rfl
  cases pollClass u.op
  · rfl
  · exact afterPoll_withPort _ u p

theorem sleepOnce_withPort {c : PollClass} {s u : State} (h : sleepOnce c s = .ret () u) (p : List HostInput) :
    sleepOnce c (s.withPort p) = .ret () (u.withPort p) := by
  unfold sleepOnce at h ⊢
  rw [show (s.withPort p).delayHandle = s.delayHandle from rfl,
    show (s.withPort p).sleepScript = s.sleepScript from rfl]
  split at h
  · cases h
  · rename_i hheld
    rw [if_neg hheld]
    cases hs : s.sleepScript.headD .returns <;> rw [hs] at h
    · cases h; rfl
    · cases h

/-- In phase SLEEPING the step is one Sleep. -/
theorem step_sleeping {s : State} {c : PollClass} (hp : s.phase = .sleeping) (hc : pollClass s.op = some c) :
    step s = ((sleepOnce c s).andThen (fun _ s => .ret () (s.enter .poll))).outcome := by
  unfold step
  simp only [hp, sleepPhase, hc]

/-- A wire phase answers a next state only where its wire command does. -/
theorem wireStep_next {s t : State} {i : Instr} (hi : wireAt s = some i) (h : wireStep s = .next t) :
    ∃ u, exec i s = .next u ∧ t = afterWire u := by
  unfold wireStep at h
  simp only [hi] at h
  split at h <;> cases h
  exact ⟨_, by assumption, rfl⟩

theorem wireStep_of_next {s u : State} {i : Instr} (hi : wireAt s = some i) (h : exec i s = .next u) :
    wireStep s = .next (afterWire u) := by
  unfold wireStep
  simp only [hi, h]

/-- A step from a phase other than IDLE does the same whatever stands at the port. -/
theorem step_withPort {s t : State} (hp : s.phase ≠ .idle) (h : step s = .next t) (p : List HostInput) :
    step (s.withPort p) = .next (t.withPort p) := by
  rcases step_cases h hp with ⟨hph, rfl⟩ | ⟨hph, rfl⟩ | ⟨hph, c, hc, -⟩ | ⟨i, tx, n, -, hi, he, -, -⟩
  · unfold step
    rw [show (s.withPort p).phase = .check from hph]
    refine congrArg Host.Outcome.next ?_
    unfold checkLength
    rw [show (s.withPort p).len = s.len from rfl]
    split <;> rfl
  · unfold step
    rw [show (s.withPort p).phase = .done from hph]
    rfl
  · rw [step_sleeping hph hc] at h
    rw [step_sleeping (s := s.withPort p) hph hc]
    cases hsl : sleepOnce c s <;> rw [hsl] at h <;> cases h
    · rw [sleepOnce_withPort hsl p]; rfl
    · exact (hsl ▸ sleepOnce_meets c s : Run.Meets (.raised _) _ _).elim
  · rw [step_wireAt hi] at h
    rw [step_wireAt (s := s.withPort p) hi]
    obtain ⟨u, hu, rfl⟩ := wireStep_next hi h
    rw [wireStep_of_next (s := s.withPort p) hi (exec_wire_withPort he hu p), afterWire_withPort]

/-- Settles O12: no part of a step reads the port outside IDLE, and an operation presented there is held off. -/
theorem commandsHeldOff : Obligations.CommandsHeldOff := by
  unfold Obligations.CommandsHeldOff
  refine ⟨fun s t hp h => ⟨(step_advances h hp).kept.port, step_withPort hp h⟩, fun s i hi hb hp => ?_⟩
  obtain ⟨body, hexec⟩ := exec_hostOp hi s
  rw [hexec, operate_held_off hb hp]

end Sys2Proof.Machine

/-! ### A host operation is its phases (10_state.md R22; 41_subprotocols.md R163) -/

namespace Sys2Proof.Machine

/-- A run whose first step answers a next state goes on from it. -/
theorem core_run_next {M : Host.Core} {s t : M.State} (h : M.step s = .next t) (m : Nat) :
    M.run (m + 1) s = M.run m t := by
  simp only [Host.Core.run, h]

theorem core_run_fault {M : Host.Core} {s : M.State} {e : M.Fault} (h : M.step s = .fault e) (m : Nat) :
    M.run (m + 1) s = .fault e := by
  simp only [Host.Core.run, h]

theorem core_run_refused {M : Host.Core} {s : M.State} {e : M.Refusal} (h : M.step s = .refused e) (m : Nat) :
    M.run (m + 1) s = .refused e := by
  simp only [Host.Core.run, h]

/-- Some number of steps from `s` answers `o`. -/
def Reaches (s : State) (o : Host.Outcome State Fault Refusal) : Prop := ∃ m, core.run m s = o

theorem Reaches.step_next {s t : State} {o : Host.Outcome State Fault Refusal} (h : step s = .next t)
    (ht : Reaches t o) : Reaches s o := by
  obtain ⟨m, hm⟩ := ht
  exact ⟨m + 1, (core_run_next (M := core) h m).trans hm⟩

theorem reaches_fault {s : State} {e : Fault} (h : step s = .fault e) : Reaches s (.fault e) :=
  ⟨1, core_run_fault (M := core) h 0⟩

theorem reaches_refused {s : State} {e : Refusal} (h : step s = .refused e) : Reaches s (.refused e) :=
  ⟨1, core_run_refused (M := core) h 0⟩

/-- From DONE the response is one step. -/
theorem reaches_respond {s : State} (h : s.phase = .done) : Reaches s (.next s.respond) :=
  .step_next (by rw [step, h]) ⟨0, rfl⟩

/-- A wire command issued by the phase, then the rest of the rule: it is enough to go on from the phase after it. -/
theorem reaches_wire {s : State} {i : Instr} {tx : List Byte} {n : Nat} {f : Unit → State → Run Unit}
    (hi : wireAt s = some i) (he : encode i = .frame tx n)
    (hf : ∀ u, WireDone i s tx n u → Reaches (afterWire u) (f () u).finishOperation) :
    Reaches s ((wireRun i tx n s).andThen f).finishOperation := by
  have hstep := step_wireAt hi
  unfold wireStep at hstep
  simp only [hi, exec_wire he] at hstep
  have hm := wireRun_meets i tx n s
  cases hr : wireRun i tx n s with
  | ret _ u =>
    rw [hr] at hstep hm
    exact .step_next hstep (hf u hm)
  | raised u =>
    rw [hr] at hstep hm
    obtain ⟨_, _, -, -, hdone⟩ := wireFailed_trace hm
    simp only [Run.outcome, afterWire_done hdone] at hstep
    exact .step_next hstep (reaches_respond hdone)
  | stuck e =>
    rw [hr] at hstep
    exact reaches_fault hstep
  | refused e =>
    rw [hr] at hstep
    exact reaches_refused hstep

/-- The last wire command of a rule. -/
theorem reaches_last_wire {s : State} {i : Instr} {tx : List Byte} {n : Nat} (hi : wireAt s = some i)
    (he : encode i = .frame tx n) (hlast : ∀ u : State, u.phase = s.phase → afterWire u = u.succeed) :
    Reaches s (wireRun i tx n s).finishOperation := by
  have h := reaches_wire (f := fun _ u => .ret () u) hi he (fun u hu => ?_)
  · cases hr : wireRun i tx n s <;> rw [hr] at h <;> exact h
  · obtain ⟨-, -, -, hph, -⟩ := wireDone_trace hu
    rw [hlast u hph]
    exact reaches_respond rfl

/-- A Sleep of phase SLEEPING, then the rest of the rule. -/
theorem reaches_sleep {s : State} {c : PollClass} {f : Unit → State → Run Unit} (hp : s.phase = .sleeping)
    (hc : pollClass s.op = some c)
    (hf : ∀ u, sleepOnce c s = .ret () u → Reaches (u.enter .poll) (f () u).finishOperation) :
    Reaches s ((sleepOnce c s).andThen f).finishOperation := by
  have hstep := step_sleeping hp hc
  have hm := sleepOnce_meets c s
  cases hr : sleepOnce c s with
  | ret _ u =>
    rw [hr] at hstep
    exact .step_next hstep (hf u hr)
  | raised u => exact (hr ▸ hm : Run.Meets (.raised u) _ _).elim
  | stuck e =>
    rw [hr] at hstep
    exact reaches_fault hstep
  | refused e =>
    rw [hr] at hstep
    exact reaches_refused hstep

/-- In a mutating operation the phase POLL reads the status. -/
theorem wireAt_poll {s : State} {c : PollClass} (hp : s.phase = .poll) (hc : pollClass s.op = some c) :
    wireAt s = some .readStatus := by
  unfold wireAt
  rw [hp]
  cases hop : s.op <;> rw [hop] at hc <;> first | rfl | cases hc

/-- The busy-wait is its phases POLL and SLEEPING, round by round. -/
theorem reaches_pollLoop {c : PollClass} {fuel : Nat} {s : State} (hp : s.phase = .poll)
    (hc : pollClass s.op = some c) (hcnt : s.pollCnt + fuel = s.maxPolls.get c) (hf : 1 ≤ fuel) :
    Reaches s (pollLoop c fuel s).finishOperation := by
  induction fuel generalizing s with
  | zero => omega
  | succ fuel ih =>
    rw [pollLoop_succ]
    refine reaches_wire (wireAt_poll hp hc) rfl (fun u hu => ?_)
    have hk := kept_wireDone hu
    obtain ⟨-, -, -, hph, hpc, -⟩ := wireDone_trace hu
    rw [afterWire_poll (hph.trans hp) (hk.op ▸ hc)]
    by_cases hready : isBusy u.status = false
    · rw [if_pos hready, afterPoll_ready hready]
      exact reaches_respond rfl
    by_cases hlast : u.pollCnt + 1 = u.maxPolls.get c
    · rw [if_neg hready, if_pos hlast, afterPoll_timeout hready hlast]
      exact reaches_respond rfl
    · rw [if_neg hready, if_neg hlast, afterPoll_sleep hready hlast]
      refine reaches_sleep rfl (hk.op ▸ hc) (fun v hv => ?_)
      have hslept := sleepOnce_meets c (u.countPoll.enter .sleeping)
      rw [hv] at hslept
      obtain rfl : v = _ := hslept
      rw [hpc, hk.maxPolls] at hlast
      exact ih rfl (hk.op ▸ hc) (by simp [hpc, hk.maxPolls]; omega) (by omega)

/-- The mutating template is its phases WREN, ACTION and the wait. -/
theorem reaches_mutate {i : Instr} {tx : List Byte} {c : PollClass} {s : State} (he : encode i = .frame tx 0)
    (hf : fillsBuffer i = false) (hi : i ≠ .readStatus) (hc : pollClass s.op = some c)
    (hwren : wireAt s = some .writeEnable) (hp : s.phase = .wren)
    (haction : ∀ u, Kept s u → wireAt (u.enter .action) = some i) (hmax : 1 ≤ s.maxPolls.get c) :
    Reaches s (mutate c (txnSend i) s).finishOperation := by
  rw [mutate_wire he hf hi]
  refine reaches_wire hwren rfl (fun u hu => ?_)
  have hk := kept_wireDone hu
  obtain ⟨-, -, -, hph, -⟩ := wireDone_trace hu
  rw [show afterWire u = u.enter .action by rw [afterWire, hph, hp]]
  refine reaches_wire (haction u hk) he (fun v hv => ?_)
  have hk' := hk.trans ((kept_enter u .action).trans (kept_wireDone hv))
  obtain ⟨-, -, -, hph', -⟩ := wireDone_trace hv
  rw [show afterWire v = v.enterPoll by rw [afterWire, hph']; rfl]
  have hm := hk'.maxPolls
  exact reaches_pollLoop rfl (hk'.op ▸ hc) (by simp) (by rw [hm]; exact hmax)

/-- The operation accepted by a ready sequencer reaches what `exec` answers. -/
theorem reaches_exec {i : Instr} {s : State} (hi : isHostOp i = true) (hs : s.ready)
    (hmax : ∀ c, 1 ≤ s.maxPolls.get c) : Reaches (accept i s) (exec i s) := by
  obtain ⟨⟨hb, -⟩, hidle⟩ := hs
  cases i <;> simp [isHostOp, encode] at hi
  case opRead a n =>
    rw [exec_opRead, operate_ready hb hidle]
    exact reaches_last_wire rfl rfl (fun u hu => by rw [afterWire, hu]; rfl)
  case opPageProgram a data =>
    rw [exec_opPageProgram, operate_ready hb hidle]
    have hstep : step (latchPageProgram a data s) = .next (checkLength (latchPageProgram a data s)) := rfl
    refine .step_next hstep ?_
    rw [checkLength, show (latchPageProgram a data s).len = data.length from rfl]
    by_cases hlong : Config.pageSize < data.length
    · rw [if_pos hlong, if_pos hlong]
      exact reaches_respond rfl
    · rw [if_neg hlong, if_neg hlong]
      refine reaches_mutate rfl rfl (by simp) rfl rfl rfl (fun u hk => ?_) (hmax .pp)
      simp only [wireAt, State.enter_phase, State.enter_op, State.enter_addr, State.enter_txData, hk.op, hk.addr,
        hk.txData]
      rfl
  case opSectorErase a =>
    rw [exec_opSectorErase, operate_ready hb hidle]
    refine reaches_mutate rfl rfl (by simp) rfl rfl rfl (fun u hk => ?_) (hmax .se)
    simp only [wireAt, State.enter_phase, State.enter_op, State.enter_addr, hk.op, hk.addr]
    rfl
  case opChipErase =>
    rw [exec_opChipErase, operate_ready hb hidle]
    refine reaches_mutate rfl rfl (by simp) rfl rfl rfl (fun u hk => ?_) (hmax .ce)
    simp only [wireAt, State.enter_phase, State.enter_op, hk.op]
    rfl
  case opSoftwareReset =>
    rw [exec_opSoftwareReset, operate_ready hb hidle]
    refine reaches_wire rfl rfl (fun u hu => ?_)
    obtain ⟨-, -, -, hph, -⟩ := wireDone_trace hu
    rw [show afterWire u = u.enter .rstExec by rw [afterWire, hph]; rfl]
    have hop : u.op = .softwareReset := (kept_wireDone hu).op
    refine reaches_last_wire ?_ rfl (fun v hv => by rw [afterWire, hv]; rfl)
    simp only [wireAt, State.enter_phase, State.enter_op, hop]
  case opWriteEnable =>
    rw [exec_opWriteEnable, operate_ready hb hidle]
    exact reaches_last_wire rfl rfl (fun u hu => by rw [afterWire, hu]; rfl)
  case opReadManufacturerId =>
    rw [exec_opReadManufacturerId, operate_ready hb hidle]
    exact reaches_last_wire rfl rfl (fun u hu => by rw [afterWire, hu]; rfl)
  case opReadJedecId =>
    rw [exec_opReadJedecId, operate_ready hb hidle]
    exact reaches_last_wire rfl rfl (fun u hu => by rw [afterWire, hu]; rfl)

/-- Settles O17: each part of the operation's rule is the step of its phase, and each ends where the next begins. -/
theorem operationIsItsPhases : Obligations.OperationIsItsPhases := by
  unfold Obligations.OperationIsItsPhases
  intro i s hi hs hmax
  exact reaches_exec hi hs hmax

end Sys2Proof.Machine

/-! ### Every host operation responds (41_subprotocols.md R162; 70_reset_and_hazards.md R322) -/

namespace Sys2Proof.Machine

/-- The rule of every host operation ends where nothing hangs and the poll bound of its class, if it has one, is
positive. -/
theorem hostOp_ends {i : Instr} {s : State} (hi : isHostOp i = true) (hs : s.ready) (hn : s.nothingHangs)
    (hmax : ∀ c, pollClass (accept i s).op = some c → 1 ≤ s.maxPolls.get c) : ∃ t, exec i s = .next t := by
  obtain ⟨⟨hb, hd⟩, hidle⟩ := hs
  have finish : ∀ {latch : State → State} {body : State → Run Unit}, exec i s = operate s latch body →
      (body (latch s)).Ends → ∃ t, exec i s = .next t := by
    intro latch body hexec hends
    rw [hexec, operate_ready hb hidle]
    cases hr : body (latch s) <;> rw [hr] at hends <;> first | exact ⟨_, rfl⟩ | exact hends.elim
  cases i <;> simp [isHostOp, encode] at hi
  case opRead a n => exact finish (exec_opRead ..) (wireRun_ends rfl rfl hb hn.1)
  case opPageProgram a data =>
    refine finish (exec_opPageProgram ..) ?_
    split
    · trivial
    · exact mutate_ends (decide_eq_true (by omega)) rfl rfl (by simp) ⟨hb, hd⟩ hn (hmax .pp rfl)
  case opSectorErase a =>
    exact finish (exec_opSectorErase ..) (mutate_ends rfl rfl rfl (by simp) ⟨hb, hd⟩ hn (hmax .se rfl))
  case opChipErase =>
    exact finish (exec_opChipErase s) (mutate_ends rfl rfl rfl (by simp) ⟨hb, hd⟩ hn (hmax .ce rfl))
  case opSoftwareReset =>
    refine finish (exec_opSoftwareReset s) (Run.ends_andThen (R := fun _ => True) (wireRun_ends rfl rfl hb hn.1) ?_)
    refine (wireRun_nothingHangs _ _ _ (s := latchSoftwareReset s) hn).mono (fun _ t ht => ?_) (fun _ _ => trivial)
    exact wireRun_ends rfl rfl (ht.1.busHandle.trans hb) ht.2.1
  case opWriteEnable => exact finish (exec_opWriteEnable s) (wireRun_ends rfl rfl hb hn.1)
  case opReadManufacturerId => exact finish (exec_opReadManufacturerId s) (wireRun_ends rfl rfl hb hn.1)
  case opReadJedecId => exact finish (exec_opReadJedecId s) (wireRun_ends rfl rfl hb hn.1)

/-- Settles O51: the rule ends, and the response to what it ends in leaves the sequencer idle. -/
theorem everyOperationResponds : Obligations.EveryOperationResponds := by
  unfold Obligations.EveryOperationResponds
  intro i s hi hs hn hmax
  obtain ⟨t, ht⟩ := hostOp_ends hi hs hn (fun c _ => hmax c)
  exact ⟨t, ht, (hostOp_kept hi hs.2 ht).2⟩

end Sys2Proof.Machine

/-! ### The traces of every operation (41_subprotocols.md R165; 42_read.md R171; 44_reset_write_enable.md R201, R206) -/

namespace Sys2Proof.Machine

/-- The response `t` of an operation that began in `s`: its events are a trace of `T` with its result, then the
response. -/
def RespondsIn (T : List Event → Result → Prop) (s t : State) : Prop :=
  ∃ ev, t.trace = s.trace ++ ev ++ [.rsp t.result] ∧ T ev t.result

/-- The traces of software_reset (44_reset_write_enable.md R201). -/
def ResetTrace (ev : List Event) (r : Result) : Prop :=
  (ev = [.txn [0x66#8] [], .txn [0x99#8] []] ∧ r = .ok []) ∨
  (∃ stage e, ev = [.txnFail stage e] ∧ r = .busError e) ∨
  (∃ stage e, ev = [.txn [0x66#8] [], .txnFail stage e] ∧ r = .busError e)

/-- The traces of page_program (43_program_erase.md R180, R181): its length check first. -/
def PageProgramTrace (a : Addr) (data : List Byte) (m us : Nat) (ev : List Event) (r : Result) : Prop :=
  if Config.pageSize < data.length then ev = [] ∧ r = .invalidLength
  else MutateTrace (0x02#8 :: (addr3 a ++ data)) m us ev r

/-- The traces of a host operation with the bounds `m` and the delays `us`; a wire command is none. -/
def OperationTrace (m us : PerClass) : Instr → List Event → Result → Prop
  | .opRead a n => OneTxnTrace (0x03#8 :: addr3 a) n id
  | .opPageProgram a data => PageProgramTrace a data m.pp us.pp
  | .opSectorErase a => MutateTrace (0x20#8 :: addr3 a) m.se us.se
  | .opChipErase => MutateTrace [0xC7#8] m.ce us.ce
  | .opSoftwareReset => ResetTrace
  | .opWriteEnable => OneTxnTrace [0x06#8] 0 (fun _ => [])
  | .opReadManufacturerId => OneTxnTrace [0x90#8, 0x00#8, 0x00#8, 0x00#8] 2 id
  | .opReadJedecId => OneTxnTrace [0x9F#8] 3 id
  | _ => fun _ _ => False

/-- A part of an operation that raised. -/
theorem RespondsIn.of_raised {T : List Event → Result → Prop} {s u : State} {ev : List Event}
    (htrace : u.trace = s.trace ++ ev) (h : T ev u.result) : RespondsIn T s u.respond :=
  ⟨ev, by simp [htrace], h⟩

/-- The rule of an operation that went through. -/
theorem RespondsIn.of_succeed {T : List Event → Result → Prop} {s u : State} {ev : List Event}
    (htrace : u.trace = s.trace ++ ev) (h : T ev (.ok (okPayload u.op u.rxData))) :
    RespondsIn T s u.succeed.respond :=
  ⟨ev, by simp [htrace], h⟩

/-- One wire command as the whole rule of an operation: its payload is the buffer it filled, or nothing. -/
theorem wireRun_respondsIn {i : Instr} {s : State} {payload : List Byte → List Byte} (tx : List Byte) (n : Nat)
    (hpay : okPayload s.op = payload) (hbuf : fillsBuffer i = true ∨ ∀ x y, payload x = payload y) :
    (wireRun i tx n s).Meets (fun _ u => RespondsIn (OneTxnTrace tx n payload) s u.succeed.respond)
      (fun u => RespondsIn (OneTxnTrace tx n payload) s u.respond) := by
  refine (wireRun_trace i tx n s).mono (fun _ u hdone => ?_) (fun u hfailed => ?_)
  · obtain ⟨hk, rx, hlen, htrace, -, -, -, hrx⟩ := hdone
    refine .of_succeed htrace (.inl ⟨rx, hlen, rfl, ?_⟩)
    rw [hk.op, hpay]
    exact congrArg Result.ok (hbuf.elim (fun h => by rw [hrx h]) (fun h => h _ _))
  · obtain ⟨-, stage, e, htrace, hresult, -⟩ := hfailed
    exact .of_raised htrace (.inr ⟨stage, e, rfl, hresult⟩)

/-- The mutating template as the rule of a mutating operation. -/
theorem mutate_respondsIn {i : Instr} {tx : List Byte} {s : State} (he : encode i = .frame tx 0)
    (hf : fillsBuffer i = false) (hi : i ≠ .readStatus) (c : PollClass) (hop : ∀ rx, okPayload s.op rx = []) :
    (mutate c (txnSend i) s).Meets
      (fun _ u => RespondsIn (MutateTrace tx (s.maxPolls.get c) (s.pollDelay.get c)) s u.succeed.respond)
      (fun u => RespondsIn (MutateTrace tx (s.maxPolls.get c) (s.pollDelay.get c)) s u.respond) := by
  refine ((mutate_kept he hf hi c s).and (mutate_trace he hf hi c s)).mono (fun _ u h => ?_) (fun u h => ?_)
  · obtain ⟨hk, ev, htrace, hrow⟩ := h
    exact .of_succeed htrace (by rw [hk.op, hop]; exact hrow)
  · obtain ⟨-, ev, htrace, hrow⟩ := h
    exact .of_raised htrace hrow

/-- EnableReset, then Reset, as the rule of software_reset. -/
theorem reset_respondsIn {s : State} (hop : s.op = .softwareReset) :
    ((wireRun .enableReset [0x66#8] 0 s).andThen fun _ s => wireRun .reset [0x99#8] 0 (s.enter .rstExec)).Meets
      (fun _ u => RespondsIn ResetTrace s u.succeed.respond) (fun u => RespondsIn ResetTrace s u.respond) := by
  rw [Run.meets_andThen]
  refine (wireRun_trace _ _ _ s).mono (fun _ u harmed => ?_) (fun u hfailed => ?_)
  · obtain ⟨hk, rx, hlen, htrace, -⟩ := harmed
    obtain rfl := List.length_eq_zero_iff.mp hlen
    refine (wireRun_trace _ _ _ _).mono (fun _ v hdone => ?_) (fun v hfailed => ?_)
    · obtain ⟨hk', rx, hlen, htrace', -⟩ := hdone
      obtain rfl := List.length_eq_zero_iff.mp hlen
      refine .of_succeed (ev := [.txn [0x66#8] [], .txn [0x99#8] []]) (by simp [htrace', htrace]) (.inl ⟨rfl, ?_⟩)
      rw [hk'.op, State.enter_op, hk.op, hop]
      rfl
    · obtain ⟨-, stage, e, htrace', hresult, -⟩ := hfailed
      exact .of_raised (ev := [.txn [0x66#8] [], .txnFail stage e]) (by simp [htrace', htrace])
        (.inr (.inr ⟨stage, e, rfl, hresult⟩))
  · obtain ⟨-, stage, e, htrace, hresult, -⟩ := hfailed
    exact .of_raised htrace (.inr (.inl ⟨stage, e, rfl, hresult⟩))

/-- Every host operation that answers gives one of its traces. -/
theorem hostOp_respondsIn {i : Instr} {s t : State} (hi : isHostOp i = true) (hidle : s.phase = .idle)
    (h : exec i s = .next t) : RespondsIn (OperationTrace s.maxPolls s.pollDelay i) s t := by
  have finish : ∀ {latch : State → State} {body : State → Run Unit} {T : List Event → Result → Prop},
      operate s latch body = .next t → (latch s).trace = s.trace →
      (body (latch s)).Meets (fun _ u => RespondsIn T (latch s) u.succeed.respond)
        (fun u => RespondsIn T (latch s) u.respond) → RespondsIn T s t := by
    intro latch body T hexec htrace hbody
    obtain ⟨ev, hev, hT⟩ := Run.meets_finish (Q := RespondsIn T (latch s)) hbody (operate_next hexec hidle).2
    exact ⟨ev, htrace ▸ hev, hT⟩
  cases i <;> simp [isHostOp, encode] at hi
  case opRead a n =>
    rw [exec_opRead] at h
    exact finish h rfl (wireRun_respondsIn _ _ rfl (.inl rfl))
  case opPageProgram a data =>
    rw [exec_opPageProgram] at h
    refine finish h rfl ?_
    split
    · rename_i hlong
      exact RespondsIn.of_raised (ev := []) (by simp) ((if_pos hlong).mpr ⟨rfl, rfl⟩)
    · rename_i hfits
      refine (mutate_respondsIn (s := (latchPageProgram a data s).enter .wren) rfl rfl (by simp) .pp
        (fun _ => rfl)).mono (fun _ u hu => ?_) (fun u hu => ?_)
      all_goals
        obtain ⟨ev, hev, hT⟩ := hu
        exact ⟨ev, hev, (if_neg hfits).mpr hT⟩
  case opSectorErase a =>
    rw [exec_opSectorErase] at h
    exact finish h rfl (mutate_respondsIn rfl rfl (by simp) .se (fun _ => rfl))
  case opChipErase =>
    rw [exec_opChipErase] at h
    exact finish h rfl (mutate_respondsIn rfl rfl (by simp) .ce (fun _ => rfl))
  case opSoftwareReset =>
    rw [exec_opSoftwareReset] at h
    exact finish h rfl (reset_respondsIn rfl)
  case opWriteEnable =>
    rw [exec_opWriteEnable] at h
    exact finish h rfl (wireRun_respondsIn _ _ rfl (.inr fun _ _ => rfl))
  case opReadManufacturerId =>
    rw [exec_opReadManufacturerId] at h
    exact finish h rfl (wireRun_respondsIn _ _ rfl (.inl rfl))
  case opReadJedecId =>
    rw [exec_opReadJedecId] at h
    exact finish h rfl (wireRun_respondsIn _ _ rfl (.inl rfl))

/-- Where nothing hangs a host operation answers, with one of its traces, and is idle again. -/
theorem hostOp_answers {i : Instr} {s : State} (hi : isHostOp i = true) (hs : s.ready) (hn : s.nothingHangs)
    (hmax : ∀ c, pollClass (accept i s).op = some c → 1 ≤ s.maxPolls.get c) :
    ∃ t ev, exec i s = .next t ∧ t.trace = s.trace ++ ev ++ [.rsp t.result] ∧ t.phase = .idle ∧
      OperationTrace s.maxPolls s.pollDelay i ev t.result := by
  obtain ⟨t, ht⟩ := hostOp_ends hi hs hn hmax
  obtain ⟨ev, htrace, hT⟩ := hostOp_respondsIn hi hs.2 ht
  exact ⟨t, ev, ht, htrace, (hostOp_kept hi hs.2 ht).2, hT⟩

end Sys2Proof.Machine

/-! #### The traces of the single operations -/

namespace Sys2Proof.Machine

/-- An operation of one wire command goes from its phase through DONE to IDLE. -/
theorem operate_wireRun_path {i : Instr} {s t : State} {latch : State → State} {tx : List Byte} {n : Nat}
    (hidle : s.phase = .idle) (h : operate s latch (wireRun i tx n) = .next t) :
    t.path = (latch s).path ++ [.done, .idle] :=
  Run.meets_finish (Q := fun t => t.path = (latch s).path ++ [.done, .idle]) (wireRun_path i tx n _)
    (operate_next h hidle).2

/-- Settles O38: both are operations of one wire command, which end because nothing hangs. -/
theorem singleTransactionTraces : Obligations.SingleTransactionTraces := by
  unfold Obligations.SingleTransactionTraces
  intro s hs hn
  refine ⟨?_, ?_⟩
  · obtain ⟨t, ev, hexec, htrace, -, hone⟩ := hostOp_answers (i := .opWriteEnable) rfl hs hn (fun _ h => nomatch h)
    refine ⟨t, ev, hexec, htrace, ?_, hone⟩
    rw [exec_opWriteEnable] at hexec
    simp [operate_wireRun_path hs.2 hexec, latchWriteEnable]
  · obtain ⟨t, ev, hexec, htrace, -, hone⟩ :=
      hostOp_answers (i := .opReadManufacturerId) rfl hs hn (fun _ h => nomatch h)
    refine ⟨t, ev, hexec, htrace, ?_, hone⟩
    rw [exec_opReadManufacturerId] at hexec
    simp [operate_wireRun_path hs.2 hexec, latchReadManufacturerId]

/-- Settles O41: the traces of its rule, which ends because nothing hangs. -/
theorem softwareResetTraces : Obligations.SoftwareResetTraces := by
  unfold Obligations.SoftwareResetTraces
  intro s hs hn
  exact hostOp_answers (i := .opSoftwareReset) rfl hs hn (fun _ h => nomatch h)

/-- Settles O43: the three operations run the one template, page_program once its data has passed the length check. -/
theorem mutatingTraces : Obligations.MutatingTraces := by
  unfold Obligations.MutatingTraces
  intro s hs hn hmax
  refine ⟨fun a data hfits => ?_, fun a => ?_, ?_⟩
  · obtain ⟨t, ev, hexec, htrace, hphase, hrow⟩ :=
      hostOp_answers (i := .opPageProgram a data) rfl hs hn (fun c _ => hmax c)
    exact ⟨t, ev, hexec, htrace, hphase, (if_neg (Nat.not_lt.mpr hfits)).mp hrow⟩
  · exact hostOp_answers (i := .opSectorErase a) rfl hs hn (fun c _ => hmax c)
  · exact hostOp_answers (i := .opChipErase) rfl hs hn (fun c _ => hmax c)

end Sys2Proof.Machine

/-! ### One response (60_exceptions.md R260, R264, R266) -/

namespace Sys2Proof.Machine

/-- None of the events is a response, and at most `k` are transactions. -/
def EventsBounded (ev : List Event) (k : Nat) : Prop :=
  (∀ e ∈ ev, isResponse e = false) ∧ ev.countP isTransaction ≤ k

theorem eventsBounded_txn (tx rx : List Byte) : EventsBounded [.txn tx rx] 1 := by
  simp [EventsBounded, isResponse, isTransaction]

theorem eventsBounded_txnFail (stage : Stage) (e : BusErr) : EventsBounded [.txnFail stage e] 1 := by
  simp [EventsBounded, isResponse, isTransaction]

theorem EventsBounded.append {a b : List Event} {k m : Nat} (ha : EventsBounded a k) (hb : EventsBounded b m) :
    EventsBounded (a ++ b) (k + m) := by
  refine ⟨fun e he => (List.mem_append.mp he).elim (ha.1 e) (hb.1 e), ?_⟩
  rw [List.countP_append]
  exact Nat.add_le_add ha.2 hb.2

theorem EventsBounded.mono {ev : List Event} {k m : Nat} (h : EventsBounded ev k) (hk : k ≤ m) : EventsBounded ev m :=
  ⟨h.1, h.2.trans hk⟩

theorem countP_busyPolls (us : Nat) (bs : List Byte) : (busyPolls us bs).countP isTransaction = bs.length := by
  induction bs with
  | nil => rfl
  | cons b bs ih =>
    have hcons : busyPolls us (b :: bs) = .txn [0x05#8] [b] :: .sleep us :: busyPolls us bs := rfl
    rw [hcons, List.countP_cons_of_pos rfl, List.countP_cons_of_neg (by simp [isTransaction]), ih, List.length_cons]

theorem eventsBounded_busyPolls (us : Nat) (bs : List Byte) : EventsBounded (busyPolls us bs) bs.length := by
  refine ⟨fun e he => ?_, (countP_busyPolls us bs).le⟩
  obtain ⟨b, -, hb⟩ := List.mem_flatMap.mp he
  simp only [List.mem_cons, List.not_mem_nil, or_false] at hb
  rcases hb with rfl | rfl <;> rfl

theorem OneTxnTrace.bounded {tx : List Byte} {n : Nat} {payload : List Byte → List Byte} {ev : List Event} {r : Result}
    (h : OneTxnTrace tx n payload ev r) : EventsBounded ev 2 := by
  rcases h with ⟨rx, -, rfl, -⟩ | ⟨stage, e, rfl, -⟩
  · exact (eventsBounded_txn tx rx).mono (by omega)
  · exact (eventsBounded_txnFail stage e).mono (by omega)

theorem ResetTrace.bounded {ev : List Event} {r : Result} (h : ResetTrace ev r) : EventsBounded ev 2 := by
  rcases h with ⟨rfl, -⟩ | ⟨stage, e, rfl, -⟩ | ⟨stage, e, rfl, -⟩
  · exact (eventsBounded_txn _ _).append (eventsBounded_txn _ _)
  · exact (eventsBounded_txnFail stage e).mono (by omega)
  · exact (eventsBounded_txn _ _).append (eventsBounded_txnFail stage e)

/-- The two transactions before the wait, and at most `m` polls. -/
theorem MutateTrace.bounded {tx : List Byte} {m us : Nat} {ev : List Event} {r : Result}
    (h : MutateTrace tx m us ev r) : EventsBounded ev (2 + m) := by
  have polled (bs : List Byte) : EventsBounded ([.txn [0x06#8] [], .txn tx []] ++ busyPolls us bs) (2 + bs.length) :=
    ((eventsBounded_txn _ _).append (eventsBounded_txn tx [])).append (eventsBounded_busyPolls us bs)
  rcases h with ⟨stage, e, rfl, -⟩ | ⟨stage, e, rfl, -⟩ | ⟨bs, i, -, -, hlen, rfl, -⟩ |
    ⟨bs, stage, e, -, hlen, rfl, -⟩ | ⟨bs, b, -, -, hlen, rfl, -⟩
  · exact (eventsBounded_txnFail stage e).mono (by omega)
  · exact ((eventsBounded_txn _ _).append (eventsBounded_txnFail stage e)).mono (by omega)
  · exact ((polled bs).append (eventsBounded_txn _ _)).mono (by omega)
  · exact ((polled bs).append (eventsBounded_txnFail stage e)).mono (by omega)
  · exact ((polled bs).append (eventsBounded_txn _ _)).mono (by omega)

/-- The most polls an operation makes: the bound of its class, none where it has no class. -/
def pollBound (m : PerClass) (op : HostOp) : Nat :=
  match pollClass op with
  | some c => m.get c
  | none => 0

/-- Every trace of an operation has no response before its end, and its transactions are bounded. -/
theorem OperationTrace.bounded {m us : PerClass} {i : Instr} {ev : List Event} {r : Result}
    (h : OperationTrace m us i ev r) (s : State) : EventsBounded ev (2 + pollBound m (accept i s).op) := by
  cases i with
  | opRead a n => exact OneTxnTrace.bounded h
  | opPageProgram a data =>
    by_cases hlong : Config.pageSize < data.length
    · obtain ⟨rfl, -⟩ := (if_pos hlong).mp h
      exact ⟨by simp, by simp⟩
    · exact MutateTrace.bounded ((if_neg hlong).mp h)
  | opSectorErase a => exact MutateTrace.bounded h
  | opChipErase => exact MutateTrace.bounded h
  | opSoftwareReset => exact ResetTrace.bounded h
  | opWriteEnable => exact OneTxnTrace.bounded h
  | opReadManufacturerId => exact OneTxnTrace.bounded h
  | opReadJedecId => exact OneTxnTrace.bounded h
  | _ => exact h.elim

/-- `Ok` and `BusError` are allowed to every instruction. -/
theorem resultAllowed_common (i : Instr) {r : Result} (h1 : r ≠ .invalidLength) (h2 : r ≠ .timeout) :
    resultAllowed i r = true := by
  cases r <;> first | contradiction | (cases i <;> rfl)

theorem OneTxnTrace.resultAllowed {tx : List Byte} {n : Nat} {payload : List Byte → List Byte} {ev : List Event}
    {r : Result} (h : OneTxnTrace tx n payload ev r) (i : Instr) : resultAllowed i r = true := by
  rcases h with ⟨rx, -, -, rfl⟩ | ⟨stage, e, -, rfl⟩ <;> exact resultAllowed_common i (by simp) (by simp)

theorem ResetTrace.resultAllowed {ev : List Event} {r : Result} (h : ResetTrace ev r) (i : Instr) :
    resultAllowed i r = true := by
  rcases h with ⟨-, rfl⟩ | ⟨stage, e, -, rfl⟩ | ⟨stage, e, -, rfl⟩ <;> exact resultAllowed_common i (by simp) (by simp)

theorem MutateTrace.resultAllowed {tx : List Byte} {m us : Nat} {ev : List Event} {r : Result}
    (h : MutateTrace tx m us ev r) {i : Instr} (htimeout : resultAllowed i .timeout = true) :
    resultAllowed i r = true := by
  by_cases ht : r = .timeout
  · rw [ht]; exact htimeout
  · exact resultAllowed_common i h.result_ne_invalidLength ht

/-- Every trace of an operation ends in a result the operation may end with. -/
theorem OperationTrace.resultAllowed {m us : PerClass} {i : Instr} {ev : List Event} {r : Result}
    (h : OperationTrace m us i ev r) : resultAllowed i r = true := by
  cases i with
  | opRead a n => exact OneTxnTrace.resultAllowed h _
  | opPageProgram a data =>
    by_cases hlong : Config.pageSize < data.length
    · obtain ⟨-, rfl⟩ := (if_pos hlong).mp h
      rfl
    · exact MutateTrace.resultAllowed ((if_neg hlong).mp h) rfl
  | opSectorErase a => exact MutateTrace.resultAllowed h rfl
  | opChipErase => exact MutateTrace.resultAllowed h rfl
  | opSoftwareReset => exact ResetTrace.resultAllowed h _
  | opWriteEnable => exact OneTxnTrace.resultAllowed h _
  | opReadManufacturerId => exact OneTxnTrace.resultAllowed h _
  | opReadJedecId => exact OneTxnTrace.resultAllowed h _
  | _ => exact h.elim

/-- Settles O52: the operation gives one of its traces, then the response, and every trace is bounded and ends in an
allowed result. -/
theorem oneResponsePerOperation : Obligations.OneResponsePerOperation := by
  unfold Obligations.OneResponsePerOperation
  intro i s t hi hidle hexec
  obtain ⟨hk, hphase⟩ := hostOp_kept hi hidle hexec
  obtain ⟨ev, htrace, hT⟩ := hostOp_respondsIn hi hidle hexec
  obtain ⟨hresponses, hcount⟩ := hT.bounded s
  exact ⟨hphase, ev, htrace, hresponses, hT.resultAllowed, hk.op ▸ hcount⟩

end Sys2Proof.Machine

/-! ### History does not matter (10_state.md R21) -/

namespace Sys2Proof.Machine

theorem Run.Related.mono {α : Type} {ρ σ : State → State → Prop} {m m' : Run α} (h : m.Related ρ m')
    (hσ : ∀ s s', ρ s s' → σ s s') : m.Related σ m' := by
  cases m <;> cases m' <;> simp only [Run.Related] at h ⊢
  case ret.ret => exact ⟨h.1, hσ _ _ h.2⟩
  case raised.raised => exact hσ _ _ h
  all_goals exact h

/-- Two runs of one operation, begun at `o` and `o'`, have come to `s` and `s'` the same way: the environment agrees, the
operation and its cycle are the same, the same events and bus calls were added, and an error raised is the same. -/
structure SameRun (o o' s s' : State) : Prop where
  env    : SameEnvironment s s'
  op     : s.op = o.op
  op'    : s'.op = o.op
  action : s'.action = s.action
  result : s.phase = .done → s'.result = s.result
  events : ∃ ev cs, s.trace = o.trace ++ ev ∧ s'.trace = o'.trace ++ ev ∧ s.calls = o.calls ++ cs ∧
    s'.calls = o'.calls ++ cs

variable {o o' : State}

/-- A transaction keeps two runs the same. -/
theorem parallel_sameRun (o o' : State) : Parallel (SameRun o o') where
  busHandle h := by
    obtain ⟨h, -⟩ := h.env
    exact h.symm
  busScript h := by
    obtain ⟨-, -, -, -, -, -, h, -⟩ := h.env
    exact h.symm
  dev h := by
    obtain ⟨-, -, -, -, -, h, -⟩ := h.env
    exact h.symm
  schedule h := by
    obtain ⟨-, -, -, -, -, -, -, -, h, -⟩ := h.env
    exact h.symm
  scheduleEnd h := by
    obtain ⟨-, -, -, -, -, -, -, -, -, h, -⟩ := h.env
    exact h.symm
  action h := h.action
  draws h := by
    obtain ⟨-, -, -, -, -, -, -, -, -, -, h⟩ := h.env
    exact h.symm
  logCall c h := by
    obtain ⟨hbus, hdelay, hmax, hus, hph, hdev, hscript, henv⟩ := h.env
    obtain ⟨ev, cs, ht, ht', hc, hc'⟩ := h.events
    exact ⟨⟨hbus, hdelay, hmax, hus, hph, hdev, congrArg List.tail hscript, henv⟩, h.op, h.op', h.action, h.result,
      ev, cs ++ [c], ht, ht', by simp [hc], by simp [hc']⟩
  select b b' h _ := ⟨h.env, h.op, h.op', h.action, h.result, h.events⟩
  deviceMoves d h := by
    obtain ⟨hbus, hdelay, hmax, hus, hph, -, hscript, hsleep, hsched, hend, hdraws⟩ := h.env
    exact ⟨⟨hbus, hdelay, hmax, hus, hph, rfl, hscript, hsleep, hsched, hend, congrArg (· + 1) hdraws⟩, h.op, h.op',
      h.action, h.result, h.events⟩
  reschedule l h := by
    obtain ⟨hbus, hdelay, hmax, hus, hph, hdev, hscript, hsleep, -, henv⟩ := h.env
    exact ⟨⟨hbus, hdelay, hmax, hus, hph, hdev, hscript, hsleep, rfl, henv⟩, h.op, h.op', h.action, h.result,
      h.events⟩
  record e h := by
    obtain ⟨ev, cs, ht, ht', hc, hc'⟩ := h.events
    exact ⟨h.env, h.op, h.op', h.action, h.result, ev ++ [e], cs, by simp [ht], by simp [ht'], hc, hc'⟩
  raiseError k h := by
    obtain ⟨hbus, hdelay, hmax, hus, -, henv⟩ := h.env
    exact ⟨⟨hbus, hdelay, hmax, hus, rfl, henv⟩, h.op, h.op', h.action, fun _ => rfl, h.events⟩

/-- POLLCNT, which no transaction touches, may be added to a relation that transactions keep. -/
theorem Parallel.and_pollCnt {ρ : State → State → Prop} (P : Parallel ρ) :
    Parallel (fun s s' => ρ s s' ∧ s'.pollCnt = s.pollCnt) where
  busHandle h := P.busHandle h.1
  busScript h := P.busScript h.1
  dev h := P.dev h.1
  schedule h := P.schedule h.1
  scheduleEnd h := P.scheduleEnd h.1
  action h := P.action h.1
  draws h := P.draws h.1
  logCall c h := ⟨P.logCall c h.1, h.2⟩
  select b b' h hb := ⟨P.select b b' h.1 hb, h.2⟩
  deviceMoves d h := ⟨P.deviceMoves d h.1, h.2⟩
  reschedule l h := ⟨P.reschedule l h.1, h.2⟩
  record e h := ⟨P.record e h.1, h.2⟩
  raiseError k h := ⟨P.raiseError k h.1, h.2⟩

theorem SameRun.enter {s s' : State} (h : SameRun o o' s s') {p : Phase} (hp : p ≠ .done) :
    SameRun o o' (s.enter p) (s'.enter p) := by
  obtain ⟨hbus, hdelay, hmax, hus, -, henv⟩ := h.env
  exact ⟨⟨hbus, hdelay, hmax, hus, rfl, henv⟩, h.op, h.op', h.action, fun hd => absurd hd hp, h.events⟩

theorem SameRun.store {s s' : State} (h : SameRun o o' s s') (i : Instr) (rx : List Byte) :
    SameRun o o' (store i rx s) (store i rx s') :=
  ⟨h.env, h.op, h.op', h.action, h.result, h.events⟩

theorem SameRun.loseBuffer {s s' : State} (h : SameRun o o' s s') (i : Instr) (n : Nat) :
    SameRun o o' (loseBuffer i n s) (loseBuffer i n s') :=
  ⟨h.env, h.op, h.op', h.action, h.result, h.events⟩

theorem SameRun.countPoll {s s' : State} (h : SameRun o o' s s') : SameRun o o' s.countPoll s'.countPoll :=
  ⟨h.env, h.op, h.op', h.action, h.result, h.events⟩

theorem SameRun.enterPoll {s s' : State} (h : SameRun o o' s s') : SameRun o o' s.enterPoll s'.enterPoll :=
  SameRun.enter (s := { s with pollCnt := 0 }) (s' := { s' with pollCnt := 0 })
    ⟨h.env, h.op, h.op', h.action, h.result, h.events⟩ (by simp)

theorem SameRun.raiseTimeout {s s' : State} (h : SameRun o o' s s') : SameRun o o' s.raiseTimeout s'.raiseTimeout := by
  have P := parallel_sameRun o o'
  unfold State.raiseTimeout
  rw [P.target h, P.dev h, P.draws h]
  exact P.raiseError _ (P.deviceMoves _ h)

/-- The same wire command in two runs that are the same. -/
theorem SameRun.wireRun {s s' : State} (h : SameRun o o' s s') (i : Instr) (tx : List Byte) (n : Nat) :
    (Machine.wireRun i tx n s).Related
      (fun t t' => SameRun o o' t t' ∧ (fillsBuffer i = true → t'.rxData = t.rxData))
      (Machine.wireRun i tx n s') :=
  ((parallel_sameRun o o').wireRun i tx n (fun rx h => h.store i rx) (fun h => h.loseBuffer i n) h).mono
    (fun _ _ hrel => ⟨hrel.1, hrel.2.2⟩)

/-- The same ReadStatus in two runs that are the same and have counted as many polls. -/
theorem SameRun.readStatus {s s' : State} (h : SameRun o o' s s') (hcnt : s'.pollCnt = s.pollCnt) :
    (Machine.wireRun .readStatus [0x05#8] 1 s).Related
      (fun t t' => SameRun o o' t t' ∧ t'.pollCnt = t.pollCnt ∧ (t.phase ≠ .done → t'.status = t.status))
      (Machine.wireRun .readStatus [0x05#8] 1 s') := by
  have hrel := (parallel_sameRun o o').and_pollCnt.wireRun .readStatus [0x05#8] 1
    (fun rx h => ⟨h.1.store _ rx, h.2⟩) (fun h => ⟨h.1.loseBuffer _ 1, h.2⟩) ⟨h, hcnt⟩
  exact hrel.mono (fun _ _ ⟨⟨hrun, hcnt⟩, hstatus, _⟩ => ⟨hrun, hcnt, hstatus rfl⟩)

/-- The same Sleep in two runs that are the same. -/
theorem SameRun.sleepOnce {s s' : State} (h : SameRun o o' s s') (c : PollClass) :
    (Machine.sleepOnce c s).Related (fun t t' => SameRun o o' t t' ∧ t.pollCnt = s.pollCnt ∧ t'.pollCnt = s'.pollCnt)
      (Machine.sleepOnce c s') := by
  obtain ⟨hbus, hdelay, hmax, hus, hph, hdev, hscript, hsleep, henv⟩ := h.env
  obtain ⟨ev, cs, ht, ht', hc, hc'⟩ := h.events
  unfold Machine.sleepOnce
  rw [← hdelay, ← hsleep, ← hus]
  split
  · exact rfl
  · split
    · exact rfl
    · refine ⟨rfl, ⟨⟨hbus, rfl, hmax, rfl, hph, hdev, hscript, rfl, henv⟩, h.op, h.op', h.action, h.result,
        ev ++ [.sleep (s.pollDelay.get c)], cs, ?_, ?_, hc, hc'⟩, rfl, rfl⟩
      · simp [ht]
      · simp [ht']

/-- The busy-wait in two runs that are the same: the same status bytes lead to the same rounds. -/
theorem SameRun.pollLoop {s s' : State} (h : SameRun o o' s s') (hcnt : s'.pollCnt = s.pollCnt) (hp : s.phase = .poll)
    (c : PollClass) (fuel : Nat) :
    (Machine.pollLoop c fuel s).Related (SameRun o o') (Machine.pollLoop c fuel s') := by
  induction fuel generalizing s s' with
  | zero => exact rfl
  | succ fuel ih =>
    rw [pollLoop_succ, pollLoop_succ]
    refine Run.related_andThen (h.readStatus hcnt) (fun _ _ h => h.1) (fun _ t t' ht _ hrel => ?_)
    obtain ⟨hrun, hcnt, hstatus⟩ := hrel
    have hdone := wireRun_meets .readStatus [0x05#8] 1 s
    rw [ht] at hdone
    obtain ⟨-, -, -, hph, -⟩ := wireDone_trace hdone
    obtain ⟨-, -, hmax, -⟩ := hrun.env
    rw [hstatus (by rw [hph, hp]; simp), hcnt, ← hmax]
    split
    · exact ⟨rfl, hrun.countPoll⟩
    split
    · exact hrun.countPoll.raiseTimeout
    · refine Run.related_andThen ((hrun.countPoll.enter (by simp)).sleepOnce c) (fun _ _ h => h.1)
        (fun _ u u' _ _ hslept => ?_)
      obtain ⟨hslept, hu, hu'⟩ := hslept
      exact ih (hslept.enter (by simp)) (by simp [hu, hu', hcnt]) rfl

/-- The mutating template in two runs that are the same. -/
theorem SameRun.mutate {s s' : State} (h : SameRun o o' s s') {i : Instr} {tx : List Byte} (he : encode i = .frame tx 0)
    (hf : fillsBuffer i = false) (hi : i ≠ .readStatus) (c : PollClass) :
    (Machine.mutate c (txnSend i) s).Related (SameRun o o') (Machine.mutate c (txnSend i) s') := by
  rw [mutate_wire he hf hi, mutate_wire he hf hi]
  refine Run.related_andThen (h.wireRun _ _ _) (fun _ _ h => h.1) (fun _ t t' _ _ ht => ?_)
  refine Run.related_andThen ((ht.1.enter (by simp)).wireRun _ _ _) (fun _ _ h => h.1) (fun _ u u' _ _ hu => ?_)
  obtain ⟨-, -, hmax, -⟩ := hu.1.env
  unfold busyWait
  rw [← hmax]
  exact hu.1.enterPoll.pollLoop rfl rfl c _

/-- The acceptance of an operation in states whose environment agrees. -/
theorem sameRun_accept {i : Instr} {s s' : State} (hi : isHostOp i = true) (h : SameEnvironment s s') :
    SameRun (accept i s) (accept i s') (accept i s) (accept i s') := by
  obtain ⟨hbus, hdelay, hmax, hus, -, henv⟩ := h
  have events : ∃ ev cs, (accept i s).trace = (accept i s).trace ++ ev ∧ (accept i s').trace = (accept i s').trace ++ ev ∧
      (accept i s).calls = (accept i s).calls ++ cs ∧ (accept i s').calls = (accept i s').calls ++ cs :=
    ⟨[], [], by simp, by simp, by simp, by simp⟩
  cases i <;> simp [isHostOp, encode] at hi <;>
    exact ⟨⟨hbus, hdelay, hmax, hus, rfl, henv⟩, rfl, rfl, rfl, (fun hd => nomatch hd), events⟩

/-- Two runs of an operation's rule come out the same way, with the same payload, and a raise has entered DONE. -/
def Run.SameAnswer (o o' : State) (m m' : Run Unit) : Prop :=
  m.Related (fun t t' => SameRun o o' t t' ∧ okPayload o.op t'.rxData = okPayload o.op t.rxData) m' ∧
    m.Meets (fun _ _ => True) (fun t => t.phase = .done)

theorem wireRun_raised_done (i : Instr) (tx : List Byte) (n : Nat) (s : State) :
    (wireRun i tx n s).Meets (fun _ _ => True) (fun t => t.phase = .done) :=
  (wireRun_kept i tx n s).mono (fun _ _ _ => trivial) (fun _ h => h.2)

/-- A rule of one wire command whose payload is the buffer it fills. -/
theorem SameRun.wireRun_buffer {s s' : State} (h : SameRun o o' s s') {i : Instr} (tx : List Byte) (n : Nat)
    (hf : fillsBuffer i = true) : Run.SameAnswer o o' (Machine.wireRun i tx n s) (Machine.wireRun i tx n s') :=
  ⟨(h.wireRun i tx n).mono (fun _ _ hrel => ⟨hrel.1, by rw [hrel.2 hf]⟩), wireRun_raised_done ..⟩

/-- A rule whose payload is fixed by the operation alone. -/
theorem Run.Related.sameAnswer {m m' : Run Unit} (h : m.Related (SameRun o o') m')
    (hop : ∀ x y, okPayload o.op x = okPayload o.op y)
    (hdone : m.Meets (fun _ _ => True) (fun t => t.phase = .done)) : Run.SameAnswer o o' m m' :=
  ⟨h.mono (fun _ _ hrun => ⟨hrun, hop _ _⟩), hdone⟩

/-- EnableReset, then Reset, in two runs that are the same. -/
theorem SameRun.resetPair {s s' : State} (h : SameRun o o' s s') :
    ((Machine.wireRun .enableReset [0x66#8] 0 s).andThen
      fun _ s => Machine.wireRun .reset [0x99#8] 0 (s.enter .rstExec)).Related (SameRun o o')
    ((Machine.wireRun .enableReset [0x66#8] 0 s').andThen
      fun _ s => Machine.wireRun .reset [0x99#8] 0 (s.enter .rstExec)) :=
  Run.related_andThen (h.wireRun _ _ _) (fun _ _ h => h.1) (fun _ _ _ _ _ hu =>
    ((hu.1.enter (by simp)).wireRun _ _ _).mono (fun _ _ h => h.1))

theorem resetPair_raised_done (s : State) :
    ((wireRun .enableReset [0x66#8] 0 s).andThen fun _ s => wireRun .reset [0x99#8] 0 (s.enter .rstExec)).Meets
      (fun _ _ => True) (fun t => t.phase = .done) := by
  rw [Run.meets_andThen]
  exact (wireRun_kept _ _ _ s).mono (fun _ _ _ => wireRun_raised_done ..) (fun _ h => h.2)

theorem SameRun.respond {s s' : State} (h : SameRun o o' s s') (hresult : s'.result = s.result) :
    SameRun o o' s.respond s'.respond := by
  have hrecord := (parallel_sameRun o o').record (.rsp s.result) h
  unfold State.respond
  rw [hresult]
  exact hrecord.enter (by simp)

theorem SameRun.succeed {s s' : State} (h : SameRun o o' s s')
    (hpay : okPayload o.op s'.rxData = okPayload o.op s.rxData) : SameRun o o' s.succeed s'.succeed := by
  have hok (u : State) : u.succeed = u.raiseError (.ok (okPayload u.op u.rxData)) := rfl
  rw [hok, hok, h.op, h.op', hpay]
  exact (parallel_sameRun o o').raiseError _ h

/-- What two runs that are the same answer to the host. -/
theorem Run.SameAnswer.finish {m m' : Run Unit} {t : State} (h : Run.SameAnswer o o' m m')
    (ht : m.finishOperation = .next t) :
    ∃ t', m'.finishOperation = .next t' ∧ SameRun o o' t t' ∧ t'.result = t.result := by
  obtain ⟨hrel, hdone⟩ := h
  cases m <;> cases m' <;> simp only [Run.Related] at hrel <;> cases ht
  case ret.ret =>
    obtain ⟨-, hrun, hpay⟩ := hrel
    have hsucceed := hrun.succeed hpay
    have hresult := hsucceed.result rfl
    exact ⟨_, rfl, hsucceed.respond hresult, hresult⟩
  case raised.raised =>
    have hresult := hrel.1.result hdone
    exact ⟨_, rfl, hrel.1.respond hresult, hresult⟩

/-- A host operation in two idle states whose environment agrees. -/
theorem hostOp_sameRun {i : Instr} {s s' t : State} (hi : isHostOp i = true) (henv : SameEnvironment s s')
    (hidle : s.phase = .idle) (h : exec i s = .next t) :
    ∃ t', exec i s' = .next t' ∧ SameRun (accept i s) (accept i s') t t' ∧ t'.result = t.result := by
  have hrun := sameRun_accept hi henv
  obtain ⟨hbus, -, -, -, hphase, -⟩ := henv
  have finish : ∀ {body : State → Run Unit}, (∀ u, exec i u = operate u (accept i) body) →
      Run.SameAnswer (accept i s) (accept i s') (body (accept i s)) (body (accept i s')) →
      ∃ t', exec i s' = .next t' ∧ SameRun (accept i s) (accept i s') t t' ∧ t'.result = t.result := by
    intro body hexec hsame
    obtain ⟨hheld, hfinish⟩ := operate_next (hexec s ▸ h) hidle
    rw [hexec, operate_ready (hbus ▸ hheld) (hphase ▸ hidle)]
    exact hsame.finish hfinish
  have mutateDone : ∀ {j : Instr} {tx : List Byte}, encode j = .frame tx 0 → fillsBuffer j = false →
      j ≠ .readStatus → ∀ (c : PollClass) (u : State),
        (mutate c (txnSend j) u).Meets (fun _ _ => True) (fun t => t.phase = .done) :=
    fun he hf hi c u => (mutate_kept he hf hi c u).mono (fun _ _ _ => trivial) (fun _ h => h.2)
  cases i <;> simp [isHostOp, encode] at hi
  case opRead a n => exact finish (exec_opRead a n) (hrun.wireRun_buffer _ _ rfl)
  case opPageProgram a data =>
    refine finish (exec_opPageProgram a data) ?_
    split
    · exact Run.Related.sameAnswer (m' := .raised _) ((parallel_sameRun _ _).raiseError .invalidLength hrun)
        (fun _ _ => rfl) rfl
    · exact ((hrun.enter (by simp)).mutate rfl rfl (by simp) .pp).sameAnswer (fun _ _ => rfl)
        (mutateDone rfl rfl (by simp) ..)
  case opSectorErase a =>
    exact finish (exec_opSectorErase a) ((hrun.mutate rfl rfl (by simp) .se).sameAnswer (fun _ _ => rfl)
      (mutateDone rfl rfl (by simp) ..))
  case opChipErase =>
    exact finish exec_opChipErase ((hrun.mutate rfl rfl (by simp) .ce).sameAnswer (fun _ _ => rfl)
      (mutateDone rfl rfl (by simp) ..))
  case opSoftwareReset =>
    exact finish exec_opSoftwareReset (hrun.resetPair.sameAnswer (fun _ _ => rfl) (resetPair_raised_done _))
  case opWriteEnable =>
    exact finish exec_opWriteEnable (((hrun.wireRun _ _ _).mono (fun _ _ h => h.1)).sameAnswer (fun _ _ => rfl)
      (wireRun_raised_done ..))
  case opReadManufacturerId => exact finish exec_opReadManufacturerId (hrun.wireRun_buffer _ _ rfl)
  case opReadJedecId => exact finish exec_opReadJedecId (hrun.wireRun_buffer _ _ rfl)

/-- Settles O54: from the accepted operation on the two runs are the same, and the acceptance itself adds no event and no
call. -/
theorem historyDoesNotMatter : Obligations.HistoryDoesNotMatter := by
  unfold Obligations.HistoryDoesNotMatter
  intro i s s' t hi henv hidle h
  obtain ⟨t', hexec, hrun, hresult⟩ := hostOp_sameRun hi henv hidle h
  obtain ⟨ev, cs, ht, ht', hc, hc'⟩ := hrun.events
  obtain ⟨htrace, hcalls, -⟩ := accept_bus_frame i s
  obtain ⟨htrace', hcalls', -⟩ := accept_bus_frame i s'
  rw [htrace] at ht
  rw [hcalls] at hc
  rw [htrace'] at ht'
  rw [hcalls'] at hc'
  exact ⟨t', ev, cs, hexec, hrun.env, hresult, ht, ht', hc, hc'⟩

end Sys2Proof.Machine

/-! ### The wire commands (40_wire_commands.md section 2; 46_device_response.md section 3) -/

namespace Sys2Proof.Machine

/-! #### A wire command on a bus that succeeds -/

/-- A wire command on a bus that succeeds: its transaction completed, the bytes received put away. -/
theorem exec_completes {i : Instr} {tx rx : List Byte} {n : Nat} {s : State} {d : Device} (hw : i.wellFormed = true)
    (he : encode i = .frame tx n) (hb : s.busHandle = .held) (hs : s.busSucceeds)
    (hr : s.deviceTurn.dev.respond s.deviceTurn.draws i = some (rx, d)) :
    exec i s = .next (store i (received s.deviceTurn rx n)
      (s.deviceTurn.completed tx (received s.deviceTurn rx n) d)) := by
  rw [exec_wire he, wireRun_completes hw he hb hs hr]
  rfl

/-- The same with the device's own bytes. -/
theorem exec_answered {i : Instr} {tx rx : List Byte} {n : Nat} {s : State} {d : Device} (hw : i.wellFormed = true)
    (he : encode i = .frame tx n) (hb : s.busHandle = .held) (hs : s.deviceAnswers)
    (hr : s.deviceTurn.dev.respond s.deviceTurn.draws i = some (rx, d)) :
    exec i s = .next (store i rx (s.deviceTurn.completed tx rx d)) := by
  rw [exec_wire he, wireRun_answered hw he hb hs hr]
  rfl

/-- A wire command that receives nothing. -/
theorem exec_sends {i : Instr} {tx : List Byte} {s : State} {d : Device} (hw : i.wellFormed = true)
    (he : encode i = .frame tx 0) (hf : fillsBuffer i = false) (hi : i ≠ .readStatus) (hb : s.busHandle = .held)
    (hs : s.busSucceeds) (hr : s.deviceTurn.dev.respond s.deviceTurn.draws i = some ([], d)) :
    exec i s = .next (s.deviceTurn.completed tx [] d) := by
  rw [exec_completes hw he hb hs hr, store_plain hf hi]
  rfl

/-! #### The device's responses where it is not busy -/

theorem answer_idle {d : Device} {k : Nat} {rx : List Byte} (h : d.busy = false) : d.answer k rx = rx := by
  simp [Device.answer, h]

theorem takeRead_idle {d : Device} {k : Nat} (h : d.busy = false) :
    d.takeRead k = { d with rstArmed := d.rstArmed && Config.freeArmed k } := by
  simp [Device.takeRead, Device.disarm, h]

/-- A program or erase frame with WEL = 1 is accepted. -/
theorem takeAction_latched {d : Device} {k : Nat} {c : Cycle} (h : d.busy = false) (hw : d.wel = true) :
    d.takeAction k c =
      { d with busy := true, pending := some c, rstArmed := d.rstArmed && Config.freeArmed k } := by
  simp [Device.takeAction, Device.disarm, h, hw]

/-- A program or erase frame with WEL = 0 is not accepted, but its target is free. -/
theorem takeAction_unlatched {d : Device} {k : Nat} {c : Cycle} (h : d.busy = false) (hw : d.wel = false) :
    d.takeAction k c = { d.disarm k with mem := d.scramble k (d.footprint c) } := by
  simp [Device.takeAction, h, hw]

theorem takeReset_armed {d : Device} {k : Nat} (h : d.rstArmed = true) : d.takeReset k = d.powerOn k := by
  simp [Device.takeReset, h]

/-- A position of a Read inside the array holds the array byte. -/
theorem readBytes_getElem? {d : Device} {k n i : Nat} {a : Addr} (hi : i < n) (ha : a.toNat + i < d.capacity) :
    (d.readBytes k a n)[i]? = some (Memory.read d.erasedByte d.mem (a.toNat + i)) := by
  have hlen : i < (d.readBytes k a n).length := by simpa [Device.readBytes] using hi
  rw [List.getElem?_eq_getElem hlen]
  simp [Device.readBytes, ha]

theorem deviceTurn_capacity (s : State) : s.deviceTurn.dev.capacity = s.dev.capacity := by
  obtain ⟨-, -, -, -, h, -⟩ := constants_fields (constants_deviceTurn s)
  exact h

theorem deviceTurn_erasedByte (s : State) : s.deviceTurn.dev.erasedByte = s.dev.erasedByte := by
  obtain ⟨-, -, -, -, -, -, h⟩ := constants_fields (constants_deviceTurn s)
  exact h

/-- The identification constants of the device after its turn. -/
theorem deviceTurn_ids (s : State) :
    s.deviceTurn.dev.mfrId = s.dev.mfrId ∧ s.deviceTurn.dev.devId = s.dev.devId ∧
      s.deviceTurn.dev.memType = s.dev.memType ∧ s.deviceTurn.dev.capId = s.dev.capId := by
  obtain ⟨h1, h2, h3, h4, -⟩ := constants_fields (constants_deviceTurn s)
  exact ⟨h1, h2, h3, h4⟩

/-! #### Each command's whole next state -/

/-- Settles O20: a device that is not busy takes the frame by setting WEL. -/
theorem writeEnableSetsLatch : Obligations.WriteEnableSetsLatch := by
  unfold Obligations.WriteEnableSetsLatch
  intro s hb hs hbusy
  rw [exec_sends rfl rfl rfl (by simp) hb hs rfl, takeWriteEnable_idle hbusy]

/-- Settles O21: the byte is the status byte of the device after its turn. -/
theorem readStatusReturnsStatus : Obligations.ReadStatusReturnsStatus := by
  unfold Obligations.ReadStatusReturnsStatus
  intro s hb hs
  refine ⟨statusByte s.deviceTurn.dev.statusHigh s.deviceTurn.dev.wel s.deviceTurn.dev.busy, statusByte_busy ..,
    statusByte_latched .., ?_⟩
  rw [exec_answered rfl rfl hb hs rfl, store_readStatus]
  rfl

/-- Settles O22: the bytes are those of the array after the device's turn. -/
theorem readReturnsArrayBytes : Obligations.ReadReturnsArrayBytes := by
  unfold Obligations.ReadReturnsArrayBytes
  intro s a n hb hs hbusy
  refine ⟨s.deviceTurn.dev.readBytes s.deviceTurn.draws a n, by simp [Device.readBytes], fun i hi ha => ?_, ?_⟩
  · rw [readBytes_getElem? hi (by rwa [deviceTurn_capacity]), deviceTurn_erasedByte]
  · rw [exec_answered rfl rfl hb hs rfl, store_read, answer_idle hbusy, takeRead_idle hbusy]

/-- Settles O23: the bytes are the device's constants, which its turn does not change. -/
theorem identificationReturnsConstants : Obligations.IdentificationReturnsConstants := by
  unfold Obligations.IdentificationReturnsConstants
  intro s hb hs hbusy
  obtain ⟨hmfr, hdev, htype, hcap⟩ := deviceTurn_ids s
  refine ⟨?_, ?_⟩
  · rw [← hmfr, ← hdev, exec_answered rfl rfl hb hs rfl, store_readManufacturerId, answer_idle hbusy,
      takeRead_idle hbusy]
    rfl
  · rw [← hmfr, ← htype, ← hcap, exec_answered rfl rfl hb hs rfl, store_readJedecId, answer_idle hbusy,
      takeRead_idle hbusy]

/-- The action frames: well formed, without a received byte, answered by `takeAction` of their cycle. -/
structure IsAction (i : Instr) (c : Cycle) : Prop where
  wellFormed : i.wellFormed = true
  noBuffer   : fillsBuffer i = false
  noStatus   : i ≠ .readStatus
  responds   : ∀ (d : Device) (k : Nat), d.respond k i = some ([], d.takeAction k c)

theorem isAction_pageProgram {a : Addr} {data : List Byte} (h : data.length ≤ Config.pageSize) :
    IsAction (.pageProgram a data) (.program a data) :=
  ⟨decide_eq_true h, rfl, by simp, fun _ _ => rfl⟩

theorem isAction_sectorErase (a : Addr) : IsAction (.sectorErase a) (.sectorErase a) :=
  ⟨rfl, rfl, by simp, fun _ _ => rfl⟩

theorem isAction_chipErase : IsAction .chipErase .chipErase := ⟨rfl, rfl, by simp, fun _ _ => rfl⟩

/-- An action frame on a bus that succeeds. -/
theorem exec_action {i : Instr} {c : Cycle} {tx : List Byte} {s : State} (h : IsAction i c)
    (he : encode i = .frame tx 0) (hb : s.busHandle = .held) (hs : s.busSucceeds) :
    exec i s = .next (s.deviceTurn.completed tx [] (s.deviceTurn.dev.takeAction s.deviceTurn.draws c)) :=
  exec_sends h.wellFormed he h.noBuffer h.noStatus hb hs (h.responds _ _)

/-- Settles O24: the three frames are taken by one response, which accepts where WEL = 1. -/
theorem latchedActionIsAccepted : Obligations.LatchedActionIsAccepted := by
  unfold Obligations.LatchedActionIsAccepted
  intro s hb hs hbusy hwel
  refine ⟨fun a data hfits => ?_, fun a => ?_, ?_⟩
  · rw [exec_action (isAction_pageProgram hfits) rfl hb hs, takeAction_latched hbusy hwel]
  · rw [exec_action (isAction_sectorErase a) rfl hb hs, takeAction_latched hbusy hwel]
  · rw [exec_action isAction_chipErase rfl hb hs, takeAction_latched hbusy hwel]

/-- Settles O25: the refused frame scrambles its target and nothing else. -/
theorem unlatchedActionIsNotAccepted : Obligations.UnlatchedActionIsNotAccepted := by
  unfold Obligations.UnlatchedActionIsNotAccepted
  intro s i c tx hb hs hinv hbusy hwel hi he
  have haction : IsAction i c := by
    rcases hi with ⟨a, data, hfits, rfl, rfl⟩ | ⟨a, rfl, rfl⟩ | ⟨rfl, rfl⟩
    · exact isAction_pageProgram hfits
    · exact isAction_sectorErase a
    · exact isAction_chipErase
  refine ⟨_, exec_action haction he hb hs, rfl, ?_⟩
  rw [takeAction_unlatched hbusy hwel]
  refine ⟨hbusy, hwel, rfl, constants_deviceTurn s, fun x hx => ?_⟩
  rw [← deviceTurn_erasedByte]
  exact read_scramble hinv.1 hx

/-- Settles O26: EnableReset is taken by any device; an armed Reset is the power-on of the device, which scrambles the
range of an interrupted cycle. -/
theorem resetPairResetsTheDevice : Obligations.ResetPairResetsTheDevice := by
  unfold Obligations.ResetPairResetsTheDevice
  intro s hb hs
  refine ⟨exec_sends rfl rfl rfl (by simp) hb hs rfl, fun harmed hinv => ?_⟩
  refine ⟨_, exec_sends rfl rfl rfl (by simp) hb hs rfl, rfl, ?_⟩
  rw [takeReset_armed harmed]
  refine ⟨rfl, fun x hx => ?_⟩
  rw [← deviceTurn_erasedByte]
  exact read_scramble hinv.1 hx

/-- Settles O27: every wire command has a response, and the bytes received are put away where they belong. -/
theorem wireCommandsComplete : Obligations.WireCommandsComplete := by
  unfold Obligations.WireCommandsComplete
  intro s i tx n hw he hb hs
  obtain ⟨rx, d, hr⟩ := respond_wire he s.deviceTurn.dev s.deviceTurn.draws
  have hlen : rx.length = n := receive_length (by rw [receive_encode hw he]; exact hr)
  refine ⟨_, _, exec_completes hw he hb hs hr, received_length hlen, rfl,
    (constants_respond hr).trans (constants_deviceTurn s), fun hi => ?_, fun hi => ?_, ?_⟩
  · simp [store, hi]
  · simp [store, hi]
  · simp [store]

/-- With no reset armed there is none to disarm. -/
theorem disarm_unarmed {d : Device} {k : Nat} (h : d.rstArmed = false) : d.disarm k = d := by
  ext1 <;> simp [Device.disarm, h]

/-- The commands that fill the buffer are frames, and the device takes them as a read. -/
theorem fillsBuffer_frame {i : Instr} (hf : fillsBuffer i = true) :
    ∃ tx n, i.wellFormed = true ∧ encode i = .frame tx n ∧ i ≠ .readStatus ∧
      ∀ (d : Device) (k : Nat), ∃ rx, d.respond k i = some (rx, d.takeRead k) := by
  cases i <;> cases hf
  all_goals exact ⟨_, _, rfl, rfl, by simp, fun _ _ => ⟨_, rfl⟩⟩

/-- Settles O55: a device that is not busy has no turn to take, a frame may at most disarm it, and where no reset is armed
that is nothing. -/
theorem readsLeaveTheDeviceAlone : Obligations.ReadsLeaveTheDeviceAlone := by
  unfold Obligations.ReadsLeaveTheDeviceAlone
  intro s t i hi hb hs hbusy harmed hexec
  rcases hi with rfl | hf
  · rw [exec_completes rfl rfl hb hs rfl, deviceTurn_idle hbusy] at hexec
    cases hexec
    refine ⟨?_, fun h => absurd rfl h⟩
    rw [store_dev, State.completed_dev, Device.takeReadStatus, disarm_unarmed harmed]
  · obtain ⟨tx, n, hw, he, hi, hread⟩ := fillsBuffer_frame hf
    obtain ⟨rx, hr⟩ := hread s.deviceTurn.dev s.deviceTurn.draws
    rw [exec_completes hw he hb hs hr, deviceTurn_idle hbusy] at hexec
    cases hexec
    rw [store_dev, State.completed_dev, Device.takeRead, if_neg (by simp [hbusy]), disarm_unarmed harmed]
    exact ⟨rfl, fun _ => rfl⟩

end Sys2Proof.Machine

/-! ### A transaction, call by call (40_wire_commands.md R120 to R122) -/

namespace Sys2Proof.Machine

variable {α : Type}

/-- The bus's answer to the call after the next `k`. -/
def State.answerAt (u : State) (k : Nat) : BusAnswer := (u.busScript.drop k).headD .ok

/-- `u` in the middle of a transaction, the calls `cs` made and chip-select asserted. -/
def State.called (u : State) (cs : List BusCall) : State :=
  { u with calls := u.calls ++ cs, busScript := u.busScript.drop cs.length, chipSelect := true }

theorem logCall_begin_select (u : State) : (u.logCall .begin).select true = u.called [.begin] := by
  simp [State.called, State.logCall, State.select]

theorem called_logCall (u : State) (cs : List BusCall) (c : BusCall) :
    (u.called cs).logCall c = u.called (cs ++ [c]) := by
  simp [State.called, State.logCall]

theorem called_draws (u : State) (cs : List BusCall) : (u.called cs).draws = u.draws := rfl

theorem called_answer (u : State) (cs : List BusCall) :
    (u.called cs).busScript.headD .ok = u.answerAt cs.length := rfl

/-- The next call of a transaction under way, where it succeeds. -/
theorem busCall_called {u : State} {cs : List BusCall} {c : BusCall} {f : BusErr → State → Run α}
    {g : BusAnswer → State → Run α} (h : (u.answerAt cs.length).succeeds = true) :
    busCall c (u.called cs) f g = g (u.answerAt cs.length) (u.called (cs ++ [c])) := by
  rw [← called_answer] at h
  rw [busCall_succeeds h, called_logCall, called_answer]

/-- The next call of a transaction under way, where it fails. -/
theorem busCall_called_err {u : State} {cs : List BusCall} {c : BusCall} {f : BusErr → State → Run α}
    {g : BusAnswer → State → Run α} {e : BusErr} (h : u.answerAt cs.length = .err e) :
    busCall c (u.called cs) f g = f e (u.called (cs ++ [c])) := by
  rw [← called_answer] at h
  rw [busCall_err h, called_logCall]

/-- The calls of a transaction before its BusEnd. -/
def sendCalls (tx : List Byte) (n : Nat) : List BusCall :=
  if n = 0 then [.begin, .write tx] else [.begin, .write tx, .read n]

theorem txnCalls_eq (tx : List Byte) (n : Nat) : txnCalls tx n = sendCalls tx n ++ [.finish] := by
  unfold txnCalls sendCalls
  split <;> rfl

section
variable {s : State} {tx rx : List Byte} {n : Nat} {d : Device}

/-- A transaction begins with BusBegin, the device having had its turn. -/
theorem txn_begin (hb : s.busHandle = .held)
    (hr : s.deviceTurn.dev.receive s.deviceTurn.draws tx n = some (rx, d)) :
    txn tx n s = busCall .begin s.deviceTurn
      (fun e s => txnFail tx n .begin e (s.select (s.chipSelect && Config.freeSelect s.draws)))
      (fun _ s => busCall (.write tx) (s.select true)
        (fun e s => cleanUp tx n .write e s) (fun _ s => txnRead tx n rx d s)) := by
  unfold txn
  simp only [hb, reduceCtorEq, if_false, hr]

/-- After a BusBegin that succeeded. -/
theorem txn_write (hb : s.busHandle = .held)
    (hr : s.deviceTurn.dev.receive s.deviceTurn.draws tx n = some (rx, d))
    (h0 : (s.deviceTurn.answerAt 0).succeeds = true) :
    txn tx n s = busCall (.write tx) (s.deviceTurn.called [.begin])
      (fun e s => cleanUp tx n .write e s) (fun _ s => txnRead tx n rx d s) := by
  rw [txn_begin hb hr, busCall_succeeds h0, logCall_begin_select]

/-- After a BusWrite that succeeded. -/
theorem txn_read (hb : s.busHandle = .held)
    (hr : s.deviceTurn.dev.receive s.deviceTurn.draws tx n = some (rx, d))
    (h0 : (s.deviceTurn.answerAt 0).succeeds = true) (h1 : (s.deviceTurn.answerAt 1).succeeds = true) :
    txn tx n s = txnRead tx n rx d (s.deviceTurn.called [.begin, .write tx]) := by
  rw [txn_write hb hr h0, busCall_called (cs := [.begin]) h1]
  rfl

/-- Where every call before BusEnd succeeded. -/
theorem txn_finish (hb : s.busHandle = .held)
    (hr : s.deviceTurn.dev.receive s.deviceTurn.draws tx n = some (rx, d))
    (h : ∀ k < (sendCalls tx n).length, (s.deviceTurn.answerAt k).succeeds = true) :
    txn tx n s = txnEnd tx n (received s.deviceTurn rx n) d (s.deviceTurn.called (sendCalls tx n)) := by
  by_cases hn : n = 0
  · have hcalls : sendCalls tx n = [.begin, .write tx] := if_pos hn
    rw [hcalls] at h ⊢
    rw [txn_read hb hr (h 0 (by simp)) (h 1 (by simp)), txnRead, if_pos hn, received, if_pos hn]
  · have hcalls : sendCalls tx n = [.begin, .write tx, .read n] := if_neg hn
    rw [hcalls] at h ⊢
    rw [txn_read hb hr (h 0 (by simp)) (h 1 (by simp)), txnRead, if_neg hn,
      busCall_called (cs := [.begin, .write tx]) (h 2 (by simp)), received, if_neg hn]
    rfl

theorem completed_of_called (u : State) (h : rx.length = n) (d : Device) :
    (((u.called (txnCalls tx n)).select false).deviceMoves d).record (.txn tx rx) = u.completed tx rx d := by
  subst h
  ext1 <;> rfl

/-- Where every call succeeded, whatever the script holds for later ones. -/
theorem txn_succeeds (hb : s.busHandle = .held)
    (hr : s.deviceTurn.dev.receive s.deviceTurn.draws tx n = some (rx, d))
    (h : ∀ k < (txnCalls tx n).length, (s.deviceTurn.answerAt k).succeeds = true) :
    txn tx n s = .ret (received s.deviceTurn rx n) (s.deviceTurn.completed tx (received s.deviceTurn rx n) d) := by
  rw [txnCalls_eq, List.length_append, List.length_singleton] at h
  rw [txn_finish hb hr (fun k hk => h k (by omega)), txnEnd, busCall_called (h _ (by omega)), ← txnCalls_eq,
    completed_of_called _ (received_length (receive_length hr))]

end

/-- A transaction that fails once its BusBegin succeeded. -/
theorem txnFail_called (u : State) (tx : List Byte) (n : Nat) (stage : Stage) (e : BusErr) (cs : List BusCall)
    (sel : Bool) :
    txnFail (α := α) tx n stage e ((u.called cs).select sel) = .raised (u.failed tx n stage e cs sel) := by
  have htarget : ((u.called cs).select sel).target = u.target := target_congr rfl rfl
  rw [txnFail, htarget]
  simp only [State.failed, State.deviceMoves, State.record, State.raiseError, State.enter, State.called, State.select]

/-- The clean-up BusEnd that returns ends the transaction in its failure, and one that succeeds releases chip-select. -/
theorem cleanUp_called {u : State} {tx : List Byte} {n : Nat} {stage : Stage} {e : BusErr} {cs : List BusCall}
    (h : u.answerAt cs.length ≠ .hang) :
    ∃ sel, cleanUp (α := α) tx n stage e (u.called cs) = .raised (u.failed tx n stage e (cs ++ [.finish]) sel) ∧
      ((u.answerAt cs.length).succeeds = true → sel = false) := by
  cases ha : u.answerAt cs.length with
  | hang => exact absurd ha h
  | err e' =>
    refine ⟨Config.freeSelect u.draws, ?_, fun hs => nomatch hs⟩
    rw [cleanUp, busCall_called_err ha, called_draws, txnFail_called]
  | ok =>
    refine ⟨false, ?_, fun _ => rfl⟩
    rw [cleanUp, busCall_called (by rw [ha]; rfl), txnFail_called]
  | data bytes =>
    refine ⟨false, ?_, fun _ => rfl⟩
    rw [cleanUp, busCall_called (by rw [ha]; rfl), txnFail_called]

theorem busCall_called_hang {u : State} {cs : List BusCall} {c : BusCall} {f : BusErr → State → Run α}
    {g : BusAnswer → State → Run α} (h : u.answerAt cs.length = .hang) :
    busCall c (u.called cs) f g = .stuck .busHang := by
  rw [← called_answer] at h
  exact busCall_hang h

theorem answerAt_deviceTurn (s : State) (k : Nat) : s.deviceTurn.answerAt k = s.answerAt k := by
  rw [State.answerAt, deviceTurn_busScript, State.answerAt]

/-- The answers at the head of the script are those to the first calls. -/
theorem answerAt_before {u : State} {before rest : List BusAnswer} (hscript : u.busScript = before ++ rest)
    (h : ∀ a ∈ before, a.succeeds = true) {k : Nat} (hk : k < before.length) : (u.answerAt k).succeeds = true := by
  have hget : u.answerAt k = before[k] := by
    simp [State.answerAt, hscript, List.headD_eq_head?_getD, List.head?_drop, List.getElem?_append_left hk, hk]
  exact hget ▸ h _ (List.getElem_mem hk)

/-- The answer that follows others in the script is that to the call after theirs. -/
theorem answerAt_next {u : State} {before rest : List BusAnswer} {a : BusAnswer}
    (hscript : u.busScript = before ++ a :: rest) : u.answerAt before.length = a := by
  simp [State.answerAt, hscript]

/-- The response to a frame reaches the device as the command's. -/
theorem receive_wire {i : Instr} {tx : List Byte} {n : Nat} (hw : i.wellFormed = true) (he : encode i = .frame tx n)
    (d : Device) (k : Nat) : ∃ rx e, d.receive k tx n = some (rx, e) ∧ d.respond k i = some (rx, e) := by
  obtain ⟨rx, e, hr⟩ := respond_wire he d k
  exact ⟨rx, e, (receive_encode hw he).trans hr, hr⟩

end Sys2Proof.Machine

/-! #### Bytes as the bus delivers them (30_encoding.md R95) -/

namespace Sys2Proof.Machine

/-- A scripted bus that names every byte of a read delivers them. -/
theorem received_data {u : State} {bs rx : List Byte} (h : u.answerAt 2 = .data bs) (hne : bs.length ≠ 0) :
    received u rx bs.length = bs := by
  rw [received, if_neg hne, show (u.busScript.drop 2).headD .ok = .data bs from h, deliver_data]

/-- A wire command that receives bytes is well formed. -/
theorem wellFormed_of_receives {i : Instr} {tx : List Byte} {n : Nat} (he : encode i = .frame tx n) (hn : n ≠ 0) :
    i.wellFormed = true := by
  cases i
  case pageProgram a data =>
    cases he
    contradiction
  all_goals rfl

/-- Settles O28: the first four answers are those of the transaction's calls, and the bytes of the third are what is put
away. -/
theorem anyBytesAreTakenAsDelivered : Obligations.AnyBytesAreTakenAsDelivered := by
  unfold Obligations.AnyBytesAreTakenAsDelivered
  intro s i tx bs a b c rest he hne hb ha hb' hc hscript
  have hn : bs.length ≠ 0 := by simpa using hne
  obtain ⟨rx, d, hr, -⟩ := receive_wire (wellFormed_of_receives he hn) he s.deviceTurn.dev s.deviceTurn.draws
  have hanswers : ∀ k < (txnCalls tx bs.length).length, (s.deviceTurn.answerAt k).succeeds = true := by
    rw [txnCalls, if_neg hn]
    intro k hk
    rw [answerAt_deviceTurn]
    have hd : (BusAnswer.data bs).succeeds = true := rfl
    exact answerAt_before (before := [a, b, .data bs, c]) hscript (by simp [ha, hb', hc, hd]) hk
  have hdata : s.deviceTurn.answerAt 2 = .data bs := by
    rw [answerAt_deviceTurn]
    exact answerAt_next (before := [a, b]) hscript
  have htxn := txn_succeeds hb hr hanswers
  rw [received_data hdata hn] at htxn
  have hexec : exec i s = .next (store i bs (s.deviceTurn.completed tx bs d)) := by
    rw [exec_wire he, wireRun, htxn]
    rfl
  refine ⟨_, hexec, by simp, by simp [hscript, txnCalls, hne], fun hi => ?_, fun hf => ?_⟩
  · subst hi
    obtain ⟨-, hlen⟩ := Encoded.frame.inj he
    obtain ⟨b0, rfl⟩ := List.length_eq_one_iff.mp hlen.symm
    rfl
  · simp [store, hf]

end Sys2Proof.Machine

/-! #### Transactions that fail (40_wire_commands.md R122; 60_exceptions.md R261, R268) -/

namespace Sys2Proof.Machine

section
variable {i : Instr} {s : State} {tx : List Byte} {n : Nat} {stage : Stage} {e : BusErr} {cs : List BusCall} {sel : Bool}

/-- A wire command whose transaction failed: the state it left, but for the buffer of a read. -/
theorem exec_failed (hw : i.wellFormed = true) (he : encode i = .frame tx n)
    (h : txn tx n s = .raised (s.deviceTurn.failed tx n stage e cs sel)) :
    ∃ t, exec i s = .next t ∧
      t = { s.deviceTurn.failed tx n stage e cs t.chipSelect with rxData := t.rxData } ∧ t.chipSelect = sel ∧
      (unsettles i = true → BusyAndLatchOpen s.deviceTurn.draws t) ∧ (fillsBuffer i = false → t.rxData = s.rxData) := by
  refine ⟨loseBuffer i n (s.deviceTurn.failed tx n stage e cs sel), ?_, rfl, rfl, fun hu => ?_, fun hf => ?_⟩
  · rw [exec_wire he, wireRun, h]
    rfl
  · exact afterFailure_open (decodeFrame_encode hw he) hu
  · rw [loseBuffer_plain hf]
    exact deviceTurn_rxData s

/-- A BusBegin that failed: nothing follows it. -/
theorem txn_begin_fails (hw : i.wellFormed = true) (he : encode i = .frame tx n) (hb : s.busHandle = .held)
    (h : s.deviceTurn.answerAt 0 = .err e) :
    txn tx n s = .raised (s.deviceTurn.failed tx n .begin e [.begin]
      (s.chipSelect && Config.freeSelect s.deviceTurn.draws)) := by
  obtain ⟨rx, d, hr, -⟩ := receive_wire hw he s.deviceTurn.dev s.deviceTurn.draws
  rw [txn_begin hb hr, busCall_err h, State.logCall_chipSelect, deviceTurn_chipSelect]
  simp [txnFail, State.failed, State.deviceMoves, State.record, State.raiseError, State.enter, State.logCall,
    State.select, State.target, State.action]

/-- A BusWrite that failed: the clean-up BusEnd follows it. -/
theorem txn_write_fails (hw : i.wellFormed = true) (he : encode i = .frame tx n) (hb : s.busHandle = .held)
    (h0 : (s.deviceTurn.answerAt 0).succeeds = true) (h1 : s.deviceTurn.answerAt 1 = .err e)
    (h2 : s.deviceTurn.answerAt 2 ≠ .hang) :
    ∃ sel, txn tx n s = .raised (s.deviceTurn.failed tx n .write e [.begin, .write tx, .finish] sel) ∧
      ((s.deviceTurn.answerAt 2).succeeds = true → sel = false) := by
  obtain ⟨rx, d, hr, -⟩ := receive_wire hw he s.deviceTurn.dev s.deviceTurn.draws
  rw [txn_write hb hr h0, busCall_called_err (cs := [.begin]) h1]
  exact cleanUp_called (cs := [.begin, .write tx]) h2

/-- A BusRead that failed: the clean-up BusEnd follows it. -/
theorem txn_read_fails (hw : i.wellFormed = true) (he : encode i = .frame tx n) (hb : s.busHandle = .held) (hn : n ≠ 0)
    (h0 : (s.deviceTurn.answerAt 0).succeeds = true) (h1 : (s.deviceTurn.answerAt 1).succeeds = true)
    (h2 : s.deviceTurn.answerAt 2 = .err e) (h3 : s.deviceTurn.answerAt 3 ≠ .hang) :
    ∃ sel, txn tx n s = .raised (s.deviceTurn.failed tx n .read e [.begin, .write tx, .read n, .finish] sel) ∧
      ((s.deviceTurn.answerAt 3).succeeds = true → sel = false) := by
  obtain ⟨rx, d, hr, -⟩ := receive_wire hw he s.deviceTurn.dev s.deviceTurn.draws
  rw [txn_read hb hr h0 h1, txnRead, if_neg hn, busCall_called_err (cs := [.begin, .write tx]) h2]
  exact cleanUp_called (cs := [.begin, .write tx, .read n]) h3

/-- A BusEnd that failed is the last call. -/
theorem txn_finish_fails (hw : i.wellFormed = true) (he : encode i = .frame tx n) (hb : s.busHandle = .held)
    (h : ∀ k < (sendCalls tx n).length, (s.deviceTurn.answerAt k).succeeds = true)
    (hlast : s.deviceTurn.answerAt (sendCalls tx n).length = .err e) :
    txn tx n s = .raised (s.deviceTurn.failed tx n .finish e (txnCalls tx n) (Config.freeSelect s.deviceTurn.draws)) := by
  obtain ⟨rx, d, hr, -⟩ := receive_wire hw he s.deviceTurn.dev s.deviceTurn.draws
  rw [txn_finish hb hr h, txnEnd, busCall_called_err hlast, ← txnCalls_eq, called_draws, txnFail_called]

end

/-- A command whose BusBegin failed leaves alone a device that it does not leave unsettled. -/
theorem afterNoBegin_untouched {i : Instr} (h : unsettles i = false) (d : Device) (k : Nat) (rs : List Range) :
    d.afterNoBegin k rs i = d := by
  cases i <;> first | rfl | cases h

theorem afterNoBegin_rstArmed (i : Instr) (d : Device) (k : Nat) (rs : List Range) :
    (d.afterNoBegin k rs i).rstArmed = d.rstArmed := by
  cases i <;> rfl

/-- The device after a command whose BusBegin failed. -/
theorem afterFailure_begin {i : Instr} {tx : List Byte} {n : Nat} (hw : i.wellFormed = true)
    (he : encode i = .frame tx n) (d : Device) (k : Nat) (rs : List Range) :
    d.afterFailure k rs .begin tx n = d.afterNoBegin k rs i := by
  simp only [Device.afterFailure, decodeFrame_encode hw he]

/-- Settles O29: the failure of each call is one way through the transaction, and what all failures have in common is
said once. -/
theorem failedTransactions : Obligations.FailedTransactions := by
  unfold Obligations.FailedTransactions
  intro s i tx n e rest hw he hb
  have answer (k : Nat) : s.deviceTurn.answerAt k = (s.busScript.drop k).headD .ok := answerAt_deviceTurn s k
  refine ⟨fun hscript => ?_, fun a ha hclean hscript => ?_, fun a b hn ha hb' hclean hscript => ?_,
    fun a b c ha hb' hc hscript => ?_⟩
  · obtain ⟨t, hexec, hframe, hsel, hopen, hbuf⟩ :=
      exec_failed hw he (txn_begin_fails (e := e) hw he hb (by rw [answer, hscript]; rfl))
    have hdev : t.dev = s.deviceTurn.dev.afterNoBegin s.deviceTurn.draws s.deviceTurn.target i := by
      rw [hframe]
      exact afterFailure_begin hw he ..
    refine ⟨t, hexec, hframe, fun hs => by simp [hsel, hs], fun hu => ?_, ?_, hopen, hbuf⟩
    · rw [hdev, afterNoBegin_untouched hu]
    · rw [hdev, afterNoBegin_rstArmed, deviceTurn_rstArmed]
  · have h2 : s.deviceTurn.answerAt 2 = rest.headD .ok := by rw [answer, hscript]; rfl
    obtain ⟨sel, htxn, hselect⟩ := txn_write_fails (e := e) hw he hb (by rw [answer, hscript]; exact ha)
      (by rw [answer, hscript]; rfl) (h2 ▸ hclean)
    obtain ⟨t, hexec, hframe, hsel, hopen, hbuf⟩ := exec_failed hw he htxn
    exact ⟨t, hexec, hframe, fun hs => hsel.trans (hselect (h2 ▸ hs)), hopen, hbuf⟩
  · have h3 : s.deviceTurn.answerAt 3 = rest.headD .ok := by rw [answer, hscript]; rfl
    obtain ⟨sel, htxn, hselect⟩ := txn_read_fails (e := e) hw he hb hn (by rw [answer, hscript]; exact ha)
      (by rw [answer, hscript]; exact hb') (by rw [answer, hscript]; rfl) (h3 ▸ hclean)
    obtain ⟨t, hexec, hframe, hsel, hopen, hbuf⟩ := exec_failed hw he htxn
    exact ⟨t, hexec, hframe, fun hs => hsel.trans (hselect (h3 ▸ hs)), hopen, hbuf⟩
  · obtain ⟨before, hscript', hlen, hbefore⟩ : ∃ before, s.busScript = before ++ .err e :: rest ∧
        (sendCalls tx n).length = before.length ∧ ∀ x ∈ before, x.succeeds = true := by
      rw [hscript, sendCalls]
      split
      · exact ⟨[a, b], rfl, rfl, by simp [ha, hb']⟩
      · exact ⟨[a, b, c], rfl, rfl, by simp [ha, hb', hc]⟩
    have hsend : ∀ k < (sendCalls tx n).length, (s.deviceTurn.answerAt k).succeeds = true := fun k hk => by
      rw [answerAt_deviceTurn]
      exact answerAt_before hscript' hbefore (hlen ▸ hk)
    have hlast : s.deviceTurn.answerAt (sendCalls tx n).length = .err e := by
      rw [answerAt_deviceTurn, hlen]
      exact answerAt_next hscript'
    obtain ⟨t, hexec, hframe, -, hopen, hbuf⟩ := exec_failed hw he (txn_finish_fails hw he hb hsend hlast)
    exact ⟨t, hexec, hframe, hopen, hbuf⟩

end Sys2Proof.Machine

/-! #### Calls that never return (41_subprotocols.md R162) -/

namespace Sys2Proof.Machine

/-- A transaction whose next call hangs, whichever it is, is stuck. -/
theorem txn_hangs {s : State} {tx rx : List Byte} {n k : Nat} {d : Device} (hb : s.busHandle = .held)
    (hr : s.deviceTurn.dev.receive s.deviceTurn.draws tx n = some (rx, d))
    (h : ∀ j < k, (s.deviceTurn.answerAt j).succeeds = true) (hk : s.deviceTurn.answerAt k = .hang)
    (hlt : k < (txnCalls tx n).length) : txn tx n s = .stuck .busHang := by
  rw [txnCalls_eq, List.length_append, List.length_singleton] at hlt
  by_cases hlast : k = (sendCalls tx n).length
  · subst hlast
    rw [txn_finish hb hr h, txnEnd, busCall_called_hang hk]
  have hsend : (sendCalls tx n).length = if n = 0 then 2 else 3 := by unfold sendCalls; split <;> rfl
  match k with
  | 0 => rw [txn_begin hb hr, busCall_hang hk]
  | 1 => rw [txn_write hb hr (h 0 (by omega)), busCall_called_hang (cs := [.begin]) hk]
  | 2 =>
    have hn : n ≠ 0 := by
      rintro rfl
      exact hlast hsend.symm
    rw [txn_read hb hr (h 0 (by omega)) (h 1 (by omega)), txnRead, if_neg hn,
      busCall_called_hang (cs := [.begin, .write tx]) hk]
  | k + 3 => split at hsend <;> omega

/-- Settles O30: the hung call is the transaction's next one after the calls that succeeded; a hung Sleep is all of
phase SLEEPING. -/
theorem hungCollaboratorIsStuck : Obligations.HungCollaboratorIsStuck := by
  unfold Obligations.HungCollaboratorIsStuck
  refine ⟨fun s i tx n before rest hw he hb hbefore hlt hscript => ?_, fun c s rest hd hscript hp hc => ?_⟩
  · obtain ⟨rx, d, hr, -⟩ := receive_wire hw he s.deviceTurn.dev s.deviceTurn.draws
    have hprior : ∀ j < before.length, (s.deviceTurn.answerAt j).succeeds = true := fun j hj => by
      rw [answerAt_deviceTurn]
      exact answerAt_before hscript hbefore hj
    have hhang : s.deviceTurn.answerAt before.length = .hang := by
      rw [answerAt_deviceTurn]
      exact answerAt_next hscript
    rw [exec_wire he, wireRun, txn_hangs hb hr hprior hhang hlt]
    rfl
  · rw [step_sleeping hp hc, sleepOnce, if_neg (by simp [hd]), hscript]
    rfl

end Sys2Proof.Machine

/-! ### Stops by name (70_reset_and_hazards.md R302; 30_encoding.md R91, R99; 10_state.md R24; 00_scope.md R12) -/

namespace Sys2Proof.Machine

/-- A released sequencer refuses every instruction: a wire command at its transaction, an operation at its acceptance. -/
theorem exec_released (i : Instr) {s : State} (h : s.busHandle = .released) : exec i s = .refused .handleReleased := by
  cases he : encode i with
  | frame tx n =>
    rw [exec_wire he, wireRun, txn, if_pos h]
    rfl
  | command c => exact exec_hostOp_released (by rw [isHostOp, he]) h

/-- The device refuses a PageProgram frame of more than 256 data bytes. -/
theorem receive_overlong {d : Device} {k : Nat} {a : Addr} {data : List Byte} (h : Config.pageSize < data.length) :
    d.receive k (0x02#8 :: (addr3 a ++ data)) 0 = none := by
  have hdecode : decodeFrame (0x02#8 :: (addr3 a ++ data)) 0 = .error (.payloadTooLong data.length) := by
    simp [decodeFrame, decodePageProgram, addr3_eq, h.not_ge]
  rw [Device.receive, hdecode]

/-- What a mutating operation runs: the class of its wait, its action frame and cycle, and the state it begins in. -/
structure IsMutation (i : Instr) (s : State) (c : PollClass) (cycle : Cycle) (w : Instr) (tx : List Byte)
    (s0 : State) : Prop where
  action : IsAction w cycle
  frame  : encode w = .frame tx 0
  runs   : s.ready → exec i s = (mutate c (txnSend w) s0).finishOperation
  start  : s0 = { s with
    op := s0.op, addr := s0.addr, len := s0.len, txData := s0.txData, phase := s0.phase, path := s0.path }
  cycle  : s0.action = some cycle
  noBytes : ∀ rx, okPayload s0.op rx = []

theorem isMutation_pageProgram {a : Addr} {data : List Byte} (hfits : data.length ≤ Config.pageSize) (s : State) :
    IsMutation (.opPageProgram a data) s .pp (.program a data) (.pageProgram a data) (0x02#8 :: (addr3 a ++ data))
      ((latchPageProgram a data s).enter .wren) :=
  ⟨isAction_pageProgram hfits, rfl, fun hs => exec_opPageProgram_fits hs hfits, rfl, rfl, fun _ => rfl⟩

theorem isMutation_sectorErase (a : Addr) (s : State) :
    IsMutation (.opSectorErase a) s .se (.sectorErase a) (.sectorErase a) (0x20#8 :: addr3 a) (latchSectorErase a s) :=
  ⟨isAction_sectorErase a, rfl, fun hs => (exec_opSectorErase a s).trans (operate_ready hs.1.1 hs.2), rfl, rfl,
    fun _ => rfl⟩

theorem isMutation_chipErase (s : State) :
    IsMutation .opChipErase s .ce .chipErase .chipErase [0xC7#8] (latchChipErase s) :=
  ⟨isAction_chipErase, rfl, fun hs => (exec_opChipErase s).trans (operate_ready hs.1.1 hs.2), rfl, rfl, fun _ => rfl⟩

/-- Every mutating operation that passes its length check runs the template. -/
theorem isMutation_of_mutation {i : Instr} {c : PollClass} {cycle : Cycle} (h : mutation i = some (c, cycle))
    (s : State) : ∃ w tx s0, IsMutation i s c cycle w tx s0 := by
  cases i <;> simp only [mutation, Option.ite_none_right_eq_some, Option.some.injEq, Prod.mk.injEq, reduceCtorEq] at h
  case opPageProgram a data =>
    obtain ⟨hfits, rfl, rfl⟩ := h
    exact ⟨_, _, _, isMutation_pageProgram hfits s⟩
  case opSectorErase a =>
    obtain ⟨rfl, rfl⟩ := h
    exact ⟨_, _, _, isMutation_sectorErase a s⟩
  case opChipErase =>
    obtain ⟨rfl, rfl⟩ := h
    exact ⟨_, _, _, isMutation_chipErase s⟩

/-- On a bus that succeeds the template gets to its busy-wait. -/
theorem mutate_polls {w : Instr} {cycle : Cycle} {tx : List Byte} {s : State} (hw : IsAction w cycle)
    (he : encode w = .frame tx 0) (hb : s.busHandle = .held) (hs : s.busSucceeds) (c : PollClass) :
    ∃ u, mutate c (txnSend w) s = pollLoop c (s.maxPolls.get c) u := by
  rw [mutate_wire he hw.noBuffer hw.noStatus, wireRun_completes (s := s) rfl rfl hb hs rfl, Run.andThen_ret,
    store_writeEnable]
  generalize hv : (s.deviceTurn.completed _ _ _).enter .action = v
  have hvb : v.busHandle = .held := by
    rw [← hv, State.enter_busHandle, State.completed_busHandle, deviceTurn_busHandle, hb]
  have hvs : v.busSucceeds := fun a ha => by
    rw [← hv, State.enter_busScript, State.completed_busScript, deviceTurn_busScript] at ha
    exact hs a (List.mem_of_mem_drop ha)
  have hvm : v.maxPolls = s.maxPolls := by
    rw [← hv, State.enter_maxPolls, State.completed_maxPolls, deviceTurn_maxPolls]
  rw [wireRun_completes hw.wellFormed he hvb hvs (hw.responds _ _), Run.andThen_ret, store_plain hw.noBuffer hw.noStatus,
    busyWait, State.completed_maxPolls, deviceTurn_maxPolls, hvm]
  exact ⟨_, rfl⟩

/-- Settles O31: a released handle is found first; the over-long frame is refused by the device; the malformed command
by the port decoder; and a wait whose bound is 0 has no round to run. -/
theorem stopsAreNamed : Obligations.StopsAreNamed := by
  unfold Obligations.StopsAreNamed
  refine ⟨fun s i h => exec_released i h, fun s a data hb hlong => ?_, fun s a n data rest hidle hport hne => ?_,
    fun s i c cycle hi hs hbus hmax => ?_⟩
  · rw [exec_wire rfl, wireRun, txn, if_neg (by simp [hb])]
    simp only [receive_overlong hlong]
    rfl
  · have hdecode : decodeCommand ⟨1#3, a, n, data⟩ = .error .lengthMismatch := if_neg hne
    rw [step_idle hidle, idleStep, hport]
    simp only [hdecode]
  · obtain ⟨w, tx, s0, hm⟩ := isMutation_of_mutation hi s
    have hstart := hm.start
    obtain ⟨u, hpoll⟩ := mutate_polls (s := s0) hm.action hm.frame (by rw [hstart]; exact hs.1.1)
      (by rw [hstart]; exact hbus) c
    rw [hm.runs hs, hpoll, show s0.maxPolls.get c = 0 by rw [hstart]; exact hmax]
    rfl

end Sys2Proof.Machine

/-! ### The Complete step of a waiting device (46_device_response.md R239, R240) -/

namespace Sys2Proof.Machine

theorem deviceTurn_passed {s : State} (hbusy : s.dev.busy = true) (h : s.schedule.headD s.scheduleEnd = false) :
    s.deviceTurn = { s with schedule := s.schedule.tail } := by
  rw [deviceTurn_busy hbusy, h]
  rfl

theorem deviceTurn_taken {s : State} (hbusy : s.dev.busy = true) (h : s.schedule.headD s.scheduleEnd = true) :
    s.deviceTurn = { s with dev := s.dev.complete s.draws, draws := s.draws + 1, schedule := s.schedule.tail } := by
  rw [deviceTurn_busy hbusy, h]
  rfl

/-- The array after the Complete step of a pending cycle. -/
theorem complete_mem {d : Device} {c : Cycle} (h : d.pending = some c) (k : Nat) :
    (d.complete k).mem = d.cycleResult k c := by
  rw [Device.complete, h]

/-- A data byte programmed over an erased one reads back. -/
theorem read_program_erased {d : Device} {k j : Nat} {a : Addr} {data : List Byte}
    (hw : Memory.wf d.erasedByte d.capacity d.mem) (h1 : a.toNat + data.length ≤ d.capacity)
    (h2 : a.toNat % 256 + data.length ≤ 256) (hj : j < data.length)
    (hold : Memory.read d.erasedByte d.mem (a.toNat + j) = d.erasedByte) :
    some (Memory.read d.erasedByte (d.cycleResult k (.program a data)) (a.toNat + j)) = data[j]? := by
  rw [read_program hw h1 h2, if_pos ⟨by omega, by omega⟩, hold, Device.programCombine, if_pos rfl,
    Nat.add_sub_cancel_left, List.getD_eq_getElem _ _ hj, List.getElem?_eq_getElem hj]

/-- Settles O32: the idle step is the device's turn, and each cycle's update is that of the array after it. -/
theorem completeAppliesThePendingCycle : Obligations.CompleteAppliesThePendingCycle := by
  unfold Obligations.CompleteAppliesThePendingCycle
  intro s hidle hport hinv hbusy
  rw [step_idle hidle, idleStep_empty hport]
  refine ⟨fun hpass => by rw [deviceTurn_passed hbusy hpass], fun htake => ?_⟩
  refine ⟨_, rfl, ?_⟩
  rw [deviceTurn_taken hbusy htake]
  refine ⟨rfl, fun a hp hin x => ?_, fun hp x hx => ?_, fun a data hp hcap hpage => ?_⟩
  · rw [complete_mem hp, read_sectorErase hin]
  · rw [complete_mem hp, read_chipErase hx]
  · rw [complete_mem hp]
    refine ⟨fun j hj hold => read_program_erased hinv.1 hcap hpage hj hold, fun x hx => ?_⟩
    rw [read_program hinv.1 hcap hpage, if_neg hx]

end Sys2Proof.Machine

/-! ### The operations of one or two wire commands (42_read.md; 44_reset_write_enable.md; 45_identification.md) -/

namespace Sys2Proof.Machine

/-- `u` is `s` with other operand latches, phase and path. -/
def SameButLatches (s u : State) : Prop :=
  u = { s with op := u.op, addr := u.addr, len := u.len, txData := u.txData, phase := u.phase, path := u.path }

/-- The device takes its turn the same way, whatever the latches. -/
theorem SameButLatches.deviceTurn {s u : State} (h : SameButLatches s u) : SameButLatches s.deviceTurn u.deviceTurn := by
  have hturn := deviceTurn_same (s := s) (u := u) (by rw [h]) (by rw [h]) (by rw [h]) (by rw [h])
  unfold SameButLatches
  rw [hturn, h, deviceTurn_frame s]

/-- An operation of one wire command on a ready sequencer, where the device answers. -/
theorem operate_answered {i : Instr} {tx rx : List Byte} {n : Nat} {s : State} {d : Device} {latch : State → State}
    (hs : s.ready) (hlatch : SameButLatches s (latch s)) (hw : i.wellFormed = true) (he : encode i = .frame tx n)
    (hd : s.deviceAnswers) (hr : s.deviceTurn.dev.respond s.deviceTurn.draws i = some (rx, d)) :
    operate s latch (wireRun i tx n) =
      .next (store i rx ((latch s).deviceTurn.completed tx rx d)).succeed.respond := by
  obtain ⟨⟨hb, -⟩, hidle⟩ := hs
  have hturn := hlatch.deviceTurn
  rw [operate_ready hb hidle, wireRun_answered (s := latch s) (d := d) hw he (by rw [hlatch]; exact hb)
    (by rw [hlatch]; exact hd) (by rw [hturn]; exact hr)]
  rfl

/-- An operation of one wire command that receives nothing, on a bus that succeeds. -/
theorem operate_sends {i : Instr} {tx : List Byte} {s : State} {d : Device} {latch : State → State}
    (hs : s.ready) (hlatch : SameButLatches s (latch s)) (hw : i.wellFormed = true) (he : encode i = .frame tx 0)
    (hf : fillsBuffer i = false) (hi : i ≠ .readStatus) (hbus : s.busSucceeds)
    (hr : s.deviceTurn.dev.respond s.deviceTurn.draws i = some ([], d)) :
    operate s latch (wireRun i tx 0) = .next ((latch s).deviceTurn.completed tx [] d).succeed.respond := by
  obtain ⟨⟨hb, -⟩, hidle⟩ := hs
  have hturn := hlatch.deviceTurn
  rw [operate_ready hb hidle, wireRun_completes (s := latch s) (d := d) hw he (by rw [hlatch]; exact hb)
    (by rw [hlatch]; exact hbus) (by rw [hturn]; exact hr), store_plain hf hi]
  rfl

/-- Settles O33: the one transaction of read on a device that is not busy, from its latches to its response. -/
theorem readOperation : Obligations.ReadOperation := by
  unfold Obligations.ReadOperation
  intro s a n hs hd hbusy
  refine ⟨s.deviceTurn.dev.readBytes s.deviceTurn.draws a n, by simp [Device.readBytes], fun i hi ha => ?_, ?_⟩
  · rw [readBytes_getElem? hi (by rwa [deviceTurn_capacity]), deviceTurn_erasedByte]
  · have hlatch : SameButLatches s (latchRead a n s) := rfl
    rw [exec_opRead, operate_answered (i := .read a n) hs hlatch rfl rfl hd rfl, answer_idle hbusy,
      takeRead_idle hbusy, hlatch.deviceTurn]
    refine congrArg Host.Outcome.next ?_
    ext1 <;> simp [latchRead, okPayload]

/-- Settles O35: the one transaction of write_enable on a device that is not busy. -/
theorem writeEnableOperation : Obligations.WriteEnableOperation := by
  unfold Obligations.WriteEnableOperation
  intro s hs hbus hbusy
  have hlatch : SameButLatches s (latchWriteEnable s) := rfl
  rw [exec_opWriteEnable, operate_sends (i := .writeEnable) hs hlatch rfl rfl rfl (by simp) hbus rfl,
    takeWriteEnable_idle hbusy, hlatch.deviceTurn]
  refine congrArg Host.Outcome.next ?_
  ext1 <;> simp [latchWriteEnable, okPayload]

/-- Settles O37: the one transaction of each on a device that is not busy. -/
theorem identificationOperations : Obligations.IdentificationOperations := by
  unfold Obligations.IdentificationOperations
  intro s hs hd hbusy
  obtain ⟨hmfr, hdev, htype, hcap⟩ := deviceTurn_ids s
  refine ⟨?_, ?_⟩
  · have hlatch : SameButLatches s (latchReadManufacturerId s) := rfl
    rw [← hmfr, ← hdev, exec_opReadManufacturerId, operate_answered (i := .readManufacturerId)
      (tx := [0x90#8, 0x00#8, 0x00#8, 0x00#8]) hs hlatch rfl rfl hd rfl, answer_idle hbusy, takeRead_idle hbusy, hlatch.deviceTurn]
    refine congrArg Host.Outcome.next ?_
    ext1 <;> simp [latchReadManufacturerId, okPayload]
  · have hlatch : SameButLatches s (latchReadJedecId s) := rfl
    rw [← hmfr, ← htype, ← hcap, exec_opReadJedecId, operate_answered (i := .readJedecId) hs hlatch rfl rfl hd rfl,
      answer_idle hbusy, takeRead_idle hbusy, hlatch.deviceTurn]
    refine congrArg Host.Outcome.next ?_
    ext1 <;> simp [latchReadJedecId, okPayload]

/-- What write_enable on a device that is not busy leaves: a ready sequencer on a bus that succeeds, with WEL = 1. -/
theorem exec_opWriteEnable_idle {s : State} (hs : s.ready) (hbus : s.busSucceeds) (hbusy : s.dev.busy = false) :
    ∃ t, exec .opWriteEnable s = .next t ∧ t.ready ∧ t.busSucceeds ∧
      t.dev = { s.dev with wel := true, rstArmed := s.dev.rstArmed && (s.dev.wel || Config.freeArmed s.draws) } := by
  have hturn := deviceTurn_idle hbusy
  have hexec := writeEnableOperation s hs hbus (by rwa [hturn])
  rw [hturn] at hexec
  exact ⟨_, hexec, ⟨hs.1, rfl⟩, fun a ha => hbus a (List.mem_of_mem_drop ha), rfl⟩

/-- Settles O36: where WEL is 1 the frame changes nothing, and the first operation sets it. -/
theorem writeEnableIsIdempotent : Obligations.WriteEnableIsIdempotent := by
  unfold Obligations.WriteEnableIsIdempotent
  intro s hs hbus hbusy
  have latched : ∀ {d : Device} {b : Bool}, d.wel = true →
      ({ d with wel := true, rstArmed := d.rstArmed && (d.wel || b) } : Device) = d := by
    intro d b hw
    ext1 <;> simp [hw]
  obtain ⟨t, ht, hts, htbus, htdev⟩ := exec_opWriteEnable_idle hs hbus hbusy
  obtain ⟨u, hu, -, -, hudev⟩ := exec_opWriteEnable_idle hts htbus (by rw [htdev]; exact hbusy)
  refine ⟨t, u, ht, hu, hudev.trans (latched (by rw [htdev])), ?_, fun harmed => ?_,
    fun hw => htdev.trans (latched hw)⟩
  · rw [htdev]
  · rw [htdev, harmed]
    rfl

/-! #### software_reset -/

/-- The device's turn changes BUSY, WEL, the array and the pending cycle at most. -/
theorem deviceTurn_dev_frame (s : State) :
    s.deviceTurn.dev = { s.dev with
      busy := s.deviceTurn.dev.busy, wel := s.deviceTurn.dev.wel, mem := s.deviceTurn.dev.mem
      pending := s.deviceTurn.dev.pending } := by
  unfold State.deviceTurn
  split
  · split <;> rfl
  · rfl

/-- The reset pair on a bus that succeeds: between the two frames the device has another turn. -/
theorem resetPair_completes {s : State} (hb : s.busHandle = .held) (hs : s.busSucceeds) :
    ∃ u : State, u = (s.deviceTurn.completed [0x66#8] [] { s.deviceTurn.dev with rstArmed := true }).enter .rstExec ∧
      ((wireRun .enableReset [0x66#8] 0 s).andThen fun _ s => wireRun .reset [0x99#8] 0 (s.enter .rstExec)) =
        .ret () (u.deviceTurn.completed [0x99#8] [] (u.deviceTurn.dev.powerOn u.deviceTurn.draws)) := by
  refine ⟨_, rfl, ?_⟩
  rw [wireRun_completes (s := s) rfl rfl hb hs rfl, Run.andThen_ret, store_enableReset,
    show received s.deviceTurn [] 0 = [] from rfl]
  generalize hu : (s.deviceTurn.completed [0x66#8] [] { s.deviceTurn.dev with rstArmed := true }).enter .rstExec = u
  have hub : u.busHandle = .held := by
    rw [← hu, State.enter_busHandle, State.completed_busHandle, deviceTurn_busHandle, hb]
  have hus : u.busSucceeds := fun a ha => by
    rw [← hu, State.enter_busScript, State.completed_busScript, deviceTurn_busScript] at ha
    exact hs a (List.mem_of_mem_drop ha)
  have harmed : u.deviceTurn.dev.rstArmed = true := by
    rw [deviceTurn_rstArmed, ← hu]
    rfl
  rw [wireRun_completes (s := u) rfl rfl hub hus rfl, store_reset, takeReset_armed harmed]
  rfl

/-- The device after the reset pair. -/
theorem resetPair_dev {s u : State}
    (hu : u = (s.deviceTurn.completed [0x66#8] [] { s.deviceTurn.dev with rstArmed := true }).enter .rstExec) :
    u.deviceTurn.dev.powerOn u.deviceTurn.draws = { s.dev with
      mem := (u.deviceTurn.dev.powerOn u.deviceTurn.draws).mem
      busy := false, wel := false, pending := none, rstArmed := false } := by
  have hdev : u.dev = { s.deviceTurn.dev with rstArmed := true } := by rw [hu]; rfl
  rw [Device.powerOn, deviceTurn_dev_frame u, hdev, deviceTurn_dev_frame s]

/-- Where no cycle was pending the reset pair keeps the array. -/
theorem resetPair_mem {s u : State} (hinv : s.dev.inv) (hp : s.dev.pending = none)
    (hu : u = (s.deviceTurn.completed [0x66#8] [] { s.deviceTurn.dev with rstArmed := true }).enter .rstExec) :
    (u.deviceTurn.dev.powerOn u.deviceTurn.draws).mem = s.dev.mem := by
  have hbusy : s.dev.busy = false := by rw [hinv.2, hp]; rfl
  have hdev : u.dev = { s.dev with rstArmed := true } := by
    rw [hu, deviceTurn_idle hbusy]
    rfl
  have hubusy : u.dev.busy = false := by rw [hdev]; exact hbusy
  have hfoot : u.dev.pendingFootprint = [] := by
    rw [Device.pendingFootprint, hdev]
    simp only [hp]
  rw [deviceTurn_idle hubusy, Device.powerOn]
  simp only
  rw [hfoot, scramble_nil, hdev]

/-- Outside the range of a pending cycle the reset pair keeps the array. -/
theorem resetPair_read {s u : State} (hinv : s.dev.inv)
    (hu : u = (s.deviceTurn.completed [0x66#8] [] { s.deviceTurn.dev with rstArmed := true }).enter .rstExec) {x : Nat}
    (hx : ∀ r ∈ s.dev.pendingFootprint, ¬ (r.lo ≤ x ∧ x < r.lo + r.len)) :
    Memory.read s.dev.erasedByte (u.deviceTurn.dev.powerOn u.deviceTurn.draws).mem x =
      Memory.read s.dev.erasedByte s.dev.mem x := by
  have hdev : u.dev = { s.deviceTurn.dev with rstArmed := true } := by rw [hu]; rfl
  have herased : u.dev.erasedByte = s.dev.erasedByte := by rw [hdev]; exact deviceTurn_erasedByte s
  have huinv : u.dev.inv := by rw [hdev]; exact inv_deviceTurn hinv
  have hfoot : u.dev.pendingFootprint = s.deviceTurn.dev.pendingFootprint :=
    pendingFootprint_congr (by rw [hdev]) (by rw [hdev]; rfl)
  obtain ⟨hread, hx⟩ := read_deviceTurn hinv.1 hx
  obtain ⟨hread', hx'⟩ := read_deviceTurn (s := u) huinv.1 (hfoot ▸ hx)
  have hscramble := read_scramble (k := u.deviceTurn.draws) (inv_deviceTurn huinv).1 hx'
  calc Memory.read s.dev.erasedByte (u.deviceTurn.dev.powerOn u.deviceTurn.draws).mem x
    _ = Memory.read s.dev.erasedByte u.deviceTurn.dev.mem x := by
      rw [deviceTurn_erasedByte, herased] at hscramble
      exact hscramble
    _ = Memory.read s.dev.erasedByte u.dev.mem x := herased ▸ hread'
    _ = Memory.read s.dev.erasedByte s.deviceTurn.dev.mem x := by rw [hdev]
    _ = Memory.read s.dev.erasedByte s.dev.mem x := hread

/-- Settles O40: the reset pair on the latched state; both frames complete, and the armed Reset is the power-on. -/
theorem softwareResetOperation : Obligations.SoftwareResetOperation := by
  unfold Obligations.SoftwareResetOperation
  rintro s ⟨⟨hb, -⟩, hidle⟩ hbus hinv
  obtain ⟨u, hu, hpair⟩ := resetPair_completes (s := latchSoftwareReset s) hb hbus
  have hexec : exec .opSoftwareReset s = .next
      (u.deviceTurn.completed [0x99#8] [] (u.deviceTurn.dev.powerOn u.deviceTurn.draws)).succeed.respond := by
    rw [exec_opSoftwareReset, operate_ready hb hidle, hpair]
    rfl
  refine ⟨_, hexec, ?_, resetPair_dev (s := latchSoftwareReset s) hu,
    fun hp => resetPair_mem (s := latchSoftwareReset s) hinv hp hu,
    fun x hx => resetPair_read (s := latchSoftwareReset s) hinv hu hx⟩
  rw [hu]
  ext1 <;> simp [latchSoftwareReset, okPayload, txnCalls, hidle]

end Sys2Proof.Machine

/-! ### The mutating operations on a device that answers (41_subprotocols.md R159; 43_program_erase.md) -/

namespace Sys2Proof.Machine

/-- The device with an accepted cycle pending. -/
def Device.running (d : Device) (cycle : Cycle) (armed : Bool) : Device :=
  { d with wel := true, busy := true, pending := some cycle, rstArmed := armed }

/-- What a mutating operation leaves that began its template in `s0`, but for its result and its device. -/
structure MutationFrame (s s0 t : State) (r : Result) (reads sleeps : Nat) : Prop where
  frame   : t = { s0 with
    phase := .idle, result := r, pollCnt := reads, status := t.status, dev := t.dev, draws := t.draws
    schedule := t.schedule, chipSelect := false, busScript := t.busScript, sleepScript := t.sleepScript
    calls := t.calls, trace := t.trace, path := t.path }
  events  : ∃ ev, t.trace = s.trace ++ ev ++ [Event.rsp r] ∧ ev.countP isTransaction = 2 + reads ∧
    ev.countP isSleep = sleeps
  answers : t.deviceAnswers

section
variable {i w : Instr} {s s0 : State} {c : PollClass} {cycle : Cycle} {tx : List Byte}

/-- The template on an idle device that answers gets to its busy-wait, the cycle pending. -/
theorem IsMutation.starts (hm : IsMutation i s c cycle w tx s0) (hs : s.ready) (hd : s.deviceAnswers)
    (hidle : s.dev.idle) :
    ∃ (u : State) (armed : Bool), mutate c (txnSend w) s0 = pollLoop c (s.maxPolls.get c) u ∧
      u = { s0 with
        pollCnt := 0, phase := .poll, chipSelect := false, dev := s.dev.running cycle armed, draws := u.draws
        busScript := u.busScript, calls := u.calls, trace := s.trace ++ [.txn [0x06#8] [], .txn tx []]
        path := u.path } ∧
      u.deviceAnswers := by
  have hstart := hm.start
  obtain ⟨u, hpoll, hu, ha, hdev⟩ := mutate_starts (c := c) (s := s0) hm.action.wellFormed hm.frame hm.action.noBuffer
    hm.action.noStatus hm.action.responds (by rw [hstart]; exact hs.1) (by rw [hstart]; exact hd)
    (by rw [hstart]; exact hidle.1)
  refine ⟨u, u.dev.rstArmed, ?_, ?_, ha⟩
  · rw [hpoll, hstart]
  · rw [hdev, hstart] at hu
    rw [hstart]
    exact hu

/-- The events of the two transactions before the wait, those of the wait, and the response. -/
theorem mutation_events {u v t : State} {ev : List Event} {r : Result} {reads sleeps : Nat}
    (hu : u.trace = s.trace ++ [Event.txn [0x06#8] [], .txn tx []]) (hv : v.trace = u.trace ++ ev)
    (ht : t.trace = v.trace ++ [Event.rsp r]) (hreads : ev.countP isTransaction = reads)
    (hsleeps : ev.countP isSleep = sleeps) :
    ∃ ev, t.trace = s.trace ++ ev ++ [Event.rsp r] ∧ ev.countP isTransaction = 2 + reads ∧ ev.countP isSleep = sleeps := by
  refine ⟨[Event.txn [0x06#8] [], .txn tx []] ++ ev, by simp [ht, hv, hu], ?_, ?_⟩
  · rw [List.countP_append, hreads]
    rfl
  · rw [List.countP_append, hsleeps]
    exact Nat.zero_add _

/-- A mutating operation whose cycle completes within the bound. -/
theorem IsMutation.completes {K : Nat} (hm : IsMutation i s c cycle w tx s0) (hs : s.ready) (hd : s.deviceAnswers)
    (hsl : s.sleepsReturn) (hidle : s.dev.idle) (hK : s.completesAfter K) (hlt : K < s.maxPolls.get c) :
    ∃ t, exec i s = .next t ∧ MutationFrame s s0 t (.ok []) (K + 1) K ∧ isBusy t.status = false ∧
      ∃ (armed : Bool) (k : Nat), t.dev = { (s.dev.running cycle armed).complete k with
        statusHigh := t.dev.statusHigh, rstArmed := t.dev.rstArmed } := by
  have hstart := hm.start
  obtain ⟨u, armed, hpoll, hu, ha⟩ := hm.starts hs hd hidle
  have hudev : u.dev = s.dev.running cycle armed := by rw [hu]
  have hutrace : u.trace = s.trace ++ [.txn [0x06#8] [], .txn tx []] := by rw [hu]
  obtain ⟨v, ev, k, hv, hframe, htrace, hreads, hsleeps, hcnt, hready, hdev⟩ :=
    pollLoop_completes (c := c) (fuel := s.maxPolls.get c) (s := u) (by rw [hu, hstart]; exact hs.1) ha
      (by rw [hu, hstart]; exact hsl) (by rw [hudev]; rfl) (by rw [hu, hstart]; exact Nat.zero_add _)
      (by rw [hu, hstart]; exact hK) hlt
  have hvframe := hframe.frame
  have hop : v.op = s0.op := by rw [hvframe, hu]
  have hvcnt : v.pollCnt = K + 1 := by rw [hcnt, hu]; simp
  refine ⟨v.succeed.respond, ?_, ⟨?_, ?_, hframe.answers⟩, hready, armed, k, ?_⟩
  · rw [hm.runs hs, hpoll, hv]
    rfl
  · rw [hvframe, hu]
    ext1 <;> simp [hm.noBytes, hvcnt]
  · exact mutation_events hutrace htrace (by simp [hop, hm.noBytes]) hreads hsleeps
  · rw [← hudev]
    exact hdev

/-- A mutating operation whose cycle does not complete within the bound. -/
theorem IsMutation.times_out (hm : IsMutation i s c cycle w tx s0) (hs : s.ready) (hd : s.deviceAnswers)
    (hsl : s.sleepsReturn) (hidle : s.dev.idle) (hmax : 1 ≤ s.maxPolls.get c)
    (hnot : ¬ s.completesWithin (s.maxPolls.get c)) :
    ∃ t, exec i s = .next t ∧
      MutationFrame s s0 t .timeout (s.maxPolls.get c) (s.maxPolls.get c - 1) ∧
      ∃ (armed : Bool) (high : BitVec 6) (k : Nat),
        t.dev = ({ s.dev.running cycle armed with statusHigh := high } : Device).unresolve k (s.dev.footprint cycle) := by
  have hstart := hm.start
  obtain ⟨u, armed, hpoll, hu, ha⟩ := hm.starts hs hd hidle
  have hudev : u.dev = s.dev.running cycle armed := by rw [hu]
  have hutrace : u.trace = s.trace ++ [.txn [0x06#8] [], .txn tx []] := by rw [hu]
  have htarget : u.target = s.dev.footprint cycle := by
    rw [State.target, show u.action = some cycle by rw [hu]; exact hm.cycle]
    exact footprint_congr cycle (by rw [hudev]; rfl)
  obtain ⟨v, ev, k, d, hv, hframe, htrace, hresult, hreads, hsleeps, hcnt, hd', hdev⟩ :=
    pollLoop_times_out (c := c) (fuel := s.maxPolls.get c) (s := u) (by rw [hu, hstart]; exact hs.1) ha
      (by rw [hu, hstart]; exact hsl) (by rw [hudev]; rfl) (by rw [hu, hstart]; exact Nat.zero_add _) hmax
      (by rw [hu, hstart]; exact hnot)
  have hvframe := hframe.frame
  have hvcnt : v.pollCnt = s.maxPolls.get c := by rw [hcnt, hu]; simp
  refine ⟨v.respond, ?_, ⟨?_, ?_, hframe.answers⟩, d.rstArmed, d.statusHigh, k, ?_⟩
  · rw [hm.runs hs, hpoll, hv]
    rfl
  · rw [hvframe, hu]
    ext1 <;> simp [hresult, hvcnt]
  · exact mutation_events hutrace htrace (by simp [hresult]) hreads hsleeps
  · rw [hudev] at hd'
    rw [State.respond_dev, hdev, htarget]
    exact congrArg (·.unresolve k (s.dev.footprint cycle)) hd'

end

/-- Settles O44: the schedule says at which opportunity the device completes, and there is one opportunity to a poll. -/
theorem busyWaitCountsPolls : Obligations.BusyWaitCountsPolls := by
  unfold Obligations.BusyWaitCountsPolls
  intro s i c cycle hi hs hd hsl hmax hidle
  obtain ⟨w, tx, s0, hm⟩ := isMutation_of_mutation hi s
  by_cases hin : s.completesWithin (s.maxPolls.get c)
  · obtain ⟨K, hK, hlt⟩ := hin
    obtain ⟨t, hexec, hframe, -⟩ := hm.completes hs hd hsl hidle hK hlt
    obtain ⟨ev, htrace, hreads, hsleeps⟩ := hframe.events
    have hresult : t.result = .ok [] := by rw [hframe.frame]
    have hcnt : t.pollCnt = K + 1 := by rw [hframe.frame]
    refine ⟨t, ev, hexec, hresult ▸ htrace, fun K' hK' _ => ?_, fun hnot => absurd ⟨K, hK, hlt⟩ hnot⟩
    obtain rfl : K = K' := Option.some.inj (hK.symm.trans hK')
    exact ⟨hresult, hreads, hsleeps, hcnt⟩
  · obtain ⟨t, hexec, hframe, -⟩ := hm.times_out hs hd hsl hidle hmax hin
    obtain ⟨ev, htrace, hreads, hsleeps⟩ := hframe.events
    have hresult : t.result = .timeout := by rw [hframe.frame]
    have hcnt : t.pollCnt = s.maxPolls.get c := by rw [hframe.frame]
    exact ⟨t, ev, hexec, hresult ▸ htrace, fun K hK hlt => absurd ⟨K, hK, hlt⟩ hin,
      fun _ => ⟨hresult, hreads, hsleeps, hcnt⟩⟩

end Sys2Proof.Machine

/-! #### The array after a mutating operation (46_device_response.md R230, R232, R234, R242) -/

namespace Sys2Proof.Machine

/-- What is known of a device whose cycle has completed: it is not busy, its constants are kept and its array is the
cycle's result. -/
structure CycleDone (d t : Device) (cycle : Cycle) : Prop where
  busy      : t.busy = false
  wel       : t.wel = false
  pending   : t.pending = none
  constants : t.constants = d.constants
  mem       : ∃ (armed : Bool) (k : Nat), t.mem = (d.running cycle armed).cycleResult k cycle

theorem cycleDone_of_complete {d t : Device} {cycle : Cycle} {armed : Bool} {k : Nat}
    (h : t = { (d.running cycle armed).complete k with statusHigh := t.statusHigh, rstArmed := t.rstArmed }) :
    CycleDone d t cycle := by
  rw [h]
  exact ⟨rfl, rfl, rfl, rfl, armed, k, rfl⟩

/-- Outside its footprint the completed cycle has changed nothing. -/
theorem CycleDone.read_outside {d t : Device} {cycle : Cycle} (h : CycleDone d t cycle) (hinv : d.inv) {x : Nat}
    (hx : ∀ r ∈ d.footprint cycle, ¬ (r.lo ≤ x ∧ x < r.lo + r.len)) :
    Memory.read d.erasedByte t.mem x = Memory.read d.erasedByte d.mem x := by
  obtain ⟨armed, k, hmem⟩ := h.mem
  rw [hmem]
  have hfoot : (d.running cycle armed).footprint cycle = d.footprint cycle := footprint_congr cycle rfl
  exact read_cycleResult (d := d.running cycle armed) hinv.1 (hfoot ▸ hx)

/-- A completed program inside the array and one page. -/
theorem CycleDone.read_program {d t : Device} {a : Addr} {data : List Byte} (h : CycleDone d t (.program a data))
    (hinv : d.inv) (h1 : a.toNat + data.length ≤ d.capacity) (h2 : a.toNat % 256 + data.length ≤ 256) (x : Nat) :
    Memory.read d.erasedByte t.mem x =
      if a.toNat ≤ x ∧ x < a.toNat + data.length then
        d.programCombine (Memory.read d.erasedByte d.mem x) (data.getD (x - a.toNat) 0#8)
      else Memory.read d.erasedByte d.mem x := by
  obtain ⟨armed, k, hmem⟩ := h.mem
  rw [hmem]
  exact Machine.read_program (d := d.running _ armed) hinv.1 h1 h2 x

/-- A completed program over erased bytes reads back. -/
theorem CycleDone.read_program_erased {d t : Device} {a : Addr} {data : List Byte} {j : Nat}
    (h : CycleDone d t (.program a data)) (hinv : d.inv) (h1 : a.toNat + data.length ≤ d.capacity)
    (h2 : a.toNat % 256 + data.length ≤ 256) (hj : j < data.length)
    (hold : Memory.read d.erasedByte d.mem (a.toNat + j) = d.erasedByte) :
    some (Memory.read d.erasedByte t.mem (a.toNat + j)) = data[j]? := by
  obtain ⟨armed, k, hmem⟩ := h.mem
  rw [hmem]
  exact Machine.read_program_erased (d := d.running _ armed) hinv.1 h1 h2 hj hold

/-- A completed sector erase inside the array. -/
theorem CycleDone.read_sectorErase {d t : Device} {a : Addr} (h : CycleDone d t (.sectorErase a))
    (hin : d.sectorBase a + d.sectorSize ≤ d.capacity) (x : Nat) :
    Memory.read d.erasedByte t.mem x =
      if d.sectorBase a ≤ x ∧ x < d.sectorBase a + d.sectorSize then d.erasedByte
      else Memory.read d.erasedByte d.mem x := by
  obtain ⟨armed, k, hmem⟩ := h.mem
  rw [hmem]
  exact Machine.read_sectorErase (d := d.running _ armed) hin x

/-- A completed chip erase. -/
theorem CycleDone.read_chipErase {d t : Device} (h : CycleDone d t .chipErase) {x : Nat} (hx : x < d.capacity) :
    Memory.read d.erasedByte t.mem x = d.erasedByte := by
  obtain ⟨armed, k, hmem⟩ := h.mem
  rw [hmem]
  exact Machine.read_chipErase (d := d.running _ armed) hx

/-- A mutating operation that completes in time: its frame, and the device with the cycle done. -/
theorem IsMutation.done {i w : Instr} {s s0 : State} {c : PollClass} {cycle : Cycle} {tx : List Byte}
    (hm : IsMutation i s c cycle w tx s0) (hs : s.ready) (hd : s.deviceAnswers) (hsl : s.sleepsReturn)
    (hidle : s.dev.idle) (hin : s.completesWithin (s.maxPolls.get c)) :
    ∃ (t : State) (reads sleeps : Nat), Machine.exec i s = .next t ∧ MutationFrame s s0 t (.ok []) reads sleeps ∧
      isBusy t.status = false ∧ CycleDone s.dev t.dev cycle := by
  obtain ⟨K, hK, hlt⟩ := hin
  obtain ⟨t, hexec, hframe, hready, armed, k, hdev⟩ := hm.completes hs hd hsl hidle hK hlt
  exact ⟨t, K + 1, K, hexec, hframe, hready, cycleDone_of_complete hdev⟩

/-- Settles O45: the template with a program's cycle, on the latches of page_program. -/
theorem pageProgramOperation : Obligations.PageProgramOperation := by
  unfold Obligations.PageProgramOperation
  intro s a data hs hd hsl hinv hidle hfits hin
  obtain ⟨t, reads, sleeps, hexec, hframe, hready, hdone⟩ :=
    (isMutation_pageProgram hfits s).done hs hd hsl hidle hin
  have hidlePhase := hs.2
  refine ⟨t, hexec, ?_, hready, hdone.busy, hdone.wel, hdone.pending, hdone.constants,
    fun h1 h2 x => hdone.read_program hinv h1 h2 x, fun x hx => hdone.read_outside hinv hx⟩
  rw [hframe.frame]
  ext1 <;> simp [latchPageProgram, hidlePhase]

/-- Settles O46: the template with a sector erase's cycle. -/
theorem sectorEraseOperation : Obligations.SectorEraseOperation := by
  unfold Obligations.SectorEraseOperation
  intro s a hs hd hsl _ hidle hin
  obtain ⟨t, reads, sleeps, hexec, hframe, hready, hdone⟩ := (isMutation_sectorErase a s).done hs hd hsl hidle hin
  have hidlePhase := hs.2
  refine ⟨t, hexec, ?_, hready, hdone.busy, hdone.wel, hdone.pending, hdone.constants,
    fun h x => hdone.read_sectorErase h x⟩
  rw [hframe.frame]
  ext1 <;> simp [latchSectorErase, hidlePhase]

/-- Settles O47: the template with a chip erase's cycle. -/
theorem chipEraseOperation : Obligations.ChipEraseOperation := by
  unfold Obligations.ChipEraseOperation
  intro s hs hd hsl _ hidle hin
  obtain ⟨t, reads, sleeps, hexec, hframe, hready, hdone⟩ := (isMutation_chipErase s).done hs hd hsl hidle hin
  have hidlePhase := hs.2
  refine ⟨t, hexec, ?_, hready, hdone.busy, hdone.wel, hdone.pending, hdone.constants,
    fun x hx => hdone.read_chipErase hx⟩
  rw [hframe.frame]
  ext1 <;> simp [latchChipErase, hidlePhase]

/-- Settles O48: the read finds the device of the completed program idle, and each byte it returns is the one
programmed over an erased one. -/
theorem programThenReadRoundTrip : Obligations.ProgramThenReadRoundTrip := by
  unfold Obligations.ProgramThenReadRoundTrip
  intro s a data hs hd hsl hinv hidle hfits hcap hpage herased hin
  obtain ⟨t, reads, sleeps, hexec, hframe, -, hdone⟩ := (isMutation_pageProgram hfits s).done hs hd hsl hidle hin
  have hts : t.ready := by rw [hframe.frame]; exact ⟨hs.1, rfl⟩
  obtain ⟨-, -, -, -, htcap, -, htfill⟩ := constants_fields hdone.constants
  have hturn := deviceTurn_idle hdone.busy
  obtain ⟨rx, hlen, hbytes, hread⟩ := readOperation t a data.length hts hframe.answers (by rw [hturn]; exact hdone.busy)
  have hrx : rx = data := by
    refine List.ext_getElem? fun j => ?_
    by_cases hj : j < data.length
    · rw [hbytes j hj (by rw [htcap]; omega), hturn, htfill]
      exact hdone.read_program_erased hinv hcap hpage hj (herased j hj)
    · rw [List.getElem?_eq_none (by omega), List.getElem?_eq_none (by omega)]
  subst hrx
  exact ⟨t, _, hexec, by rw [hframe.frame], hread, rfl, rfl⟩

/-! #### After a Timeout (10_state.md R38; 60_exceptions.md R263) -/

/-- Where a cycle was pending a Timeout leaves it pending or ended, with BUSY accordingly. -/
theorem unresolve_pending {d : Device} {cycle : Cycle} (h : d.pending = some cycle) (k : Nat) (rs : List Range) :
    ((d.unresolve k rs).pending = none ∨ (d.unresolve k rs).pending = some cycle) ∧
      (d.unresolve k rs).busy = (d.unresolve k rs).pending.isSome := by
  unfold Device.unresolve
  split
  · exact ⟨.inr (by simp [h]), rfl⟩
  · exact ⟨.inl rfl, rfl⟩

/-- Settles O49: at the Timeout the operation's own cycle is pending, whose footprint is the target range. -/
theorem timeoutLeavesTheTargetOpen : Obligations.TimeoutLeavesTheTargetOpen := by
  unfold Obligations.TimeoutLeavesTheTargetOpen
  intro s i c cycle hi hs hd hsl hinv hidle hmax hnot
  obtain ⟨w, tx, s0, hm⟩ := isMutation_of_mutation hi s
  obtain ⟨t, hexec, hframe, armed, high, k, hdev⟩ := hm.times_out hs hd hsl hidle hmax hnot
  generalize hrun : ({ s.dev.running cycle armed with statusHigh := high } : Device) = d at hdev
  have hpending : d.pending = some cycle := by rw [← hrun]; rfl
  have hfoot : d.pendingFootprint = s.dev.footprint cycle := by
    rw [Device.pendingFootprint, hpending]
    exact footprint_congr cycle (by rw [← hrun]; rfl)
  have hwf : Memory.wf d.erasedByte d.capacity d.mem := by rw [← hrun]; exact hinv.1
  obtain ⟨hpend, hbusy⟩ := unresolve_pending hpending k (s.dev.footprint cycle)
  refine ⟨t, hexec, by rw [hframe.frame], by rw [hframe.frame], ?_, ?_, fun x hx => ?_⟩
  · rw [hdev]; exact hpend
  · rw [hdev]; exact hbusy
  · have hread := read_unresolve (k := k) (rs := s.dev.footprint cycle) (x := x) hwf
      (by rw [hfoot]; exact fun r hr => hx r ((List.mem_append.mp hr).elim id id))
    rw [← hdev, ← hrun] at hread
    exact hread

/-- The device after a ReadStatus: its array, its pending cycle and its constants are kept. -/
theorem wireDone_readStatus_dev {s u : State} (h : WireDone .readStatus s [0x05#8] 1 u) :
    u.dev = s.deviceTurn.dev.takeReadStatus s.deviceTurn.draws := by
  obtain ⟨rx, v, ⟨j, drx, d, hdec, hresp, -, rfl⟩, rfl⟩ := h
  obtain rfl : Instr.readStatus = j := Except.ok.inj hdec
  cases hresp
  rfl

/-- In phase POLL the wire command is ReadStatus. -/
theorem wireAt_of_poll {s : State} {i : Instr} (hp : s.phase = .poll) (hi : wireAt s = some i) :
    i = .readStatus ∧ ∃ c, pollClass s.op = some c := by
  obtain ⟨hpath, -⟩ := wireAt_phase hi
  rw [hp] at hpath
  obtain ⟨c, hc⟩ := Option.isSome_iff_exists.mp hpath
  rw [wireAt_poll hp hc] at hi
  exact ⟨(Option.some.inj hi).symm, c, hc⟩

/-- A step from POLL that ends in a Timeout is a ReadStatus that went through and then the raise. -/
theorem step_timeout {s t : State} (hp : s.phase = .poll) (h : step s = .next t) (hresult : t.result = .timeout)
    (hdone : t.phase = .done) :
    ∃ u, WireDone .readStatus s [0x05#8] 1 u ∧ t = u.countPoll.raiseTimeout := by
  rcases step_cases h (by simp [hp]) with ⟨hph, -⟩ | ⟨hph, -⟩ | ⟨hph, -⟩ | ⟨i, tx, n, u, hi, he, hu, rfl⟩
  · simp [hp] at hph
  · simp [hp] at hph
  · simp [hp] at hph
  · obtain ⟨rfl, c, hc⟩ := wireAt_of_poll hp hi
    cases he
    rcases hu with hu | hu
    · obtain ⟨-, -, -, hph, -⟩ := wireDone_trace hu
      have hafter := afterWire_poll (hph.trans hp) ((kept_wireDone hu).op ▸ hc)
      rw [hafter] at hresult hdone ⊢
      rcases afterPoll_cases c u with ht | ht | ⟨ht, -⟩ <;> rw [ht] at hresult hdone ⊢
      · cases hresult
      · exact ⟨u, hu, rfl⟩
      · cases hdone
    · obtain ⟨_, _, -, hres, hph⟩ := wireFailed_trace hu
      rw [afterWire_done hph, hres] at hresult
      cases hresult

/-- Settles O50: the status read leaves array and pending cycle alone, and the raise unsettles BUSY and WEL. -/
theorem timeoutLeavesBusyAndLatchOpen : Obligations.TimeoutLeavesBusyAndLatchOpen := by
  unfold Obligations.TimeoutLeavesBusyAndLatchOpen
  intro s t hp hinv hstep hdone hresult
  obtain ⟨u, hu, rfl⟩ := step_timeout hp hstep hresult hdone
  have hk := kept_wireDone hu
  have hdev := wireDone_readStatus_dev hu
  have hmem : u.dev.mem = s.deviceTurn.dev.mem := by rw [hdev]; rfl
  have herased : u.dev.erasedByte = s.dev.erasedByte := by
    obtain ⟨-, -, -, -, -, -, h⟩ := constants_fields hk.constants
    exact h
  have hfoot : u.dev.pendingFootprint = s.deviceTurn.dev.pendingFootprint :=
    pendingFootprint_congr (by rw [hdev]; rfl) (by rw [hdev]; rfl)
  have haction : u.action = s.action := by simp only [State.action, hk.op, hk.addr, hk.txData]
  have htarget : u.countPoll.target = s.target := target_congr haction hk.constants
  refine ⟨unresolve_open .., inv_unresolve (hk.inv hinv), fun x hx => ?_⟩
  obtain ⟨hturn, hpend⟩ := read_deviceTurn hinv.1 (fun r hr => hx r (List.mem_append_left _ hr))
  have hread := read_unresolve (k := u.draws) (rs := s.target) (x := x) (hk.inv hinv).1 (fun r hr => ?_)
  · rw [herased, hmem, hturn] at hread
    rw [State.raiseTimeout_dev, htarget]
    exact hread
  · rcases List.mem_append.mp hr with hr | hr
    · exact hpend r (hfoot ▸ hr)
    · exact hx r (List.mem_append_right _ hr)

end Sys2Proof.Machine
